-- ==== Sys2Proof/Word.lean ====
section
/-! DEFINITION. The word types of the SSAF codec core: memory bytes, 16-bit and 32-bit register
fields (`00_scope.md` R9: REG_W = ADDR_W = WORK_W = 32). -/

namespace Sys2Proof

/-- One byte of the shared memory (R80). -/
abbrev Byte := BitVec 8

/-- A 16-bit register field (CHANNELS, ERR_CODE.CHAN). -/
abbrev Half := BitVec 16

/-- A register of the block, a bus address, or a working value of the Rice coder (R9). -/
abbrev Word := BitVec 32

end Sys2Proof
end

