-- ==== Sys2Proof/Config.lean ====
section
/-! DEFINITION. What an implementation fixes (`00_scope.md` R8, R9, each literal one named constant as
R7 asks) and the values the spec leaves open, which are opaque: no proof can see one of them.
The platform's own parameters that a run must be able to evaluate (REG_BASE, BUS_FAULTS,
DMA_COHERENT) are plain data in `Machine.Platform` instead. -/

namespace Sys2Proof.Config

/-- LOG2_BLOCK, as PARAM reports it (R36). -/
def log2Block : Nat := 12

/-- BLOCK: compacted values per Rice block (R8). -/
def block : Nat := 4096

/-- MIN_RUN: the least zero run that becomes a descriptor (R8, R201). -/
def minRun : Nat := 10

/-- DITHER_TH: a sample is near-silent when its magnitude is below this (R8, R170). -/
def ditherTh : Nat := 4

/-- PRED_W: the predictor's truncation width (R8, R184). -/
def predW : Nat := 16

/-- ZZ_SHIFT: the arithmetic right shift of the zig-zag map (R8, R221). -/
def zzShift : Nat := 15

/-- DEPTHS: the supported bit-depth codes (R8, R150). -/
def depths : List Nat := [8, 16, 24, 32]

/-- The greatest Rice parameter the decoder accepts (R9, R227). -/
def maxParam : Nat := 32

/-- The number of bytes of the address space (R80). -/
def addrTop : Nat := 2 ^ 32

/-- What a byte of memory holds at power-on, by address: any value, the platform's (R371, U6). -/
opaque powerOnByte : Nat → Byte

/-- The byte that draw `d` left at address `a`: any value (R333, R340, R372, R92; U1, U2, U5, U7). -/
opaque freeByte : Nat → Nat → Byte

/-- ERR_INFO after a bus error, by draw: any value (R334, U3). -/
opaque freeInfo : Nat → Word

/-- Which channel a bus error is reported in, by draw; `busErr` bounds it (R40, R97). -/
opaque freeChan : Nat → Nat

/-- Whether the platform reports a bus error for a command that touches a marked byte (R340). -/
opaque busReported : Nat → Bool

/-- Whether the access reported is a write, where both kinds are possible (R97, R340). -/
opaque busOnWrite : Nat → Bool

end Sys2Proof.Config
end

