-- ==== Sys2Proof/Syntax.lean ====
section
/-! DEFINITION. The syntax: one constructor per row of the opcode table, the five container tags, and the
host-script actions (`30_encoding.md` R127) with the reset line and the engine's own turns, which
together are what a run of the machine is driven by. -/

namespace Sys2Proof

/-- One constructor per row of spec/opcode_table.json. A command word has no operand field (R110) and a
tag word no field at all (R125), so no constructor carries one. -/
inductive Instr where
  /-- NOP, CMD opcode 0x00 (R302). -/
  | nop
  /-- ENCODE, CMD opcode 0x01 (R303). -/
  | encode
  /-- DECODE, CMD opcode 0x02 (R304). -/
  | decode
  /-- The container's magic `SSAF`, met by the parser (R278). -/
  | tagSSAF
  /-- A channel chunk's tag `chan`, met by the parser (R278). -/
  | tagChan
  /-- A zero-run chunk's tag `zre `, met by the parser (R278). -/
  | tagZre
  /-- A Rice chunk's tag `rice`, met by the parser (R278). -/
  | tagRice
  /-- A data chunk's tag `data`, met by the parser (R278). -/
  | tagData
deriving DecidableEq, Repr

/-- The five ASCII tags of the container (R15). -/
inductive Tag where
  | ssaf | chan | zre | rice | data
deriving DecidableEq, Repr

/-- The width of one bus access to the register block: 1, 2, 4 or 8 bytes. Only `word` is defined (R33). DESIGN
CHOICE (log entry 10, safe): R33 says "narrower, wider or misaligned" and lists no widths, so an access of another
width (3 bytes, 16 bytes) is no input of the model. -/
inductive AccessSize where
  | byte | half | word | double
deriving DecidableEq, Repr

/-- One event of a run: a host action (R127), the reset input (R370), or a turn of the engine. The two
engine turns are the model's way to say when, between acceptance and the end, the engine moves (R379). -/
inductive Input where
  /-- `WR`: the host writes `v` at bus address `addr` of the register block. -/
  | regWrite (addr : Word) (size : AccessSize) (v : Word)
  /-- `RD`: the host reads the register block at bus address `addr`. -/
  | regRead (addr : Word) (size : AccessSize)
  /-- `MEM a: b0 b1 ...`: the host writes bytes to the shared memory. -/
  | memWrite (addr : Word) (bytes : List Byte)
  /-- The host reads `len` bytes of the shared memory (the read behind `EXPECT MEM`). -/
  | memRead (addr : Word) (len : Nat)
  /-- The platform asserts the reset input (R370). -/
  | resetOn
  /-- The platform releases the reset input (R370). -/
  | resetOff
  /-- The engine makes unobservable progress inside the running command (R56). -/
  | advance
  /-- The engine completes the running command (R301). -/
  | complete
deriving DecidableEq, Repr

end Sys2Proof
end

