-- ==== Sys2Proof/WellFormed.lean ====
section
/-! DEFINITION. Well-formed syntax. No instruction has an operand, so every instruction is well formed;
what can be ill formed is a host action: a register access that is not an aligned 32-bit access of the
block (R33) or a memory access that leaves the address space (R80). -/

namespace Sys2Proof

/-- Every instruction is well formed: no row of the opcode table has a field (R110, R125). -/
def Instr.wf : Instr → Bool
  | .nop => true
  | .encode => true
  | .decode => true
  | .tagSSAF => true
  | .tagChan => true
  | .tagZre => true
  | .tagRice => true
  | .tagData => true

/-- A register access is defined when it is a 32-bit access at a register's own offset (R32, R33).
REG_BASE may be any address, and the alignment is that of the offset (log entry 8, DESIGN CHOICE, unsafe). -/
def regAccessWf (base addr : Word) (size : AccessSize) : Bool :=
  let off := (addr - base).toNat
  decide (size = .word) && decide (off < 256) && decide (off % 4 = 0)

/-- A memory access lies inside the 2^32 bytes of the address space (R80). -/
def memAccessWf (addr : Word) (len : Nat) : Bool :=
  decide (addr.toNat + len ≤ Config.addrTop)

/-- The host-script actions the spec defines, for a register block at `base`. -/
def Input.wf (base : Word) : Input → Bool
  | .regWrite addr size _ => regAccessWf base addr size
  | .regRead addr size => regAccessWf base addr size
  | .memWrite addr bytes => memAccessWf addr bytes.length
  | .memRead addr len => memAccessWf addr len
  | .resetOn => true
  | .resetOff => true
  | .advance => true
  | .complete => true

end Sys2Proof
end

