-- ==== Sys2Proof/Decode.lean ====
section
/-! DEFINITION. The decoder of command words and of container tag words, from the mask and match of each
row of the opcode table (`30_encoding.md` R110 to R113, R125), and after it the encoder. A command word
comes from the CMD register and a tag word from the container, so each has its own table; the tables do
not overlap, and `decodeWord` reads a word with both. -/

namespace Sys2Proof

/-- The 32-bit word of four bytes, lowest address first (R82). -/
def wordOfBytes (b0 b1 b2 b3 : Byte) : Word := b3 ++ b2 ++ b1 ++ b0

/-- The four bytes of a word, lowest address first (R82). -/
def bytesOfWord (w : Word) : List Byte :=
  [w.extractLsb' 0 8, w.extractLsb' 8 8, w.extractLsb' 16 8, w.extractLsb' 24 8]

/-- One row of the opcode table. -/
structure Row where
  mask : Word
  pattern : Word
  instr : Instr
deriving DecidableEq, Repr

/-- A word belongs to a row when its masked bits are the row's pattern. -/
def Row.holds (r : Row) (w : Word) : Bool := w &&& r.mask == r.pattern

/-- The rows of format `cmd`: CMD[7:0] is the opcode, CMD[31:8] is ignored (R110, R111). -/
def cmdRows : List Row :=
  [⟨0x000000FF#32, 0x00000000#32, .nop⟩,
   ⟨0x000000FF#32, 0x00000001#32, .encode⟩,
   ⟨0x000000FF#32, 0x00000002#32, .decode⟩]

/-- The rows of format `container_tag`: four ASCII bytes read little-endian (R125). -/
def tagRows : List Row :=
  [⟨0xFFFFFFFF#32, 0x46415353#32, .tagSSAF⟩,
   ⟨0xFFFFFFFF#32, 0x6E616863#32, .tagChan⟩,
   ⟨0xFFFFFFFF#32, 0x2065727A#32, .tagZre⟩,
   ⟨0xFFFFFFFF#32, 0x65636972#32, .tagRice⟩,
   ⟨0xFFFFFFFF#32, 0x61746164#32, .tagData⟩]

/-- Why a word is no instruction. -/
inductive DecodeError where
  /-- A command word whose opcode is 0x03 to 0xFF (R112). -/
  | illegalOpcode (op : Byte)
  /-- Four bytes of a container that are none of the five tags (R126). -/
  | notATag (w : Word)
  /-- Fewer than four bytes. -/
  | tooShort (n : Nat)
deriving DecidableEq, Repr

/-- The instruction of the first row that holds of the word. -/
def lookupRow (rows : List Row) (w : Word) : Option Instr :=
  (rows.find? (·.holds w)).map (·.instr)

/-- The command a word written to CMD issues (R110 to R112). -/
def decodeCommand (w : Word) : Except DecodeError Instr :=
  match lookupRow cmdRows w with
  | some i => .ok i
  | none => .error (.illegalOpcode (w.setWidth 8))

/-- The tag a word of the container is (R125, R126). -/
def decodeTag (w : Word) : Except DecodeError Instr :=
  match lookupRow tagRows w with
  | some i => .ok i
  | none => .error (.notATag w)

/-- The row of the whole opcode table a word belongs to: a tag where all 32 bits are a tag's, else a
command. -/
def decodeWord (w : Word) : Except DecodeError Instr :=
  match decodeTag w with
  | .ok i => .ok i
  | .error _ => decodeCommand w

/-- The decoder on bytes in memory order: the first four are the word. -/
def decodeBytes : List Byte → Except DecodeError Instr
  | b0 :: b1 :: b2 :: b3 :: _ => decodeWord (wordOfBytes b0 b1 b2 b3)
  | bs => .error (.tooShort bs.length)

/-- The word of each instruction: its row's match value, ignored bits 0. -/
def encode : Instr → Word
  | .nop => 0x00000000#32
  | .encode => 0x00000001#32
  | .decode => 0x00000002#32
  | .tagSSAF => 0x46415353#32
  | .tagChan => 0x6E616863#32
  | .tagZre => 0x2065727A#32
  | .tagRice => 0x65636972#32
  | .tagData => 0x61746164#32

/-- The bytes of each instruction in memory order. -/
def encodeBytes (i : Instr) : List Byte := bytesOfWord (encode i)

/-- The four ASCII bytes of a tag, in order of appearance (R15). -/
def tagBytes : Tag → List Byte
  | .ssaf => [0x53#8, 0x53#8, 0x41#8, 0x46#8]
  | .chan => [0x63#8, 0x68#8, 0x61#8, 0x6E#8]
  | .zre => [0x7A#8, 0x72#8, 0x65#8, 0x20#8]
  | .rice => [0x72#8, 0x69#8, 0x63#8, 0x65#8]
  | .data => [0x64#8, 0x61#8, 0x74#8, 0x61#8]

/-- The tag an instruction is, for the five tag rows. -/
def tagOf : Instr → Option Tag
  | .nop => none
  | .encode => none
  | .decode => none
  | .tagSSAF => some .ssaf
  | .tagChan => some .chan
  | .tagZre => some .zre
  | .tagRice => some .rice
  | .tagData => some .data

/-- The word a table row's bits are, at most `nbits` of them, every bit above 0. -/
def tableWord (nbits w : Nat) : Word := BitVec.ofNat 32 (w % 2 ^ nbits)

/-- What the decoder reads from an instruction whose bits are `w`, laid out as the hardware stores it. -/
def decodeTableWord (nbits w : Nat) : Option Instr :=
  match decodeBytes (bytesOfWord (tableWord nbits w)) with
  | .ok i => some i
  | .error _ => none

end Sys2Proof
end

