-- ==== Sys2Proof/Machine/State.lean ====
section
/-! DEFINITION. The state of the SSAF codec core and its platform as plain data: the register block
(`10_state.md` R34 to R49), the engine's phase, latched operands and working state (R51, R52, R56), the
shared memory (R80), the reset input (R370), the platform's parameters (R9), and the model's own fields
(the pending inputs, the response to the last host read, the draw counter). -/

namespace Sys2Proof.Machine

/-- A range of byte addresses, `[lo, lo + len)`. -/
structure Span where
  lo : Nat
  len : Nat
deriving DecidableEq, Repr

/-- Addresses `[lo, hi)` whose unlisted bytes hold what draw `draw` left there: any value, per byte. -/
structure FreeSpan where
  lo : Nat
  hi : Nat
  draw : Nat
deriving DecidableEq, Repr

/-- The shared memory (R80): the bytes written since power-on or since their range last became
unspecified, and the ranges that are unspecified. A byte in neither is as the platform left it at
power-on (R371). -/
structure Memory where
  cells : List Host.Cell
  free : List FreeSpan
deriving DecidableEq, Repr

/-- The registers of the block (R34). ID and PARAM are constants and CMD holds nothing, so they have no
field; STATUS.BUSY is the engine's phase (R51). Reserved bits read 0 and so are not stored. -/
structure Regs where
  irqEn : Bool
  ditherEn : Bool
  done : Bool
  err : Bool
  ign : Bool
  errCode : Word
  errInfo : Word
  srcAddr : Word
  srcLen : Word
  dstAddr : Word
  dstCap : Word
  sampleRate : Word
  depth : Byte
  channels : Half
  outLen : Word
  inUsed : Word
  resRate : Word
  resDepth : Byte
  resChannels : Half
  resSamples : Word
deriving DecidableEq, Repr

/-- The operands a command runs on, latched at its acceptance (R52). -/
structure Latched where
  op : Byte
  src : Word
  srcLen : Word
  dst : Word
  cap : Word
  rate : Word
  depth : Byte
  channels : Half
  dither : Bool
deriving DecidableEq, Repr

/-- Where the container parser stands (R276): at a tag it expects, inside the chunk that the tag opens,
or past the last channel. -/
inductive ParseStage where
  | tag (t : Tag)
  | body (t : Tag)
  | done
deriving DecidableEq, Repr

/-- A zero run's descriptor: its start offset and its length (R118, R200). -/
structure Run where
  start : Nat
  len : Nat
deriving DecidableEq, Repr

/-- The working state of a DECODE in progress (R56, R276): the byte position relative to L.src, the
header's fields once read, the channel in hand with what its chunks gave so far, and the channels
already reconstructed. -/
structure Parse where
  pos : Nat
  stage : ParseStage
  rate : Nat
  depth : Nat
  samples : Nat
  channels : Nat
  chan : Nat
  count : Nat
  runs : List Run
  params : List Int
  pcm : List (List Int)
deriving DecidableEq, Repr

/-- The engine's phase (R51). While busy it holds the latched operands and, for a DECODE whose progress
the run shows, its working state. -/
inductive Phase where
  | idle
  | busy (l : Latched) (work : Option Parse)
deriving DecidableEq, Repr

/-- The platform's parameters (R9): REG_BASE, the addresses at which it may report a bus error
(BUS_FAULTS, R97), and DMA_COHERENT (R96). No step changes them. -/
structure Platform where
  regBase : Word
  busFaults : List Span
  dmaCoherent : Bool
deriving DecidableEq, Repr

/-- What the last host read returned: nothing yet, a register's value, or bytes of memory. -/
inductive Response where
  | none
  | reg (v : Word)
  | mem (bytes : List Byte)
deriving DecidableEq, Repr

/-- The error codes of ERR_CODE.CODE (R332), NONE apart. -/
inductive ErrCode where
  | format
  | range
  | unsupported
  | truncated
  | inconsistent
  | overflow
  | config
  | illegalCmd
  | bus
deriving DecidableEq, Repr

/-- What a raised error reports (R14, R333, R334). `need` is the size an OVERFLOW reports and is 0 for
every other code. -/
structure Err where
  code : ErrCode
  sub : Nat
  info : Nat
  chan : Nat
  need : Nat := 0
deriving DecidableEq, Repr

/-- The result registers' values after a successful ENCODE or DECODE (R47 to R49). -/
structure Results where
  outLen : Nat
  inUsed : Nat
  rate : Nat
  depth : Nat
  channels : Nat
  samples : Nat
deriving DecidableEq, Repr

/-- The whole machine. `inputs`, `response` and `draws` are the model's own. -/
structure State where
  regs : Regs
  phase : Phase
  inReset : Bool
  mem : Memory
  platform : Platform
  inputs : List Input
  response : Response
  draws : Nat
deriving DecidableEq, Repr

/-- Why the machine stops with a fault. -/
inductive Fault where
  /-- A host memory access leaves the 2^32 bytes of the address space (R80; that it is a fault, and one
  that comes before `busyRangeWrite`, is log entry 12). Raised by `hostMemWrite` and `hostMemRead`. Safe: the machine
  stops, and no byte outside the space exists. -/
  | noSuchAddress (addr : Nat)
deriving DecidableEq, Repr

/-- Why the machine gives an event no meaning. -/
inductive Refusal where
  /-- An instruction whose meaning is not written. No arm of `exec` raises it. Safe. -/
  | notModelled (mnemonic : String)
  /-- A register access that is not an aligned 32-bit access (R33, U9). Raised by `busWrite` and
  `busRead`. Safe: the spec has a model refuse it. -/
  | registerAccess (addr : Word) (size : AccessSize)
  /-- A host write, while BUSY, to the running command's input or output range (R91, U8), all of it
  inside the address space (log entry 11). Raised by `hostMemWrite`. Safe: the spec has a model refuse it. -/
  | busyRangeWrite (addr : Word)
deriving DecidableEq, Repr

/-- The registers after reset (R34, R371): CTRL = 0x2, every other one 0. -/
def Regs.reset : Regs where
  irqEn := false
  ditherEn := true
  done := false
  err := false
  ign := false
  errCode := 0#32
  errInfo := 0#32
  srcAddr := 0#32
  srcLen := 0#32
  dstAddr := 0#32
  dstCap := 0#32
  sampleRate := 0#32
  depth := 0#8
  channels := 0#16
  outLen := 0#32
  inUsed := 0#32
  resRate := 0#32
  resDepth := 0#8
  resChannels := 0#16
  resSamples := 0#32

/-- Memory nothing has written: every byte is as the platform left it at power-on (R371, U6). -/
def Memory.powerOn : Memory := ⟨[], []⟩

/-- The platform of `State.reset`: log entry 8 (DESIGN CHOICE; the spec leaves all three open). -/
def Platform.reset : Platform := ⟨0#32, [], true⟩

/-- The machine right after the power-on reset is released (R370, R371), with nothing pending. The values
of `platform`, `response` and `draws` are the model's (log entries 5, 8 and 15). -/
def State.reset : State where
  regs := Regs.reset
  phase := .idle
  inReset := false
  mem := Memory.powerOn
  platform := Platform.reset
  inputs := []
  response := .none
  draws := 0

end Sys2Proof.Machine
end

