-- ==== Sys2Proof/Machine/Flags.lean ====
section
/-! DEFINITION. The flags: the STATUS and CTRL words, what acceptance, completion and a write-1-to-clear
do to DONE, ERR and IGN, and the interrupt output (`10_state.md` R37, R39, R55). -/

namespace Sys2Proof.Machine

/-- STATUS.BUSY reads 1 exactly when the engine is not idle (R51). -/
def Phase.isBusy : Phase → Bool
  | .idle => false
  | .busy _ _ => true

/-- A register word with the given low bits. -/
def bitAt (b : Bool) (n : Nat) : Word := if b then 1#32 <<< n else 0#32

/-- STATUS as a word: BUSY [0], DONE [1], ERR [2], IGN [3] (R39). -/
def statusWord (r : Regs) (p : Phase) : Word :=
  bitAt p.isBusy 0 ||| bitAt r.done 1 ||| bitAt r.err 2 ||| bitAt r.ign 3

/-- CTRL as a word: IRQ_EN [0], DITHER_EN [1] (R37). -/
def ctrlWord (r : Regs) : Word := bitAt r.irqEn 0 ||| bitAt r.ditherEn 1

/-- A write to CTRL: bits 0 and 1 are stored, the rest ignored (R37). -/
def Regs.writeCtrl (r : Regs) (v : Word) : Regs :=
  { r with irqEn := v.getLsbD 0, ditherEn := v.getLsbD 1 }

/-- A write to STATUS: DONE, ERR and IGN are cleared by a 1, BUSY is not writable (R39). -/
def Regs.clearStatus (r : Regs) (v : Word) : Regs :=
  { r with done := r.done && !v.getLsbD 1, err := r.err && !v.getLsbD 2, ign := r.ign && !v.getLsbD 3 }

/-- Acceptance clears DONE and ERR and the two error registers; IGN stays (R300). -/
def Regs.clearForAccept (r : Regs) : Regs :=
  { r with done := false, err := false, errCode := 0#32, errInfo := 0#32 }

/-- An ignored busy-locked write sets IGN (R53). -/
def Regs.setIgn (r : Regs) : Regs := { r with ign := true }

/-- Completion without error: DONE set, ERR and the error registers 0 (R301). -/
def Regs.flagOk (r : Regs) : Regs :=
  { r with done := true, err := false, errCode := 0#32, errInfo := 0#32 }

/-- Completion with an error: DONE and ERR set (R333). -/
def Regs.flagErr (r : Regs) : Regs := { r with done := true, err := true }

/-- The interrupt output, CTRL.IRQ_EN and STATUS.DONE (R55, R341). -/
def Regs.irq (r : Regs) : Bool := r.irqEn && r.done

/-- The interrupt output of the machine. -/
def State.irq (s : State) : Bool := s.regs.irq

end Sys2Proof.Machine
end

