-- ==== Sys2Proof/Machine/Operands.lean ====
section
/-! DEFINITION. Operands: what a command latches (`10_state.md` R52), its two address ranges (`20_memory.md`
R81), the depth code (`40_sample_access.md` R150), and the configuration checks on them in the order of
`60_exceptions.md` R335, R338, R339. -/

namespace Sys2Proof.Machine

/-- ERR_CODE.CHAN of an error raised outside any channel (R40). -/
def noChan : Nat := 0xFFFF

/-- The operand latch of acceptance (R52, R300). -/
def latch (r : Regs) (cmd : Word) : Latched where
  op := cmd.setWidth 8
  src := r.srcAddr
  srcLen := r.srcLen
  dst := r.dstAddr
  cap := r.dstCap
  rate := r.sampleRate
  depth := r.depth
  channels := r.channels
  dither := r.ditherEn

/-- The opcodes of the three commands (R111). -/
def opNop : Byte := 0x00#8
/-- ENCODE's opcode (R111). -/
def opEncode : Byte := 0x01#8
/-- DECODE's opcode (R111). -/
def opDecode : Byte := 0x02#8

/-- The input range `[L.src, L.src + L.srclen)` (R81). -/
def Latched.inSpan (l : Latched) : Span := ⟨l.src.toNat, l.srcLen.toNat⟩

/-- The output range `[L.dst, L.dst + L.cap)` (R81). -/
def Latched.outSpan (l : Latched) : Span := ⟨l.dst.toNat, l.cap.toNat⟩

/-- Whether an address lies in a range. -/
def Span.has (sp : Span) (a : Nat) : Bool := decide (sp.lo ≤ a) && decide (a < sp.lo + sp.len)

/-- Two ranges overlap when both hold a byte and they share one (R339 sub 2). -/
def Span.overlaps (x y : Span) : Bool :=
  decide (0 < x.len) && decide (0 < y.len) && decide (x.lo < y.lo + y.len) && decide (y.lo < x.lo + x.len)

/-- A range runs past the end of the address space (R81, R339 sub 1). -/
def Span.wraps (x : Span) : Bool := decide (Config.addrTop < x.lo + x.len)

/-- The ranges a running command owns: a NOP or an illegal opcode has none (R86, R111; log entry 13, DEDUCED,
unsafe). -/
def Latched.spans (l : Latched) : List Span :=
  if l.op = opEncode ∨ l.op = opDecode then [l.inSpan, l.outSpan] else []

/-- The ranges whose bytes the host cannot rely on while the command runs, and that a reset leaves
unspecified: the output range, and the input range of an ENCODE that dithers (R92, R372). A byte of the output range
counts also where it is one of an input range that is only read: after a reset by R372's words, and for a host
read by the model's choice (log entry 4, DESIGN CHOICE, safe). -/
def Latched.looseSpans (l : Latched) : List Span :=
  if l.op = opEncode then (if l.dither then [l.inSpan, l.outSpan] else [l.outSpan])
  else if l.op = opDecode then [l.outSpan] else []

/-- A depth code the core supports (R150). -/
def depthOk (d : Nat) : Bool := Config.depths.contains d

/-- Bytes per sample (R150). -/
def bps (d : Nat) : Nat := d / 8

/-- The number of samples per channel (R152). -/
def sampleCount (len c d : Nat) : Nat := len / (c * bps d)

/-- UNSUPPORTED sub 0: the depth code (R338). -/
def errDepth (d : Nat) : Err := ⟨.unsupported, 0, d, noChan, 0⟩

/-- UNSUPPORTED sub 1: channel count 0 (R338). -/
def errNoChannels : Err := ⟨.unsupported, 1, 0, noChan, 0⟩

/-- CONFIG with its sub-cause (R339). -/
def errConfig (sub : Nat) : Err := ⟨.config, sub, 0, noChan, 0⟩

/-- OVERFLOW, which reports the size needed (R303, R276, R333). -/
def errOverflow (need : Nat) : Err := ⟨.overflow, 0, 0, noChan, need⟩

/-- ILLEGAL_CMD, which reports the opcode (R305). -/
def errIllegal (op : Byte) : Err := ⟨.illegalCmd, 0, op.toNat, noChan, 0⟩

/-- The two range checks that ENCODE and DECODE share (R339 sub 1, then sub 2). -/
def rangeCheck (l : Latched) : Option Err :=
  if l.inSpan.wraps || l.outSpan.wraps then some (errConfig 1)
  else if l.inSpan.overlaps l.outSpan then some (errConfig 2)
  else none

/-- ENCODE's configuration checks in order (R335 steps 1 to 5). -/
def encodeCheck (l : Latched) : Option Err :=
  let d := l.depth.toNat
  let c := l.channels.toNat
  if !depthOk d then some (errDepth d)
  else if c = 0 then some errNoChannels
  else if l.srcLen.toNat % (c * bps d) ≠ 0 then some (errConfig 0)
  else rangeCheck l

end Sys2Proof.Machine
end

