-- ==== Sys2Proof/Machine/Ops.lean ====
section
/-! DEFINITION. The named operations over memory and registers: reading, writing and leaving unspecified a
range of memory (`20_memory.md` R80 to R87), little-endian numbers (`00_scope.md` R11, R13), the register
map (`10_state.md` R34), acceptance and completion (`47_commands.md` R300, R301), raising an error
(`60_exceptions.md` R333) with the acknowledgement that is the return from it (R350), and reset (R371,
R372). -/

namespace Sys2Proof.Machine

/-! ### Numbers and bytes -/

/-- `ceil_div` (R10). -/
def ceilDiv (a b : Nat) : Nat := (a + b - 1) / b

/-- The signed integer of an N-bit pattern, `sext_N` (R11). -/
def sext (n : Nat) (v : Int) : Int :=
  let p := v % (2 : Int) ^ n
  if (2 : Int) ^ (n - 1) ≤ p then p - (2 : Int) ^ n else p

/-- `trunc16`: keep PRED_W bits, read as signed (R11). -/
def trunc16 (v : Int) : Int := sext Config.predW v

/-- `bitlen` (R11). -/
def bitlen (u : Nat) : Nat := if u = 0 then 0 else Nat.log2 u + 1

/-- The unsigned integer of bytes in memory order (R13, R82). -/
def leNat : List Byte → Nat
  | [] => 0
  | b :: bs => b.toNat + 256 * leNat bs

/-- `le_w`: the low `w` bytes of a number in memory order (R270, R82). -/
def leBytes : Nat → Nat → List Byte
  | 0, _ => []
  | w + 1, v => BitVec.ofNat 8 v :: leBytes w (v / 256)

/-! ### Memory -/

/-- The byte listed at an address. -/
def findCell : List Host.Cell → Nat → Option Byte
  | [], _ => none
  | c :: cs, a => if c.1 = a then some c.2 else findCell cs a

/-- The unspecified range that holds an address. -/
def findSpan : List FreeSpan → Nat → Option FreeSpan
  | [], _ => none
  | f :: fs, a => if f.lo ≤ a ∧ a < f.hi then some f else findSpan fs a

/-- What an address that lists no byte reads as: what the draw of its unspecified range left there, else
what the platform left at power-on. Neither is a number the model picks. -/
def unlisted (m : Memory) (a : Nat) : Byte :=
  match findSpan m.free a with
  | some f => Config.freeByte f.draw a
  | none => Config.powerOnByte a

/-- The byte at an address (R80). -/
def Memory.read (m : Memory) (a : Nat) : Byte :=
  match findCell m.cells a with
  | some b => b
  | none => unlisted m a

/-- `MemReadBytes` (R13). -/
def Memory.readBytes (m : Memory) (a : Nat) : Nat → List Byte
  | 0 => []
  | n + 1 => m.read a :: m.readBytes (a + 1) n

/-- `MemRead` (R13). -/
def Memory.readNat (m : Memory) (a n : Nat) : Nat := leNat (m.readBytes a n)

/-- Bytes as cells at consecutive addresses. -/
def cellsAt : Nat → List Byte → List Host.Cell
  | _, [] => []
  | a, b :: bs => (a, b) :: cellsAt (a + 1) bs

/-- The cells outside `[lo, hi)`, below it and above it. -/
def cellsBelow (cs : List Host.Cell) (lo : Nat) : List Host.Cell := cs.filter (fun c => decide (c.1 < lo))
/-- The cells at or above an address. -/
def cellsFrom (cs : List Host.Cell) (hi : Nat) : List Host.Cell := cs.filter (fun c => decide (hi ≤ c.1))

/-- Write bytes at consecutive addresses (`MemWrite` of R13, byte by byte). -/
def Memory.writeBytes (m : Memory) (a : Nat) (bs : List Byte) : Memory :=
  { m with cells := cellsBelow m.cells a ++ (cellsAt a bs ++ cellsFrom m.cells (a + bs.length)) }

/-- What is left of an unspecified range outside `[lo, hi)`. -/
def FreeSpan.cut (lo hi : Nat) (f : FreeSpan) : List FreeSpan :=
  (if f.lo < min f.hi lo then [{ f with hi := min f.hi lo }] else []) ++
  (if max f.lo hi < f.hi then [{ f with lo := max f.lo hi }] else [])

/-- Every byte of a range comes to hold any value, that of draw `d` (R333, R340, R372). Addresses past the
end of the space do not exist (log entry 22, DEDUCED, unsafe). -/
def Memory.havoc (m : Memory) (sp : Span) (d : Nat) : Memory :=
  let hi := min (sp.lo + sp.len) Config.addrTop
  if sp.lo < hi then
    { cells := cellsBelow m.cells sp.lo ++ cellsFrom m.cells hi
      free := ⟨sp.lo, hi, d⟩ :: m.free.flatMap (FreeSpan.cut sp.lo hi) }
  else m

/-- The order of two unspecified ranges: the newer draw first, the pieces of one draw by address and
apart, and no two ranges sharing a byte. -/
abbrev FreeSpan.before (x y : FreeSpan) : Prop :=
  (y.draw < x.draw ∨ (x.draw = y.draw ∧ x.hi < y.lo)) ∧ (x.hi ≤ y.lo ∨ y.hi ≤ x.lo)

/-- The canonical form: listed addresses strictly rise and exist; unspecified ranges hold a byte, exist,
and stand in their order. An unlisted address reads as no fixed byte, so no entry can equal it. -/
abbrev Memory.wf (m : Memory) : Prop :=
  m.cells.Pairwise (fun x y => x.1 < y.1) ∧ (∀ c ∈ m.cells, c.1 < Config.addrTop) ∧
  m.free.Pairwise FreeSpan.before ∧ (∀ f ∈ m.free, f.lo < f.hi ∧ f.hi ≤ Config.addrTop)

/-! ### Registers -/

/-- The names of the register map (R34). -/
inductive Reg where
  | id | param | ctrl | cmd | status | errCode | errInfo
  | srcAddr | srcLen | dstAddr | dstCap | sampleRate | depth | channels
  | outLen | inUsed | resRate | resDepth | resChannels | resSamples
deriving DecidableEq, Repr

/-- The register at a byte offset; offsets 0x50 to 0xFC are reserved (R34, R54). -/
def regAt (off : Nat) : Option Reg :=
  match off with
  | 0x00 => some .id
  | 0x04 => some .param
  | 0x08 => some .ctrl
  | 0x0C => some .cmd
  | 0x10 => some .status
  | 0x14 => some .errCode
  | 0x18 => some .errInfo
  | 0x1C => some .srcAddr
  | 0x20 => some .srcLen
  | 0x24 => some .dstAddr
  | 0x28 => some .dstCap
  | 0x2C => some .sampleRate
  | 0x30 => some .depth
  | 0x34 => some .channels
  | 0x38 => some .outLen
  | 0x3C => some .inUsed
  | 0x40 => some .resRate
  | 0x44 => some .resDepth
  | 0x48 => some .resChannels
  | 0x4C => some .resSamples
  | _ => none

/-- ID's constant (R35). -/
def idWord : Word := 0x46415353#32

/-- PARAM: LOG2_BLOCK, MIN_RUN, DITHER_TH, PRED_W from the low byte up (R36). -/
def paramWord : Word :=
  BitVec.ofNat 32 (Config.log2Block + 0x100 * Config.minRun + 0x10000 * Config.ditherTh +
    0x1000000 * Config.predW)

/-- The value a read of a register returns (R34 to R49). -/
def readReg (s : State) : Reg → Word
  | .id => idWord
  | .param => paramWord
  | .ctrl => ctrlWord s.regs
  | .cmd => 0#32
  | .status => statusWord s.regs s.phase
  | .errCode => s.regs.errCode
  | .errInfo => s.regs.errInfo
  | .srcAddr => s.regs.srcAddr
  | .srcLen => s.regs.srcLen
  | .dstAddr => s.regs.dstAddr
  | .dstCap => s.regs.dstCap
  | .sampleRate => s.regs.sampleRate
  | .depth => s.regs.depth.setWidth 32
  | .channels => s.regs.channels.setWidth 32
  | .outLen => s.regs.outLen
  | .inUsed => s.regs.inUsed
  | .resRate => s.regs.resRate
  | .resDepth => s.regs.resDepth.setWidth 32
  | .resChannels => s.regs.resChannels.setWidth 32
  | .resSamples => s.regs.resSamples

/-- Acceptance of a command word by an idle engine (R300). -/
def accept (w : Word) (s : State) : State :=
  { s with regs := s.regs.clearForAccept, phase := .busy (latch s.regs w) none }

/-- A write to a busy-locked register: ignored with IGN set while BUSY, else the update (R53). -/
def lockedWrite (f : Regs → Regs) (s : State) : State :=
  match s.phase with
  | .busy _ _ => { s with regs := s.regs.setIgn }
  | .idle => { s with regs := f s.regs }

/-- A write to CMD: acceptance while idle, ignored with IGN set while BUSY (R38, R53). -/
def cmdWrite (w : Word) (s : State) : State :=
  match s.phase with
  | .busy _ _ => { s with regs := s.regs.setIgn }
  | .idle => accept w s

/-- A write to a register: read-only registers ignore it without IGN (R34, R53, R54). -/
def writeReg (s : State) (v : Word) : Reg → State
  | .id => s
  | .param => s
  | .ctrl => { s with regs := s.regs.writeCtrl v }
  | .cmd => cmdWrite v s
  | .status => { s with regs := s.regs.clearStatus v }
  | .errCode => s
  | .errInfo => s
  | .srcAddr => lockedWrite (fun r => { r with srcAddr := v }) s
  | .srcLen => lockedWrite (fun r => { r with srcLen := v }) s
  | .dstAddr => lockedWrite (fun r => { r with dstAddr := v }) s
  | .dstCap => lockedWrite (fun r => { r with dstCap := v }) s
  | .sampleRate => lockedWrite (fun r => { r with sampleRate := v }) s
  | .depth => lockedWrite (fun r => { r with depth := v.setWidth 8 }) s
  | .channels => lockedWrite (fun r => { r with channels := v.setWidth 16 }) s
  | .outLen => s
  | .inUsed => s
  | .resRate => s
  | .resDepth => s
  | .resChannels => s
  | .resSamples => s

/-! ### Completion, errors, acknowledgement -/

/-- ERR_CODE.CODE of each error (R332). -/
def ErrCode.toNat : ErrCode → Nat
  | .format => 1
  | .range => 2
  | .unsupported => 3
  | .truncated => 4
  | .inconsistent => 5
  | .overflow => 6
  | .config => 7
  | .illegalCmd => 8
  | .bus => 9

/-- The ERR_CODE word: CHAN [31:16], SUB [15:8], CODE [7:0] (R40, R333). -/
def errWord (e : Err) : Word :=
  BitVec.ofNat 16 e.chan ++ BitVec.ofNat 8 e.sub ++ BitVec.ofNat 8 e.code.toNat

/-- OUT_LEN after an error: the needed size saturated at 2^32 - 1 for OVERFLOW, else 0 (R47, R333). -/
def errOutLen (e : Err) : Word :=
  if e.code = .overflow then BitVec.ofNat 32 (min e.need (2 ^ 32 - 1)) else 0#32

/-- The registers after a command ended with an error (R333). -/
def Regs.recordErr (r : Regs) (e : Err) : Regs :=
  { r.flagErr with
    errCode := errWord e
    errInfo := BitVec.ofNat 32 e.info
    outLen := errOutLen e
    inUsed := 0#32
    resRate := 0#32
    resDepth := 0#8
    resChannels := 0#16
    resSamples := 0#32 }

/-- Raising an error: the one way a command ends with one (R330, R333). Nothing is trapped; the error is
recorded, DONE and ERR are set, and the engine is idle. -/
def raise (e : Err) (s : State) : State := { s with regs := s.regs.recordErr e, phase := .idle }

/-- The return from an error: the host's acknowledgement, a write of 1 to DONE and ERR. The error registers
keep their values (R350, R128). -/
def acknowledge (s : State) : State := writeReg s 0x00000006#32 .status

/-- The result registers after a successful ENCODE or DECODE (R47 to R49). -/
def Regs.recordResults (r : Regs) (v : Results) : Regs :=
  { r with
    outLen := BitVec.ofNat 32 v.outLen
    inUsed := BitVec.ofNat 32 v.inUsed
    resRate := BitVec.ofNat 32 v.rate
    resDepth := BitVec.ofNat 8 v.depth
    resChannels := BitVec.ofNat 16 v.channels
    resSamples := BitVec.ofNat 32 v.samples }

/-- Completion without error that leaves the result registers (NOP: R301, R302). -/
def finish (s : State) : State := { s with regs := s.regs.flagOk, phase := .idle }

/-- Completion without error that writes the result registers (R301). -/
def finishWith (v : Results) (s : State) : State :=
  { s with regs := s.regs.flagOk.recordResults v, phase := .idle }

/-- What a command that may use memory does: the memory it leaves when it ends well, the ranges it reads
and those it may write, how many channels it knows of, and its result. -/
structure Effect where
  mem : Memory
  reads : List Span
  writes : List Span
  channels : Nat
  result : Except Err Results

/-- Whether one of the platform's bad ranges meets one of the given ranges. -/
def hits (bad : List Span) (used : List Span) : Bool := used.any (fun u => bad.any (fun b => b.overlaps u))

/-- The BUS error of draw `d`: which access is reported, its channel and ERR_INFO are open (R97, R334,
R340); a channel is one the command has, else none (R40). -/
def busErr (bad : List Span) (f : Effect) (d : Nat) : Err where
  code := .bus
  sub := if hits bad f.writes && (!hits bad f.reads || Config.busOnWrite d) then 1 else 0
  info := (Config.freeInfo d).toNat
  chan := if Config.freeChan d < f.channels then Config.freeChan d else noChan

/-- Completion of a command that reaches memory (R301, R333, R340): a bus error may replace its outcome
and then leaves both ranges unspecified; any other error leaves the output range unspecified. -/
def settle (l : Latched) (f : Effect) (s : State) : State :=
  let d := s.draws
  let bad := s.platform.busFaults
  if (hits bad f.reads || hits bad f.writes) && Config.busReported d then
    raise (busErr bad f d)
      { s with mem := (s.mem.havoc l.inSpan d).havoc l.outSpan (d + 1), draws := d + 2 }
  else
    match f.result with
    | .ok v => finishWith v { s with mem := f.mem, draws := d + 2 }
    | .error e => raise e { s with mem := f.mem.havoc l.outSpan (d + 1), draws := d + 2 }

/-! ### Reset -/

/-- Each range unspecified, each by a draw of its own. -/
def Memory.havocAll (m : Memory) (d : Nat) : List Span → Memory
  | [] => m
  | sp :: rest => (m.havoc sp d).havocAll (d + 1) rest

/-- The memory a reset leaves: as it was, but for the ranges an abandoned command was free to change
(R371, R372). -/
def resetMemory (s : State) : Memory :=
  match s.phase with
  | .idle => s.mem
  | .busy l _ => s.mem.havocAll s.draws l.looseSpans

/-- The reset event (R370 to R372): registers and phase at their reset values, a running command
abandoned. -/
def resetCore (s : State) : State :=
  { s with regs := Regs.reset, phase := .idle, mem := resetMemory s, draws := s.draws + 2 }

end Sys2Proof.Machine
end

