-- ==== Sys2Proof/Machine/Bus.lean ====
section
/-! DEFINITION. The host's accesses (`30_encoding.md` R127): the register block over the bus (`10_state.md`
R32, R33, R53, R54, `70_reset_and_hazards.md` R370) and the shared memory (`20_memory.md` R80, R91, R92),
and the reset input. -/

namespace Sys2Proof.Machine

/-- The byte offset of a bus address from REG_BASE (R32), for any 32-bit REG_BASE. DESIGN CHOICE (log entry 8,
unsafe): the spec gives REG_BASE no alignment and no distance from the top of the address space; a block that
begins less than 256 bytes below the top goes on at address 0, and R33's alignment is that of the offset. -/
def regOffset (s : State) (addr : Word) : Nat := (addr - s.platform.regBase).toNat

/-- The host writes a word at an offset of the block: ignored while reset is asserted (R370) and at a
reserved offset (R54). -/
def offsetWrite (s : State) (off : Nat) (v : Word) : State :=
  if s.inReset then s
  else
    match regAt off with
    | some r => writeReg s v r
    | none => s

/-- What a word read at an offset returns: 0 while reset is asserted (R370) and at a reserved offset (R54). -/
def offsetRead (s : State) (off : Nat) : Word :=
  if s.inReset then 0#32
  else
    match regAt off with
    | some r => readReg s r
    | none => 0#32

/-- The bytes of a bus access. -/
def sizeBytes : AccessSize → Nat
  | .byte => 1
  | .half => 2
  | .word => 4
  | .double => 8

/-- A bus access meets the 256-byte block: it begins in it, or begins below it and runs into it (R32). -/
def meetsBlock (s : State) (addr : Word) (size : AccessSize) : Bool :=
  decide (regOffset s addr < 256) || decide (Config.addrTop < regOffset s addr + sizeBytes size)

/-- A host write over the bus. An access that meets no byte of the block is not this core's (log entry 8);
any other must be an aligned 32-bit access (R33). -/
def busWrite (addr : Word) (size : AccessSize) (v : Word) (s : State) : Host.Outcome State Fault Refusal :=
  if !meetsBlock s addr size then .next s
  else if size ≠ .word ∨ regOffset s addr % 4 ≠ 0 then .refused (.registerAccess addr size)
  else .next (offsetWrite s (regOffset s addr) v)

/-- A host read over the bus; an access that meets no byte of the block gets no answer from this core. -/
def busRead (addr : Word) (size : AccessSize) (s : State) : Host.Outcome State Fault Refusal :=
  if !meetsBlock s addr size then .next { s with response := .none }
  else if size ≠ .word ∨ regOffset s addr % 4 ≠ 0 then .refused (.registerAccess addr size)
  else .next { s with response := .reg (offsetRead s (regOffset s addr)) }

/-- The ranges the running command owns, none while idle (R91). -/
def ownedSpans (s : State) : List Span :=
  match s.phase with
  | .idle => []
  | .busy l _ => l.spans

/-- The ranges whose bytes a host read cannot rely on, none while idle (R92). -/
def looseSpans (s : State) : List Span :=
  match s.phase with
  | .idle => []
  | .busy l _ => l.looseSpans

/-- The host writes bytes to memory: outside the address space there is nothing, so it faults (R80; log entry 12,
DEDUCED, safe); inside a range of the running command a model refuses (R91). DESIGN CHOICE (log entries 11 and 12,
safe): a write that does both faults, for the address space is checked first. -/
def hostMemWrite (addr : Word) (bytes : List Byte) (s : State) : Host.Outcome State Fault Refusal :=
  if Config.addrTop < addr.toNat + bytes.length then .fault (.noSuchAddress (addr.toNat + bytes.length - 1))
  else if (ownedSpans s).any (fun o => o.overlaps ⟨addr.toNat, bytes.length⟩) then
    .refused (.busyRangeWrite addr)
  else .next { s with mem := s.mem.writeBytes addr.toNat bytes }

/-- One byte as the host reads it: in a range it cannot rely on, any value, drawn for this read (R92). DESIGN CHOICE
(log entry 4, safe): where the ranges of a command that does not write its input overlap, R92 calls a byte of both
unspecified as output and current as input; it is any value here, the current one among them. -/
def hostByte (s : State) (a : Nat) : Byte :=
  if (looseSpans s).any (fun o => o.has a) then Config.freeByte s.draws a else s.mem.read a

/-- Bytes at consecutive addresses as the host reads them. -/
def hostBytes (s : State) (a : Nat) : Nat → List Byte
  | 0 => []
  | n + 1 => hostByte s a :: hostBytes s (a + 1) n

/-- The host reads bytes of memory (R80, R92). Each read takes a draw of its own. -/
def hostMemRead (addr : Word) (len : Nat) (s : State) : Host.Outcome State Fault Refusal :=
  if Config.addrTop < addr.toNat + len then .fault (.noSuchAddress (addr.toNat + len - 1))
  else .next { s with response := .mem (hostBytes s addr.toNat len), draws := s.draws + 1 }

/-- Reset is asserted: the reset event takes place, and the core stays in reset (R370; log entry 14). -/
def assertReset (s : State) : State := { resetCore s with inReset := true }

/-- Reset is released (R370). -/
def releaseReset (s : State) : State := { s with inReset := false }

end Sys2Proof.Machine
end

