-- ==== Sys2Proof/Machine/Sample.lean ====
section
/-! DEFINITION. Sample access: the engine's loads and stores of samples in the interleaved PCM buffer
(`40_sample_access.md` R150 to R155). -/

namespace Sys2Proof.Machine

/-- Where a PCM buffer lies and how it is laid out: its base, channel count and depth. -/
structure Layout where
  base : Nat
  channels : Nat
  depth : Nat
deriving DecidableEq, Repr

/-- The address of sample `s` of channel `c` (R151). -/
def Layout.addr (y : Layout) (s c : Nat) : Nat := y.base + (s * y.channels + c) * bps y.depth

/-- `ReadSample` (R153), by its little-endian pseudocode and not by its depth 24 corner case (log entry 23,
DEDUCED, unsafe). -/
def readSample (m : Memory) (y : Layout) (s c : Nat) : Int :=
  sext y.depth (m.readNat (y.addr s c) (bps y.depth))

/-- A value in the depth's signed range (R150, R154). -/
def sampleFits (d : Nat) (v : Int) : Bool :=
  decide (-(2 : Int) ^ (d - 1) ≤ v) && decide (v < (2 : Int) ^ (d - 1))

/-- The bytes of a sample: two's complement, little-endian (R154). -/
def sampleBytes (d : Nat) (v : Int) : List Byte := leBytes (bps d) (v % (2 : Int) ^ d).toNat

/-- The memory effect of `WriteSample` for a value in range (R154). -/
def storeSample (m : Memory) (y : Layout) (s c : Nat) (v : Int) : Memory :=
  m.writeBytes (y.addr s c) (sampleBytes y.depth v)

/-- RANGE at sample index `s` of channel `c` (R154). -/
def errRange (s c : Nat) : Err := ⟨.range, 0, s, c, 0⟩

/-- `WriteSample` (R154): RANGE, with nothing written, when the value does not fit the depth. -/
def writeSample (m : Memory) (y : Layout) (s c : Nat) (v : Int) : Except Err Memory :=
  if sampleFits y.depth v then .ok (storeSample m y s c v) else .error (errRange s c)

/-- `ReadChannel` of `n` samples from index `s` on (R155). -/
def readChannelFrom (m : Memory) (y : Layout) (c s : Nat) : Nat → List Int
  | 0 => []
  | n + 1 => readSample m y s c :: readChannelFrom m y c (s + 1) n

/-- `ReadChannel` (R155). -/
def readChannel (m : Memory) (y : Layout) (n c : Nat) : List Int := readChannelFrom m y c 0 n

/-- Every channel of a buffer, in channel order (R303). -/
def readChannels (m : Memory) (y : Layout) (n : Nat) : List (List Int) :=
  (List.range y.channels).map (readChannel m y n)

/-- The first index, from `s` on, whose value does not fit the depth (R281). -/
def firstMisfit (d s : Nat) : List Int → Option Nat
  | [] => none
  | v :: vs => if sampleFits d v then firstMisfit d (s + 1) vs else some s

/-- The stores of `WriteChannel` for values that fit, from index `s` on (R281). -/
def storeChannel (m : Memory) (y : Layout) (c s : Nat) : List Int → Memory
  | [] => m
  | v :: vs => storeChannel (storeSample m y s c v) y c (s + 1) vs

/-- The stores of every channel in turn, from channel `c` on (R276, R281). -/
def storeChannels (m : Memory) (y : Layout) (c : Nat) : List (List Int) → Memory
  | [] => m
  | x :: xs => storeChannels (storeChannel m y c 0 x) y (c + 1) xs

end Sys2Proof.Machine
end

