-- ==== Sys2Proof/Machine/Dither.lean ====
section
/-! DEFINITION. The dither filter (`41_dither.md` R170 to R172). -/

namespace Sys2Proof.Machine

/-- Near-silent: magnitude below DITHER_TH (R170). -/
def nearSilent (v : Int) : Bool := decide (v.natAbs < Config.ditherTh)

/-- The interior rule from a sample on, given its left neighbour as the pass left it; the last sample is
never written (R170). -/
def ditherFrom (left : Int) : List Int → List Int
  | cur :: right :: rest =>
    let cur' := if cur ≠ 0 ∧ nearSilent left ∧ nearSilent cur ∧ nearSilent right then 0 else cur
    cur' :: ditherFrom cur' (right :: rest)
  | xs => xs

/-- `DitherChannel` (R170): the first-two rule, then the interior samples in index order. -/
def ditherChannel : List Int → List Int
  | x0 :: x1 :: rest =>
    let x0' := if nearSilent x0 ∧ nearSilent x1 then 0 else x0
    x0' :: ditherFrom x0' (x1 :: rest)
  | xs => xs

/-- The write-back of one channel: each sample the filter changed is stored, no other (R172). -/
def ditherStore (m : Memory) (y : Layout) (c s : Nat) : List Int → List Int → Memory
  | a :: as, b :: bs => ditherStore (if a = b then m else storeSample m y s c b) y c (s + 1) as bs
  | _, _ => m

/-- The write-back of every channel, from channel `c` on (R171, R172). -/
def ditherStoreAll (m : Memory) (y : Layout) (c : Nat) : List (List Int) → List (List Int) → Memory
  | a :: as, b :: bs => ditherStoreAll (ditherStore m y c 0 a b) y (c + 1) as bs
  | _, _ => m

/-- The ranges of the samples of one channel that the filter changed. -/
def changedSpans (y : Layout) (c s : Nat) : List Int → List Int → List Span
  | a :: as, b :: bs =>
    if a = b then changedSpans y c (s + 1) as bs
    else ⟨y.addr s c, bps y.depth⟩ :: changedSpans y c (s + 1) as bs
  | _, _ => []

/-- The ranges of the samples of all channels that the filter changed. -/
def changedSpansAll (y : Layout) (c : Nat) : List (List Int) → List (List Int) → List Span
  | a :: as, b :: bs => changedSpans y c 0 a b ++ changedSpansAll y (c + 1) as bs
  | _, _ => []

end Sys2Proof.Machine
end

