-- ==== Sys2Proof/Machine/Predictor.lean ====
section
/-! DEFINITION. The second-order predictor (`42_predictor.md` R180, R181, R184). -/

namespace Sys2Proof.Machine

/-- The prediction from the two samples before, exact (R180). -/
def predict (older newer : Int) : Int := 2 * newer - older

/-- Residuals from index 2 on, given the two samples before (R180). -/
def predEncFrom (older newer : Int) : List Int → List Int
  | [] => []
  | x :: xs => trunc16 (x - predict older newer) :: predEncFrom newer x xs

/-- `PredEnc` (R180). -/
def predEnc : List Int → List Int
  | x0 :: x1 :: rest => x0 :: x1 :: predEncFrom x0 x1 rest
  | xs => xs

/-- Reconstruction from index 2 on, given the two reconstructed samples before (R181). -/
def predDecFrom (older newer : Int) : List Int → List Int
  | [] => []
  | r :: rs =>
    let y := trunc16 (predict older newer + r)
    y :: predDecFrom newer y rs

/-- `PredDec` (R181). -/
def predDec : List Int → List Int
  | r0 :: r1 :: rest => r0 :: r1 :: predDecFrom r0 r1 rest
  | rs => rs

end Sys2Proof.Machine
end

