-- ==== Sys2Proof/Machine/BitPack.lean ====
section
/-! DEFINITION. The bit packer and the bit reader over the container input (`45_bitpack.md` R250 to R252). -/

namespace Sys2Proof.Machine

/-- The packer with `k` bits already gathered in `acc`, first bit highest (R250). -/
def packFrom (k acc : Nat) : List Bool → List Byte
  | [] => if k = 0 then [] else [BitVec.ofNat 8 (acc * 2 ^ (8 - k))]
  | b :: bs =>
    if k = 7 then BitVec.ofNat 8 (2 * acc + b.toNat) :: packFrom 0 0 bs
    else packFrom (k + 1) (2 * acc + b.toNat) bs

/-- `Pack` (R250): most significant bit first, the final byte padded with zeros. -/
def pack (bits : List Bool) : List Byte := packFrom 0 0 bits

/-- The container input a DECODE reads: the memory, L.src and L.srclen (R277). -/
structure Source where
  mem : Memory
  base : Nat
  len : Nat
deriving DecidableEq, Repr

/-- The byte at a position relative to L.src. -/
def Source.byte (e : Source) (p : Nat) : Byte := e.mem.read (e.base + p)

/-- TRUNCATED with its sub-cause, offset and channel (R332, R334). -/
def errTruncated (sub info c : Nat) : Err := ⟨.truncated, sub, info, c, 0⟩

/-- `R.ReadBit` at bit `t` of a reader created at `p0`; the caller goes on at `t + 1` (R251). -/
def readBit (e : Source) (c p0 t : Nat) : Except Err Bool :=
  if e.len ≤ p0 + t / 8 then .error (errTruncated 2 e.len c)
  else .ok ((e.byte (p0 + t / 8)).getLsbD (7 - t % 8))

/-- How many bits the reader has left in the input range. -/
def bitsLeft (e : Source) (p0 t : Nat) : Nat := 8 * (e.len - p0) - t

end Sys2Proof.Machine
end

