-- ==== Sys2Proof/Machine/ZeroRun.lean ====
section
/-! DEFINITION. The zero-run detector and its inverse (`43_zero_run.md` R200 to R203). -/

namespace Sys2Proof.Machine

/-- What `Flush` emits for a run of `run` zeros that began at `start` (R200, R201). -/
def flushRun (run start : Nat) : List Int × List Run :=
  if Config.minRun ≤ run then ([], [⟨start, run⟩]) else (List.replicate run 0, [])

/-- The scan of `ZreEnc` from index `i` on, inside a run of `run` zeros that began at `start` (R200). -/
def zreScan (i run start : Nat) : List Int → List Int × List Run
  | [] => flushRun run start
  | r :: rs =>
    if r = 0 then zreScan (i + 1) (run + 1) (if run = 0 then i else start) rs
    else
      let f := flushRun run start
      let t := zreScan (i + 1) 0 start rs
      (f.1 ++ r :: t.1, f.2 ++ t.2)

/-- `ZreEnc` (R200): the compacted sequence and the descriptors. -/
def zreEnc (r : List Int) : List Int × List Run := zreScan 0 0 0 r

/-- INCONSISTENT with its sub-cause, index and channel (R332, R334). -/
def errInconsistent (sub info c : Nat) : Err := ⟨.inconsistent, sub, info, c, 0⟩

/-- `ZreDec` from descriptor `j` on, with `len` values out and `q` not yet used (R203). -/
def zreFill (c n j len : Nat) (q : List Int) : List Run → Except Err (List Int)
  | [] => if len + q.length ≠ n then .error (errInconsistent 4 j c) else .ok q
  | d :: ds =>
    if d.start < len then .error (errInconsistent 2 j c)
    else if q.length < d.start - len then .error (errInconsistent 3 j c)
    else if n < d.start + d.len then .error (errInconsistent 4 j c)
    else
      match zreFill c n (j + 1) (d.start + d.len) (q.drop (d.start - len)) ds with
      | .error e => .error e
      | .ok out => .ok (q.take (d.start - len) ++ (List.replicate d.len 0 ++ out))

/-- `ZreDec` (R203) for channel `c` and header sample count `n`. -/
def zreDec (c n : Nat) (q : List Int) (ds : List Run) : Except Err (List Int) := zreFill c n 0 0 q ds

end Sys2Proof.Machine
end

