-- ==== Sys2Proof/Machine/Rice.lean ====
section
/-! DEFINITION. The Rice coder: block partition, zig-zag map, parameter selector, bit emitter, and the
decoder (`44_rice.md` R220 to R227). Working values are 32-bit registers (R9, WORK_W). -/

namespace Sys2Proof.Machine

/-- `ZZ` (R221): shift left by one, exclusive-or the arithmetic shift right by ZZ_SHIFT. -/
def zigzag (v : Int) : Nat :=
  let w : Word := BitVec.ofInt 32 v
  ((w <<< 1) ^^^ w.sshiftRight Config.zzShift).toNat

/-- `UZ` (R222): logical shift right by one, exclusive-or minus the low bit, read as signed. -/
def unzigzag (z : Nat) : Int :=
  let w : Word := BitVec.ofNat 32 z
  ((w >>> 1) ^^^ (-(w &&& 1#32))).toInt

/-- `KSel` (R223): floor of log2 of the floored mean plus one. -/
def kSel (zs : List Nat) : Nat := bitlen (zs.sum / zs.length + 1) - 1

/-- The block count `P` of `n` values (R220). -/
def blockCount (n : Nat) : Nat := ceilDiv n Config.block

/-- Block `j` of the compacted sequence (R220). -/
def blockAt (q : List Int) (j : Nat) : List Int := (q.drop (Config.block * j)).take Config.block

/-- The blocks in order (R220). -/
def blocksOf (q : List Int) : List (List Int) := (List.range (blockCount q.length)).map (blockAt q)

/-- `msb_bits`: the low `k` bits of a number, most significant first (R12). -/
def msbBits (u : Nat) : Nat → List Bool
  | 0 => []
  | k + 1 => u.testBit k :: msbBits u k

/-- `Emit` (R121, R224): the quotient in unary, then the remainder in `k` bits. -/
def emit (k z : Nat) : List Bool := List.replicate (z >>> k) true ++ false :: msbBits (z % 2 ^ k) k

/-- The parameter of one block (R225). -/
def blockParam (b : List Int) : Nat := kSel (b.map zigzag)

/-- The bits of one block under its parameter (R225). -/
def blockBits (b : List Int) : List Bool := (b.map zigzag).flatMap (emit (blockParam b))

/-- `RiceEnc`'s parameter list (R225). -/
def riceParams (q : List Int) : List Nat := (blocksOf q).map blockParam

/-- `RiceEnc`'s bit string (R225). -/
def riceBits (q : List Int) : List Bool := (blocksOf q).flatMap blockBits

/-- The unary quotient: count one bits up to the 0 that ends them. `fuel` is more than the bits left, so
the input's end is met first (R227). Answers the quotient and the bit after the 0. -/
def readUnary (e : Source) (c p0 : Nat) : Nat → Nat → Nat → Except Err (Nat × Nat)
  | 0, _, _ => .error (errTruncated 2 e.len c)
  | fuel + 1, u, t =>
    match readBit e c p0 t with
    | .error x => .error x
    | .ok true => readUnary e c p0 fuel (u + 1) (t + 1)
    | .ok false => .ok (u, t + 1)

/-- `k` binary bits, most significant first, onto what is gathered (R227). -/
def readBinary (e : Source) (c p0 : Nat) : Nat → Nat → Nat → Except Err (Nat × Nat)
  | 0, r, t => .ok (r, t)
  | k + 1, r, t =>
    match readBit e c p0 t with
    | .error x => .error x
    | .ok b => readBinary e c p0 k (2 * r + b.toNat) (t + 1)

/-- One codeword under parameter `k`: the value and the bit after it (R227). -/
def readValue (e : Source) (c p0 k t : Nat) : Except Err (Int × Nat) :=
  match readUnary e c p0 (bitsLeft e p0 t + 1) 0 t with
  | .error x => .error x
  | .ok (u, t1) =>
    match readBinary e c p0 k 0 t1 with
    | .error x => .error x
    | .ok (r, t2) => .ok (unzigzag ((u * 2 ^ k + r) % 2 ^ 32), t2)

/-- `m` codewords of one block (R227). -/
def readValues (e : Source) (c p0 k : Nat) : Nat → Nat → Except Err (List Int × Nat)
  | 0, t => .ok ([], t)
  | m + 1, t =>
    match readValue e c p0 k t with
    | .error x => .error x
    | .ok (v, t1) =>
      match readValues e c p0 k m t1 with
      | .error x => .error x
      | .ok (vs, t2) => .ok (v :: vs, t2)

/-- The blocks from block `j` on: all but the last hold BLOCK values (R227). -/
def readBlocks (e : Source) (c p0 n : Nat) : Nat → List Int → Nat → Except Err (List Int × Nat)
  | _, [], t => .ok ([], t)
  | j, k :: ks, t =>
    if k < 0 ∨ (Config.maxParam : Int) < k then .error (errInconsistent 1 j c)
    else
      let m := if ks.isEmpty then n - Config.block * j else Config.block
      match readValues e c p0 k.toNat m t with
      | .error x => .error x
      | .ok (vs, t1) =>
        match readBlocks e c p0 n (j + 1) ks t1 with
        | .error x => .error x
        | .ok (ws, t2) => .ok (vs ++ ws, t2)

/-- `RiceDec` (R227): the compacted sequence and the count of bits read. -/
def riceDec (e : Source) (c p0 n : Nat) (ks : List Int) : Except Err (List Int × Nat) :=
  if ks.length ≠ blockCount n then .error (errInconsistent 0 ks.length c)
  else readBlocks e c p0 n 0 ks 0

end Sys2Proof.Machine
end

