-- ==== Sys2Proof/Machine/Framer.lean ====
section
/-! DEFINITION. The container framer (`46_container.md` R270 to R275, `30_encoding.md` R115 to R120). -/

namespace Sys2Proof.Machine

/-- `Header` (R271). -/
def headerBytes (rate d n c : Nat) : List Byte :=
  tagBytes .ssaf ++ (leBytes 4 rate ++ (leBytes 1 d ++ (leBytes 4 n ++ leBytes 2 c)))

/-- `ChanChunk` (R272). -/
def chanChunk (n : Nat) : List Byte := tagBytes .chan ++ leBytes 4 n

/-- One descriptor's eight bytes (R118). -/
def runBytes (d : Run) : List Byte := leBytes 4 d.start ++ leBytes 4 d.len

/-- `ZreChunk` (R273). -/
def zreChunk (ds : List Run) : List Byte := tagBytes .zre ++ (leBytes 4 ds.length ++ ds.flatMap runBytes)

/-- `RiceChunk` (R274). -/
def riceChunk (ks : List Nat) : List Byte := tagBytes .rice ++ (leBytes 4 ks.length ++ ks.flatMap (leBytes 4))

/-- `DataChunk` (R275). -/
def dataChunk (bits : List Bool) : List Byte := tagBytes .data ++ pack bits

/-- The four chunks of one channel's samples (R270). -/
def channelBytes (x : List Int) : List Byte :=
  let z := zreEnc (predEnc x)
  chanChunk z.1.length ++ (zreChunk z.2 ++ (riceChunk (riceParams z.1) ++ dataChunk (riceBits z.1)))

/-- `ContainerEncode` (R270). -/
def containerBytes (xs : List (List Int)) (rate d c n : Nat) : List Byte :=
  headerBytes rate d n c ++ xs.flatMap channelBytes

end Sys2Proof.Machine
end

