-- ==== Sys2Proof/Machine/Parser.lean ====
section
/-! DEFINITION. The container parser (`46_container.md` R276 to R282), as a sequence of units: at each tag
the parser expects, then inside the chunk the tag opens. ContainerDecode is all the units in order. -/

namespace Sys2Proof.Machine

/-- The little-endian number at a position of the input. -/
def Source.nat (e : Source) (p w : Nat) : Nat := e.mem.readNat (e.base + p) w

/-- `Take` (R277): the number at `pos`, or TRUNCATED. The caller goes on at `pos + w`. -/
def takeNat (e : Source) (w sub c pos : Nat) : Except Err Nat :=
  if e.len < pos + w then .error (errTruncated sub pos c) else .ok (e.nat pos w)

/-- The word of the four bytes at a position, as the tag decoder reads it (R125). -/
def Source.word (e : Source) (p : Nat) : Word :=
  wordOfBytes (e.byte p) (e.byte (p + 1)) (e.byte (p + 2)) (e.byte (p + 3))

/-- FORMAT's sub-cause for each expected tag (R278). -/
def formatSub : Tag → Nat
  | .ssaf => 0
  | .chan => 1
  | .zre => 2
  | .rice => 3
  | .data => 4

/-- TRUNCATED's sub-cause for each expected tag: header or chunk (R277). -/
def truncSub : Tag → Nat
  | .ssaf => 0
  | .chan => 1
  | .zre => 1
  | .rice => 1
  | .data => 1

/-- The channel an error at an expected tag reports: none for the magic (R276, R278). -/
def tagErrChan (t : Tag) (c : Nat) : Nat :=
  match t with
  | .ssaf => noChan
  | .chan => c
  | .zre => c
  | .rice => c
  | .data => c

/-- FORMAT at an expected tag (R278, R334). -/
def errFormat (t : Tag) (p : Parse) : Err := ⟨.format, formatSub t, p.pos, tagErrChan t p.chan, 0⟩

/-- The parser at the start of its input (R276). -/
def Parse.start : Parse where
  pos := 0
  stage := .tag .ssaf
  rate := 0
  depth := 0
  samples := 0
  channels := 0
  chan := 0
  count := 0
  runs := []
  params := []
  pcm := []

/-- The parser past a tag it expected, or FORMAT where the tag met is another one (R278). -/
def meetTag (want seen : Tag) (p : Parse) : Except Err Parse :=
  if seen = want then .ok { p with pos := p.pos + 4, stage := .body want } else .error (errFormat want p)

/-- `ExpectTag` (R278): four bytes must be left, and be exactly the expected tag. -/
def expectTag (e : Source) (want : Tag) (p : Parse) : Except Err Parse :=
  if e.len < p.pos + 4 then .error (errTruncated (truncSub want) p.pos (tagErrChan want p.chan))
  else
    match decodeTag (e.word p.pos) with
    | .error _ => .error (errFormat want p)
    | .ok i =>
      match tagOf i with
      | none => .error (errFormat want p)
      | some seen => meetTag want seen p

/-- The header after its magic: rate, depth code, sample count, channel count, and their checks at once
(R276, R336); then the size check. -/
def readHeader (e : Source) (cap : Nat) (p : Parse) : Except Err Parse :=
  match takeNat e 4 0 noChan p.pos with
  | .error x => .error x
  | .ok rate =>
    match takeNat e 1 0 noChan (p.pos + 4) with
    | .error x => .error x
    | .ok d =>
      if !depthOk d then .error (errDepth d)
      else
        match takeNat e 4 0 noChan (p.pos + 5) with
        | .error x => .error x
        | .ok n =>
          match takeNat e 2 0 noChan (p.pos + 9) with
          | .error x => .error x
          | .ok c =>
            if c = 0 then .error errNoChannels
            else if cap < n * c * bps d then .error (errOverflow (n * c * bps d))
            else
              .ok { p with pos := p.pos + 11, stage := .tag .chan, rate := rate, depth := d,
                           samples := n, channels := c, chan := 0 }

/-- A channel chunk after its tag: the encoded-sample count (R276). -/
def readCount (e : Source) (p : Parse) : Except Err Parse :=
  match takeNat e 4 1 p.chan p.pos with
  | .error x => .error x
  | .ok n => .ok { p with pos := p.pos + 4, stage := .tag .zre, count := n }

/-- Descriptors, each offset before its length, with the position after them (R276). -/
def readRuns (e : Source) (c : Nat) : Nat → Nat → Except Err (List Run × Nat)
  | 0, pos => .ok ([], pos)
  | k + 1, pos =>
    match takeNat e 4 1 c pos with
    | .error x => .error x
    | .ok o =>
      match takeNat e 4 1 c (pos + 4) with
      | .error x => .error x
      | .ok n =>
        match readRuns e c k (pos + 8) with
        | .error x => .error x
        | .ok (ds, p) => .ok (⟨o, n⟩ :: ds, p)

/-- A zero-run chunk after its tag (R276). -/
def readZre (e : Source) (p : Parse) : Except Err Parse :=
  match takeNat e 4 1 p.chan p.pos with
  | .error x => .error x
  | .ok d =>
    match readRuns e p.chan d (p.pos + 4) with
    | .error x => .error x
    | .ok (ds, pos) => .ok { p with pos := pos, stage := .tag .rice, runs := ds }

/-- Rice parameters, each a signed 32-bit number, with the position after them (R276, R119). -/
def readParams (e : Source) (c : Nat) : Nat → Nat → Except Err (List Int × Nat)
  | 0, pos => .ok ([], pos)
  | k + 1, pos =>
    match takeNat e 4 1 c pos with
    | .error x => .error x
    | .ok v =>
      match readParams e c k (pos + 4) with
      | .error x => .error x
      | .ok (ks, p) => .ok (sext 32 v :: ks, p)

/-- A Rice chunk after its tag (R276). -/
def readRice (e : Source) (p : Parse) : Except Err Parse :=
  match takeNat e 4 1 p.chan p.pos with
  | .error x => .error x
  | .ok k =>
    match readParams e p.chan k (p.pos + 4) with
    | .error x => .error x
    | .ok (ks, pos) => .ok { p with pos := pos, stage := .tag .data, params := ks }

/-- What follows a channel's data chunk: the next channel's tag, or the end of the container (R276). -/
def nextStage (p : Parse) : ParseStage := if p.chan + 1 < p.channels then .tag .chan else .done

/-- A data chunk after its tag: the Rice decoder, the zero-run decoder, the predictor, and the range check
of the channel's writes, in this order (R276, R281, R336). -/
def readData (e : Source) (p : Parse) : Except Err Parse :=
  match riceDec e p.chan p.pos p.count p.params with
  | .error x => .error x
  | .ok (q, t) =>
    match zreDec p.chan p.samples q p.runs with
    | .error x => .error x
    | .ok r =>
      match firstMisfit p.depth 0 (predDec r) with
      | some s => .error (errRange s p.chan)
      | none =>
        .ok { p with pos := p.pos + ceilDiv t 8, stage := nextStage p, chan := p.chan + 1,
                     pcm := p.pcm ++ [predDec r] }

/-- One unit of the parser: a tag it expects, or what follows the tag (R276). -/
def parseUnit (e : Source) (cap : Nat) (p : Parse) : Except Err Parse :=
  match p.stage with
  | .tag want => expectTag e want p
  | .body .ssaf => readHeader e cap p
  | .body .chan => readCount e p
  | .body .zre => readZre e p
  | .body .rice => readRice e p
  | .body .data => readData e p
  | .done => .ok p

/-- A number of units in order; the first error ends them (R276). -/
def parseUnits (e : Source) (cap : Nat) : Nat → Parse → Except Err Parse
  | 0, p => .ok p
  | k + 1, p =>
    match parseUnit e cap p with
    | .error x => .error x
    | .ok p' => parseUnits e cap k p'

/-- The units of the header that are left. -/
def headerUnits (p : Parse) : Nat :=
  match p.stage with
  | .tag .ssaf => 2
  | .body .ssaf => 1
  | .tag _ => 0
  | .body _ => 0
  | .done => 0

/-- The units of the channels that are left: eight a channel. -/
def channelUnits (p : Parse) : Nat :=
  match p.stage with
  | .tag .ssaf => 0
  | .body .ssaf => 0
  | .tag .chan => 8 + 8 * (p.channels - p.chan - 1)
  | .body .chan => 7 + 8 * (p.channels - p.chan - 1)
  | .tag .zre => 6 + 8 * (p.channels - p.chan - 1)
  | .body .zre => 5 + 8 * (p.channels - p.chan - 1)
  | .tag .rice => 4 + 8 * (p.channels - p.chan - 1)
  | .body .rice => 3 + 8 * (p.channels - p.chan - 1)
  | .tag .data => 2 + 8 * (p.channels - p.chan - 1)
  | .body .data => 1 + 8 * (p.channels - p.chan - 1)
  | .done => 0

/-- The header, if the parser has not passed it. -/
def parseHeader (e : Source) (cap : Nat) (p : Parse) : Except Err Parse := parseUnits e cap (headerUnits p) p

/-- `ContainerDecode` from wherever the parser stands to the end (R276). -/
def parseAll (e : Source) (cap : Nat) (p : Parse) : Except Err Parse :=
  match parseHeader e cap p with
  | .error x => .error x
  | .ok p1 => parseUnits e cap (channelUnits p1) p1

/-- How many channels the parser knows of: the header's count once the header reads well. -/
def channelsKnown (e : Source) (cap : Nat) (p : Parse) : Nat :=
  match parseHeader e cap p with
  | .error _ => 0
  | .ok p1 => p1.channels

end Sys2Proof.Machine
end

