-- ==== Sys2Proof/Machine/Commands.lean ====
section
/-! DEFINITION. The commands NOP, ENCODE and DECODE and the illegal opcodes (`47_commands.md` R302 to R305):
what each does when the busy engine completes it (R301). -/

namespace Sys2Proof.Machine

/-- The engine performs a command only while BUSY; idle, it does nothing (R301, R349; log entry 17). -/
def whileBusy (s : State) (f : Latched → Option Parse → State) : Host.Outcome State Fault Refusal :=
  match s.phase with
  | .idle => .next s
  | .busy l work => .next (f l work)

/-- NOP completes without error and touches nothing else (R302). -/
def execNop (s : State) : Host.Outcome State Fault Refusal := whileBusy s (fun _ _ => finish s)

/-- An illegal opcode completes with ILLEGAL_CMD (R305). -/
def illegalCommand (l : Latched) (s : State) : State := raise (errIllegal l.op) s

/-- The layout of ENCODE's input buffer (R151, R303). -/
def Latched.layout (l : Latched) : Layout := ⟨l.src.toNat, l.channels.toNat, l.depth.toNat⟩

/-- S of an ENCODE (R152, R303). -/
def Latched.samples (l : Latched) : Nat := sampleCount l.srcLen.toNat l.channels.toNat l.depth.toNat

/-- The samples ENCODE reads (R303). -/
def encodeInput (l : Latched) (m : Memory) : List (List Int) := readChannels m l.layout l.samples

/-- The samples ENCODE encodes: dithered when L.dither is 1 (R171). -/
def encodeSamples (l : Latched) (m : Memory) : List (List Int) :=
  if l.dither then (encodeInput l m).map ditherChannel else encodeInput l m

/-- The container ENCODE builds (R303, R270). -/
def encodeContainer (l : Latched) (m : Memory) : List Byte :=
  containerBytes (encodeSamples l m) l.rate.toNat l.depth.toNat l.channels.toNat l.samples

/-- Memory after the dither write-back (R172): unchanged when L.dither is 0. -/
def encodeDithered (l : Latched) (m : Memory) : Memory :=
  ditherStoreAll m l.layout 0 (encodeInput l m) (encodeSamples l m)

/-- ENCODE's result registers (R303). -/
def encodeResults (l : Latched) (m : Memory) : Results where
  outLen := (encodeContainer l m).length
  inUsed := l.srcLen.toNat
  rate := l.rate.toNat
  depth := l.depth.toNat
  channels := l.channels.toNat
  samples := l.samples

/-- What ENCODE does once its configuration checks have passed (R303, R86). -/
def encodeEffect (l : Latched) (m : Memory) : Effect :=
  let changed := changedSpansAll l.layout 0 (encodeInput l m) (encodeSamples l m)
  let bytes := encodeContainer l m
  if l.cap.toNat < bytes.length then
    { mem := encodeDithered l m, reads := [l.inSpan], writes := changed ++ [l.outSpan],
      channels := l.channels.toNat, result := .error (errOverflow bytes.length) }
  else
    { mem := (encodeDithered l m).writeBytes l.dst.toNat bytes, reads := [l.inSpan],
      writes := changed ++ [⟨l.dst.toNat, bytes.length⟩], channels := l.channels.toNat,
      result := .ok (encodeResults l m) }

/-- ENCODE's completion: a failed configuration check changes no memory (R303, R333 (a), R335). -/
def completeEncode (l : Latched) (s : State) : State :=
  match encodeCheck l with
  | some e => raise e s
  | none => settle l (encodeEffect l s.mem) s

/-- ENCODE (R303). -/
def execEncode (s : State) : Host.Outcome State Fault Refusal := whileBusy s (fun l _ => completeEncode l s)

/-- The container input of a DECODE (R277). -/
def Latched.source (l : Latched) (m : Memory) : Source := ⟨m, l.src.toNat, l.srcLen.toNat⟩

/-- Where a DECODE's parser stands: at the start unless the run has shown progress (R56). -/
def parserAt (work : Option Parse) : Parse :=
  match work with
  | some p => p
  | none => Parse.start

/-- The layout of DECODE's output buffer (R151, R281). -/
def Parse.layout (p : Parse) (l : Latched) : Layout := ⟨l.dst.toNat, p.channels, p.depth⟩

/-- The number of PCM bytes a DECODE writes (R276, R304). -/
def Parse.outBytes (p : Parse) : Nat := p.samples * p.channels * bps p.depth

/-- DECODE's result registers (R304). -/
def Parse.results (p : Parse) : Results where
  outLen := p.outBytes
  inUsed := p.pos
  rate := p.rate
  depth := p.depth
  channels := p.channels
  samples := p.samples

/-- What DECODE does with the parser's outcome (R304, R86, R281): the samples are stored, or the error
raised; after an error the whole output range may have been written. -/
def decodeEffect (l : Latched) (m : Memory) (known : Nat) (r : Except Err Parse) : Effect :=
  match r with
  | .ok p =>
    { mem := storeChannels m (p.layout l) 0 p.pcm, reads := [l.inSpan],
      writes := [⟨l.dst.toNat, p.outBytes⟩], channels := known, result := .ok p.results }
  | .error e =>
    { mem := m, reads := [l.inSpan], writes := [l.outSpan], channels := known, result := .error e }

/-- DECODE's completion with the parser's outcome (R304). -/
def settleDecode (l : Latched) (known : Nat) (r : Except Err Parse) (s : State) : State :=
  settle l (decodeEffect l s.mem known r) s

/-- DECODE's completion: the range checks, then ContainerDecode to its end (R304, R336). -/
def completeDecode (l : Latched) (work : Option Parse) (s : State) : State :=
  match rangeCheck l with
  | some e => raise e s
  | none =>
    settleDecode l (channelsKnown (l.source s.mem) l.cap.toNat (parserAt work))
      (parseAll (l.source s.mem) l.cap.toNat (parserAt work)) s

/-- DECODE (R304). -/
def execDecode (s : State) : Host.Outcome State Fault Refusal := whileBusy s (fun l work => completeDecode l work s)

/-- DECODE's progress by one outcome of a parser unit: the working state moves on, or the error raised ends
the command (R56, R330). -/
def decodeMove (l : Latched) (p : Parse) (r : Except Err Parse) (s : State) : State :=
  match r with
  | .ok p' => { s with phase := .busy l (some p') }
  | .error e => settleDecode l (channelsKnown (l.source s.mem) l.cap.toNat p) (.error e) s

end Sys2Proof.Machine
end

