-- ==== Sys2Proof/Machine/Tags.lean ====
section
/-! DEFINITION. The five container tags as the parser's instructions (`46_container.md` R278): a DECODE in
progress that expects a tag meets one. The tag it expects moves the parser into the chunk; any other tag
raises FORMAT. Where no parser expects a tag, a tag is only data and nothing happens (log entry 18). -/

namespace Sys2Proof.Machine

/-- The parser meets a tag (R278). -/
def seeTag (seen : Tag) (s : State) : Host.Outcome State Fault Refusal :=
  match s.phase with
  | .idle => .next s
  | .busy _ none => .next s
  | .busy l (some p) =>
    match p.stage with
    | .tag want => .next (decodeMove l p (meetTag want seen p) s)
    | .body _ => .next s
    | .done => .next s

/-- The magic `SSAF` (R116, R278). -/
def execTagSSAF (s : State) : Host.Outcome State Fault Refusal := seeTag .ssaf s

/-- A channel chunk's tag `chan` (R117, R278). -/
def execTagChan (s : State) : Host.Outcome State Fault Refusal := seeTag .chan s

/-- A zero-run chunk's tag `zre ` (R118, R278). -/
def execTagZre (s : State) : Host.Outcome State Fault Refusal := seeTag .zre s

/-- A Rice chunk's tag `rice` (R119, R278). -/
def execTagRice (s : State) : Host.Outcome State Fault Refusal := seeTag .rice s

/-- A data chunk's tag `data` (R120, R278). -/
def execTagData (s : State) : Host.Outcome State Fault Refusal := seeTag .data s

end Sys2Proof.Machine
end

