-- ==== Sys2Proof/Machine/Dispatch.lean ====
section
/-! DEFINITION. The dispatch: one arm per constructor of Instr. -/

namespace Sys2Proof.Machine

def exec (i : Instr) (s : State) : Host.Outcome State Fault Refusal :=
  match i with
  | .nop => Sys2Proof.Machine.execNop s
  | .encode => Sys2Proof.Machine.execEncode s
  | .decode => Sys2Proof.Machine.execDecode s
  | .tagSSAF => Sys2Proof.Machine.execTagSSAF s
  | .tagChan => Sys2Proof.Machine.execTagChan s
  | .tagZre => Sys2Proof.Machine.execTagZre s
  | .tagRice => Sys2Proof.Machine.execTagRice s
  | .tagData => Sys2Proof.Machine.execTagData s

end Sys2Proof.Machine
end

