-- ==== Sys2Proof/Machine/Fetch.lean ====
section
/-! DEFINITION. What the engine turns to next: the command whose opcode it latched (`47_commands.md` R301),
or the tag word at the parser's position (`46_container.md` R278), and where a word must stand to be
turned to next. -/

namespace Sys2Proof.Machine

/-- The engine's turn: an instruction to execute, or a state it reaches without one. -/
inductive Turn where
  | run (i : Instr)
  | reach (s : State)
deriving DecidableEq, Repr

/-- The turn that completes the running command: its opcode, as latched, is decoded; an illegal one
completes with its error; idle, the engine stays idle (R301, R305, R349). -/
def completeTurn (s : State) : Turn :=
  match s.phase with
  | .idle => .reach s
  | .busy l _ =>
    match decodeCommand (l.op.setWidth 32) with
    | .ok i => .run i
    | .error _ => .reach (illegalCommand l s)

/-- The parser's turn at a tag it expects: the word at its position is fetched and decoded; too few bytes
raise TRUNCATED, and a word that is no tag raises FORMAT (R277, R278). -/
def tagTurn (l : Latched) (want : Tag) (p : Parse) (s : State) : Turn :=
  if l.srcLen.toNat < p.pos + 4 then
    .reach (decodeMove l p (.error (errTruncated (truncSub want) p.pos (tagErrChan want p.chan))) s)
  else
    match decodeTag ((l.source s.mem).word p.pos) with
    | .ok i => .run i
    | .error _ => .reach (decodeMove l p (.error (errFormat want p)) s)

/-- The turn in which the engine makes progress without completing (R56): a DECODE takes its next parser
unit, or its range checks first end it; a parser that is done completes. No other command shows
progress. -/
def advanceTurn (s : State) : Turn :=
  match s.phase with
  | .idle => .reach s
  | .busy l work =>
    if l.op = opDecode then
      match rangeCheck l with
      | some e => .reach (raise e s)
      | none =>
        match work with
        | none => .reach { s with phase := .busy l (some Parse.start) }
        | some p =>
          match p.stage with
          | .tag want => tagTurn l want p s
          | .body _ => .reach (decodeMove l p (parseUnit (l.source s.mem) l.cap.toNat p) s)
          | .done => .run .decode
    else .reach s

/-- The state in which a command word has just been accepted and the engine turns to it next (R300). -/
def placeCommand (w : Word) (s : State) : State :=
  { accept w s with inputs := .complete :: s.inputs }

/-- The state in which a DECODE of four bytes is under way, its parser expects a tag at the first of them,
the bytes stand there, and the engine turns to them next (R278; log entry 1). -/
def placeTag (t : Tag) (w : Word) (s : State) : State :=
  let regs := { s.regs.clearForAccept with srcAddr := 0#32, srcLen := 4#32, dstCap := 0#32 }
  { s with
    regs := regs
    phase := .busy (latch regs 0x00000002#32) (some { Parse.start with stage := .tag t })
    mem := s.mem.writeBytes 0 (bytesOfWord w)
    inputs := .advance :: s.inputs }

/-- A word placed where the engine turns to it next: a tag where the parser expects it, any other word as an
accepted command. -/
def placeWord (w : Word) (s : State) : State :=
  match decodeTag w with
  | .error _ => placeCommand w s
  | .ok i =>
    match tagOf i with
    | some t => placeTag t w s
    | none => placeCommand w s

end Sys2Proof.Machine
end

