-- ==== Sys2Proof/Machine/Step.lean ====
section
/-! DEFINITION. One step: the next pending input takes effect; with none pending, the engine completes the
command it runs, or stays idle (`10_state.md` R50, `47_commands.md` R301). -/

namespace Sys2Proof.Machine

/-- The engine's turn taken: the instruction it turned to is executed. -/
def takeTurn (t : Turn) (s : State) : Host.Outcome State Fault Refusal :=
  match t with
  | .run i => exec i s
  | .reach s' => .next s'

/-- One input, taken off the pending list, takes effect. -/
def inputStep (i : Input) (s : State) : Host.Outcome State Fault Refusal :=
  match i with
  | .regWrite addr size v => busWrite addr size v s
  | .regRead addr size => busRead addr size s
  | .memWrite addr bytes => hostMemWrite addr bytes s
  | .memRead addr len => hostMemRead addr len s
  | .resetOn => .next (assertReset s)
  | .resetOff => .next (releaseReset s)
  | .advance => takeTurn (advanceTurn s) s
  | .complete => takeTurn (completeTurn s) s

/-- One step of the machine. -/
def step (s : State) : Host.Outcome State Fault Refusal :=
  match s.inputs with
  | [] => takeTurn (completeTurn s) s
  | i :: rest => inputStep i { s with inputs := rest }

/-- `s` with the instruction whose bits are `w` where the engine turns to it next (log entry 1). -/
def State.withFetchWord (s : State) (nbits w : Nat) : State := placeWord (tableWord nbits w) s

end Sys2Proof.Machine
end

