-- ==== Sys2Proof/Safety.lean ====
section
/-! DEFINITION. The terms claims are stated in: what a host that keeps its duties does, what rules a command's
outcome, and the invariants of the machine. -/

namespace Sys2Proof.Machine

/-! ### The host's duties -/

/-- An input the host may give: a defined access (R33, R80), and no write into a range of the running
command (R91, R376). -/
def dutiful (s : State) (i : Input) : Bool :=
  match i with
  | .regWrite addr size _ => regAccessWf s.platform.regBase addr size
  | .regRead addr size => regAccessWf s.platform.regBase addr size
  | .memWrite addr bytes =>
    memAccessWf addr bytes.length &&
      !(ownedSpans s).any (fun o => o.overlaps ⟨addr.toNat, bytes.length⟩)
  | .memRead addr len => memAccessWf addr len
  | .resetOn => true
  | .resetOff => true
  | .advance => true
  | .complete => true

/-- The ranges whose cache lines the host cleans before a CMD write on a platform that is not coherent: the
input range of an ENCODE or DECODE (R96). A NOP or an illegal opcode has no range to clean (log entry 13,
DEDUCED, unsafe). -/
def cleanDuty (s : State) (l : Latched) : List Span :=
  if s.platform.dmaCoherent then []
  else if l.op = opEncode ∨ l.op = opDecode then [l.inSpan] else []

/-- The ranges whose cache lines the host invalidates after DONE on a platform that is not coherent: none for
a NOP or an illegal opcode (R96; log entry 13, DEDUCED, unsafe). -/
def invalidateDuty (s : State) (l : Latched) : List Span :=
  if s.platform.dmaCoherent then [] else l.looseSpans

/-! ### What rules a command's outcome -/

/-- The platform marks no byte of the command's two ranges, so it can report no bus error (R97, R340). -/
def Latched.quietOn (l : Latched) (bad : List Span) : Prop := hits bad [l.inSpan, l.outSpan] = false

/-- The command's configuration is one ENCODE runs on (R335 steps 1 to 5 passed). -/
structure Latched.encodable (l : Latched) : Prop where
  depth : l.depth.toNat ∈ Config.depths
  channels : 0 < l.channels.toNat
  whole : l.srcLen.toNat % (l.channels.toNat * (l.depth.toNat / 8)) = 0
  source : l.src.toNat + l.srcLen.toNat ≤ 2 ^ 32
  target : l.dst.toNat + l.cap.toNat ≤ 2 ^ 32
  apart : l.inSpan.overlaps l.outSpan = false

/-- The command's ranges are ones DECODE runs on (R339 sub 1 and 2 passed). -/
structure Latched.decodable (l : Latched) : Prop where
  source : l.src.toNat + l.srcLen.toNat ≤ 2 ^ 32
  target : l.dst.toNat + l.cap.toNat ≤ 2 ^ 32
  apart : l.inSpan.overlaps l.outSpan = false

/-- A signed 16-bit value. -/
def fits16 (v : Int) : Prop := -32768 ≤ v ∧ v ≤ 32767

/-- The result registers all hold 0 (R333). -/
def Regs.resultsZero (r : Regs) : Prop :=
  r.inUsed = 0#32 ∧ r.resRate = 0#32 ∧ r.resDepth = 0#8 ∧ r.resChannels = 0#16 ∧ r.resSamples = 0#32

/-- Descriptor `j` of a list (R203). -/
def runAt (ds : List Run) (j : Nat) : Run := ds.getD j ⟨0, 0⟩

/-- Where the run before descriptor `j` ends: the length put out when descriptor `j` is met (R203). -/
def runsEnd (ds : List Run) : Nat → Nat
  | 0 => 0
  | j + 1 => (runAt ds j).start + (runAt ds j).len

/-- The zeros of the descriptors before `j` (R203). -/
def runsTotal (ds : List Run) (j : Nat) : Nat := ((ds.take j).map (·.len)).sum

/-- Descriptor `j` passes ZreDec's three checks, for `n` compacted values and `S` samples (R203). -/
def runPlaced (ds : List Run) (n S j : Nat) : Prop :=
  runsEnd ds j ≤ (runAt ds j).start ∧ (runAt ds j).start ≤ n + runsTotal ds j ∧
    (runAt ds j).start + (runAt ds j).len ≤ S

/-- The registers a command does not write: CTRL, STATUS.IGN and the operand registers (R300, R301). -/
structure Regs.sameOperands (r t : Regs) : Prop where
  irqEn : t.irqEn = r.irqEn
  ditherEn : t.ditherEn = r.ditherEn
  ign : t.ign = r.ign
  srcAddr : t.srcAddr = r.srcAddr
  srcLen : t.srcLen = r.srcLen
  dstAddr : t.dstAddr = r.dstAddr
  dstCap : t.dstCap = r.dstCap
  sampleRate : t.sampleRate = r.sampleRate
  depth : t.depth = r.depth
  channels : t.channels = r.channels

/-- What no instruction changes: the operand registers, the platform, the pending inputs, the response to
the last host read, and the reset input. -/
structure State.sameAround (s t : State) : Prop where
  regs : s.regs.sameOperands t.regs
  platform : t.platform = s.platform
  inputs : t.inputs = s.inputs
  response : t.response = s.response
  inReset : t.inReset = s.inReset

/-- The engine takes its completing turn: nothing is pending, or the turn is what is pending; `rest` is what
stays pending. -/
def State.completesNow (s : State) (rest : List Input) : Prop :=
  (s.inputs = [] ∧ rest = []) ∨ s.inputs = .complete :: rest

/-- What a command that ended with an error, all of memory unchanged, leaves (R333 (a)). -/
def State.failed (s : State) (code info : Word) : State :=
  { s with
    regs := { s.regs with
      done := true, err := true, errCode := code, errInfo := info, outLen := 0#32, inUsed := 0#32,
      resRate := 0#32, resDepth := 0#8, resChannels := 0#16, resSamples := 0#32 }
    phase := .idle }

/-- The registers of a command that ended with an error (R333). -/
structure Regs.endedWith (r : Regs) (code info outLen : Word) : Prop where
  done : r.done = true
  err : r.err = true
  errCode : r.errCode = code
  errInfo : r.errInfo = info
  outLen : r.outLen = outLen
  zero : r.resultsZero

/-- A DECODE of the machine ends with an error, its registers as R333 says. -/
def State.decodeEnds (s : State) (code info outLen : Word) : Prop :=
  ∃ t, exec .decode s = .next t ∧ t.phase = .idle ∧ t.regs.endedWith code info outLen

/-- The flags and error registers of a command that ended without error (R301). -/
structure Regs.endedWell (r : Regs) : Prop where
  done : r.done = true
  err : r.err = false
  errCode : r.errCode = 0#32
  errInfo : r.errInfo = 0#32

/-! ### Invariants -/

/-- While BUSY the latched operands equal the registers, CTRL.DITHER_EN apart (R52). -/
def State.latchInv (s : State) : Prop :=
  ∀ l work, s.phase = .busy l work →
    l.src = s.regs.srcAddr ∧ l.srcLen = s.regs.srcLen ∧ l.dst = s.regs.dstAddr ∧ l.cap = s.regs.dstCap ∧
    l.rate = s.regs.sampleRate ∧ l.depth = s.regs.depth ∧ l.channels = s.regs.channels

/-- While BUSY, DONE and ERR are 0 and ERR_CODE and ERR_INFO hold 0 (R300, R375). -/
def State.busyInv (s : State) : Prop :=
  s.phase.isBusy = true →
    s.regs.done = false ∧ s.regs.err = false ∧ s.regs.errCode = 0#32 ∧ s.regs.errInfo = 0#32

/-- ERR_CODE reports no code above 9, and reports 0 as a whole or not at all (R332, R40). -/
def State.errInv (s : State) : Prop :=
  (s.regs.errCode.setWidth 8).toNat ≤ 9 ∧
    ((s.regs.errCode.setWidth 8).toNat = 0 → s.regs.errCode = 0#32 ∧ s.regs.errInfo = 0#32) ∧
    (s.regs.err = true → (s.regs.errCode.setWidth 8).toNat ≠ 0)

/-- While reset is asserted the registers hold their reset values and the engine is idle (R370, R371). -/
def State.resetInv (s : State) : Prop := s.inReset = true → s.regs = Regs.reset ∧ s.phase = .idle

/-- Past the header, what a parser holds fits the output range: the header's size check (R276), and the
channels reconstructed so far, each of S samples. -/
structure Parse.sound (p : Parse) (cap : Nat) : Prop where
  past : p.stage ≠ .tag .ssaf ∧ p.stage ≠ .body .ssaf
  depth : p.depth ∈ Config.depths
  fits : p.samples * p.channels * bps p.depth ≤ cap
  chan : p.chan ≤ p.channels
  count : p.pcm.length = p.chan
  whole : ∀ x ∈ p.pcm, x.length = p.samples
  left : p.stage ≠ .done → p.chan < p.channels

/-- A parser's stage lies in the header. -/
def Parse.inHeader (p : Parse) : Prop :=
  (p.stage = .tag .ssaf ∨ p.stage = .body .ssaf) ∧ p.pcm = [] ∧ p.chan = 0

/-- The memory has its canonical form, every unspecified range is an earlier draw's, and a parser under way
is a DECODE's and sound. -/
structure State.memInv (s : State) : Prop where
  wf : s.mem.wf
  draws : ∀ f ∈ s.mem.free, f.draw < s.draws
  work : ∀ l p, s.phase = .busy l (some p) → p.inHeader ∨ p.sound l.cap.toNat

end Sys2Proof.Machine
end

