-- ==== Sys2Proof/Certificates/Slice0/Obligations.lean ====
section
/-! DEFINITION. The statements for the provers, each a proposition over the model. The list in
OBLIGATIONS.json says which rule of spec/ each formalises. -/

open Sys2Proof Sys2Proof.Machine

/-! ### The step and the decoder -/

/-- A busy engine that completes executes the instruction its latched opcode decodes to (R301): with nothing
pending, or where its completing turn is the next pending input. That the engine completes in the step in which
nothing is pending is the model's choice (log entry 2). -/
def Obligations.StepRunsTheLatchedCommand : Prop :=
  ∀ (s : State) (l : Latched) (work : Option Parse) (i : Instr),
    s.phase = .busy l work → decodeCommand (l.op.setWidth 32) = .ok i →
    (s.inputs = [] → step s = exec i s) ∧
    (∀ rest, s.inputs = .complete :: rest → step s = exec i { s with inputs := rest })

/-- R305, R333: an opcode 0x03 to 0xFF completes with ILLEGAL_CMD, ERR_INFO the opcode, and changes no memory. That
the engine completes in the step in which nothing is pending is the model's choice (log entry 2). -/
def Obligations.IllegalOpcodeCompletes : Prop :=
  ∀ (s : State) (l : Latched) (work : Option Parse) (rest : List Input),
    s.phase = .busy l work → 3 ≤ l.op.toNat → s.completesNow rest →
    step s = .next (State.failed { s with inputs := rest } 0xFFFF0008#32 (l.op.setWidth 32))

/-- Where a DECODE's parser expects a tag and the four bytes at its position are a tag, its next turn
executes that tag's instruction (R276, R278). The turn itself is the model's (log entries 2 and 16). -/
def Obligations.StepRunsTheTagWord : Prop :=
  ∀ (s : State) (l : Latched) (p : Parse) (want : Tag) (i : Instr) (rest : List Input),
    s.inputs = .advance :: rest → s.phase = .busy l (some p) → l.op = 0x02#8 → l.decodable →
    p.stage = .tag want → p.pos + 4 ≤ l.srcLen.toNat → (tagOf i).isSome = true →
    decodeBytes (s.mem.readBytes (l.src.toNat + p.pos) 4) = .ok i →
    step s = exec i { s with inputs := rest }

/-- Decoding the bytes of an instruction, whatever follows them, gives it back. -/
def Obligations.DecodeInvertsEncode : Prop :=
  ∀ (i : Instr) (rest : List Byte), i.wf = true → decodeBytes (Sys2Proof.encodeBytes i ++ rest) = .ok i

/-- A command word is decoded by its bits [7:0] alone (R110 to R112), as the spec infers in R113. -/
def Obligations.CommandDecodingReadsTheLowByte : Prop :=
  (∀ w : Word, decodeCommand w =
    if w.extractLsb' 0 8 = 0x00#8 then .ok .nop
    else if w.extractLsb' 0 8 = 0x01#8 then .ok .encode
    else if w.extractLsb' 0 8 = 0x02#8 then .ok .decode
    else .error (.illegalOpcode (w.extractLsb' 0 8))) ∧
  (∀ w : Word, decodeCommand w = decodeCommand (w &&& 0x000000FF#32)) ∧
  decodeCommand 0x00000101#32 = .ok .encode ∧ decodeCommand 0x00000001#32 = .ok .encode

/-- The five tags read as little-endian words (R15, R82), as the spec infers in R125; a word is a tag only
where all 32 bits are. -/
def Obligations.TagWordsAreTheirBytes : Prop :=
  encode .tagSSAF = 0x46415353#32 ∧ encode .tagChan = 0x6E616863#32 ∧ encode .tagZre = 0x2065727A#32 ∧
  encode .tagRice = 0x65636972#32 ∧ encode .tagData = 0x61746164#32 ∧
  (∀ (i : Instr) (t : Tag), tagOf i = some t → Sys2Proof.encodeBytes i = tagBytes t) ∧
  (∀ (w : Word) (i : Instr), decodeTag w = .ok i ↔ ((tagOf i).isSome = true ∧ w = encode i))

/-- A few words written out from the encoding tables decode to their instructions: a command word with
ignored bits set, and the bytes of two tags. -/
def Obligations.WrittenWordsDecode : Prop :=
  decodeBytes [0x00#8, 0xFF#8, 0xFF#8, 0xFF#8] = .ok .nop ∧
  decodeBytes [0x01#8, 0x01#8, 0x00#8, 0x00#8] = .ok .encode ∧
  decodeBytes [0x02#8, 0x00#8, 0x00#8, 0x00#8] = .ok .decode ∧
  decodeBytes [0x53#8, 0x53#8, 0x41#8, 0x46#8] = .ok .tagSSAF ∧
  decodeBytes [0x7A#8, 0x72#8, 0x65#8, 0x20#8] = .ok .tagZre

/-! ### The register block -/

/-- R35 and R36: ID and PARAM read as their constants and ignore writes; ID's bytes are the magic, and PARAM
reports the parameters the model runs on. -/
def Obligations.IdAndParamAreConstant : Prop :=
  ∀ (s : State) (v : Word), s.inReset = false →
    offsetRead s 0x00 = 0x46415353#32 ∧ bytesOfWord (offsetRead s 0x00) = tagBytes .ssaf ∧
    offsetRead s 0x04 = 0x10040A0C#32 ∧ offsetWrite s 0x00 v = s ∧ offsetWrite s 0x04 v = s ∧
    2 ^ ((offsetRead s 0x04).extractLsb' 0 8).toNat = Config.block ∧
    ((offsetRead s 0x04).extractLsb' 8 8).toNat = Config.minRun ∧
    ((offsetRead s 0x04).extractLsb' 16 8).toNat = Config.ditherTh ∧
    ((offsetRead s 0x04).extractLsb' 24 8).toNat = Config.predW

/-- R54: reserved offsets and reserved bits read 0 and ignore writes, and a write to a read-only register is
ignored and sets no IGN. -/
def Obligations.ReservedAndReadOnlyIgnoreWrites : Prop :=
  ∀ (s : State) (v : Word), s.inReset = false →
    (∀ off, 0x50 ≤ off → off ≤ 0xFC → off % 4 = 0 → offsetRead s off = 0#32 ∧ offsetWrite s off v = s) ∧
    (∀ off ∈ [0x00, 0x04, 0x14, 0x18, 0x38, 0x3C, 0x40, 0x44, 0x48, 0x4C], offsetWrite s off v = s) ∧
    (∀ x ∈ [(0x08, 0x00000003#32), (0x10, 0x0000000F#32), (0x30, 0x000000FF#32), (0x34, 0x0000FFFF#32),
        (0x44, 0x000000FF#32), (0x48, 0x0000FFFF#32)],
      offsetRead s x.1 &&& ~~~x.2 = 0#32 ∧ offsetWrite s x.1 v = offsetWrite s x.1 (v &&& x.2))

/-- R53: while BUSY a write to an operand register or to CMD only sets IGN; writes to CTRL and STATUS are
accepted, BUSY or not; and a read of any register at any time returns its current value. At the step, an aligned
word write of the bus at any offset of the block does what `offsetWrite` says, and a read what `offsetRead` says
(R33), for a block at any REG_BASE (log entry 8); and what `offsetRead` says at each offset of R34's map, out of
reset, is the register that the map names there. -/
def Obligations.BusyLockedWritesOnlySetIgn : Prop :=
  (∀ (s : State) (v : Word), s.inReset = false →
    (s.phase.isBusy = true → ∀ off ∈ [0x0C, 0x1C, 0x20, 0x24, 0x28, 0x2C, 0x30, 0x34],
      offsetWrite s off v = { s with regs := { s.regs with ign := true } }) ∧
    offsetWrite s 0x08 v =
      { s with regs := { s.regs with irqEn := v.getLsbD 0, ditherEn := v.getLsbD 1 } } ∧
    offsetWrite s 0x10 v =
      { s with regs := { s.regs with
          done := s.regs.done && !v.getLsbD 1, err := s.regs.err && !v.getLsbD 2,
          ign := s.regs.ign && !v.getLsbD 3 } }) ∧
  (∀ (s : State) (v : Word) (off : Nat) (rest : List Input), off < 256 → off % 4 = 0 →
    (s.inputs = .regWrite (s.platform.regBase + BitVec.ofNat 32 off) .word v :: rest →
      step s = .next (offsetWrite { s with inputs := rest } off v)) ∧
    (s.inputs = .regRead (s.platform.regBase + BitVec.ofNat 32 off) .word :: rest →
      step s = .next { s with inputs := rest, response := .reg (offsetRead s off) })) ∧
  (∀ s : State, s.inReset = false →
    offsetRead s 0x08 = 0#30 ++ BitVec.ofBool s.regs.ditherEn ++ BitVec.ofBool s.regs.irqEn ∧
    offsetRead s 0x0C = 0#32 ∧
    offsetRead s 0x10 = 0#28 ++ BitVec.ofBool s.regs.ign ++ BitVec.ofBool s.regs.err ++
      BitVec.ofBool s.regs.done ++ BitVec.ofBool s.phase.isBusy ∧
    (∀ x ∈ [(0x14, s.regs.errCode), (0x18, s.regs.errInfo), (0x1C, s.regs.srcAddr), (0x20, s.regs.srcLen),
        (0x24, s.regs.dstAddr), (0x28, s.regs.dstCap), (0x2C, s.regs.sampleRate),
        (0x30, 0#24 ++ s.regs.depth), (0x34, 0#16 ++ s.regs.channels), (0x38, s.regs.outLen),
        (0x3C, s.regs.inUsed), (0x40, s.regs.resRate), (0x44, 0#24 ++ s.regs.resDepth),
        (0x48, 0#16 ++ s.regs.resChannels), (0x4C, s.regs.resSamples)], offsetRead s x.1 = x.2))

/-- While idle, each operand register and CTRL reads back what was written, within its width, and no other
register changes (R37, R42 to R46); a write at an operand register's offset stores in the register that R34's map
names there, and changes nothing else. -/
def Obligations.OperandRegistersReadBack : Prop :=
  ∀ (s : State) (v : Word), s.phase = .idle → s.inReset = false →
    (∀ x ∈ [(0x08, 0x00000003#32), (0x1C, 0xFFFFFFFF#32), (0x20, 0xFFFFFFFF#32), (0x24, 0xFFFFFFFF#32),
        (0x28, 0xFFFFFFFF#32), (0x2C, 0xFFFFFFFF#32), (0x30, 0x000000FF#32), (0x34, 0x0000FFFF#32)],
      offsetRead (offsetWrite s x.1 v) x.1 = v &&& x.2 ∧
      (∀ off, off ≠ x.1 → offsetRead (offsetWrite s x.1 v) off = offsetRead s off) ∧
      (offsetWrite s x.1 v).phase = .idle ∧ (offsetWrite s x.1 v).mem = s.mem) ∧
    offsetWrite s 0x1C v = { s with regs := { s.regs with srcAddr := v } } ∧
    offsetWrite s 0x20 v = { s with regs := { s.regs with srcLen := v } } ∧
    offsetWrite s 0x24 v = { s with regs := { s.regs with dstAddr := v } } ∧
    offsetWrite s 0x28 v = { s with regs := { s.regs with dstCap := v } } ∧
    offsetWrite s 0x2C v = { s with regs := { s.regs with sampleRate := v } } ∧
    offsetWrite s 0x30 v = { s with regs := { s.regs with depth := v.extractLsb' 0 8 } } ∧
    offsetWrite s 0x34 v = { s with regs := { s.regs with channels := v.extractLsb' 0 16 } }

/-- A write to STATUS clears DONE, ERR and IGN where it holds a 1, leaves them where it holds a 0, and
changes nothing else, BUSY included (R39); the host's acknowledgement clears DONE and ERR alone (R128,
R350). -/
def Obligations.StatusIsWriteOneToClear : Prop :=
  ∀ (s : State) (v : Word), s.inReset = false →
    (∀ b ∈ [1, 2, 3], (offsetRead (offsetWrite s 0x10 v) 0x10).getLsbD b =
      ((offsetRead s 0x10).getLsbD b && !v.getLsbD b)) ∧
    (offsetRead (offsetWrite s 0x10 v) 0x10).getLsbD 0 = s.phase.isBusy ∧
    (∀ off, off ≠ 0x10 → offsetRead (offsetWrite s 0x10 v) off = offsetRead s off) ∧
    (offsetWrite s 0x10 v).phase = s.phase ∧ (offsetWrite s 0x10 v).mem = s.mem ∧
    offsetWrite s 0x10 0x00000006#32 = acknowledge s ∧
    acknowledge s = { s with regs := { s.regs with done := false, err := false } }

/-- A write to CTRL takes effect on the interrupt output at once and leaves the running command's latched
DITHER_EN (R37). -/
def Obligations.ControlWriteWhileRunning : Prop :=
  ∀ (s : State) (v : Word), s.inReset = false →
    (offsetWrite s 0x08 v).irq = (v.getLsbD 0 && s.regs.done) ∧ (offsetWrite s 0x08 v).phase = s.phase ∧
    offsetRead (offsetWrite s 0x08 v) 0x08 = v &&& 0x00000003#32

/-- The interrupt output (R55) is CTRL.IRQ_EN and STATUS.DONE, as the host reads them. -/
def Obligations.InterruptFollowsDone : Prop :=
  ∀ s : State, s.inReset = false →
    s.irq = ((offsetRead s 0x08).getLsbD 0 && (offsetRead s 0x10).getLsbD 1)

/-- R300: a CMD write while idle latches the operands, clears DONE, ERR and the error registers, and makes
the engine busy, all else kept; while BUSY it is not accepted. The block may stand at any REG_BASE (log entry 8). -/
def Obligations.AcceptanceLatchesTheOperands : Prop :=
  ∀ (s : State) (w : Word) (rest : List Input), s.inReset = false →
    s.inputs = .regWrite (s.platform.regBase + 0x0C#32) .word w :: rest →
    (s.phase = .idle →
      step s = .next { s with
        inputs := rest
        regs := { s.regs with done := false, err := false, errCode := 0#32, errInfo := 0#32 }
        phase := .busy ⟨w.extractLsb' 0 8, s.regs.srcAddr, s.regs.srcLen, s.regs.dstAddr, s.regs.dstCap,
          s.regs.sampleRate, s.regs.depth, s.regs.channels, s.regs.ditherEn⟩ none }) ∧
    (s.phase.isBusy = true →
      step s = .next { s with inputs := rest, regs := { s.regs with ign := true } })

/-- R33: an aligned 32-bit access of the block has a meaning; any other access that meets a byte of it is
refused. That an access which begins below the block is such an access, and that one is refused while reset is
asserted too, is the model's (log entry 10), as are the four widths an access can have, and a REG_BASE of any
alignment and place (log entry 8). -/
def Obligations.UndefinedRegisterAccessIsRefused : Prop :=
  ∀ (s : State) (addr v : Word) (size : AccessSize) (off : Nat) (rest : List Input),
    off = (addr - s.platform.regBase).toNat →
    off < 256 ∨ 2 ^ 32 < off + (match size with | .byte => 1 | .half => 2 | .word => 4 | .double => 8) →
    (size ≠ .word ∨ off % 4 ≠ 0 →
      (s.inputs = .regWrite addr size v :: rest → step s = .refused (.registerAccess addr size)) ∧
      (s.inputs = .regRead addr size :: rest → step s = .refused (.registerAccess addr size))) ∧
    (size = .word ∧ off % 4 = 0 →
      (s.inputs = .regWrite addr size v :: rest → ∃ t, step s = .next t) ∧
      (s.inputs = .regRead addr size :: rest → ∃ t, step s = .next t))

/-! ### The host and memory -/

/-- R91: while an ENCODE or DECODE runs, a host write that meets its input or output range is refused; any other
host write inside the address space, the engine idle or busy, sets exactly the bytes it names and changes
nothing else (R80). That a write is free of a running NOP's or illegal opcode's operand registers is log entry
13, and that a write of no byte meets no range is log entry 11. -/
def Obligations.HostWriteIntoRunningRangeIsRefused : Prop :=
  ∀ (s : State) (addr : Word) (bytes : List Byte) (rest : List Input) (meets : Bool),
    addr.toNat + bytes.length ≤ 2 ^ 32 → s.inputs = .memWrite addr bytes :: rest →
    meets = (match s.phase with
      | .idle => false
      | .busy l _ => (l.op == 0x01#8 || l.op == 0x02#8) &&
        (l.inSpan.overlaps ⟨addr.toNat, bytes.length⟩ || l.outSpan.overlaps ⟨addr.toNat, bytes.length⟩)) →
    if meets then step s = .refused (.busyRangeWrite addr)
    else
      ∃ t, step s = .next t ∧ t = { s with inputs := rest, mem := t.mem } ∧
        (∀ i, (h : i < bytes.length) → t.mem.read (addr.toNat + i) = bytes[i]) ∧
        (∀ a, a < addr.toNat ∨ addr.toNat + bytes.length ≤ a → t.mem.read a = s.mem.read a)

/-- A host read inside the address space: a byte of a running command's output range, or of the input range of a
running ENCODE that dithers, is any value, of a draw that no earlier read took; any other byte, and every byte
while the engine is idle, is its current value (R80, R92; the free value's form, and that a byte of an output range is
any value also where it is one of an input range that is only read, is log entry 4; that a running
NOP or illegal opcode has no ranges is log entry 13). -/
def Obligations.HostReadWhileRunning : Prop :=
  ∀ (s : State) (addr : Word) (len : Nat) (rest : List Input),
    addr.toNat + len ≤ 2 ^ 32 → s.inputs = .memRead addr len :: rest →
    ∃ t bytes, step s = .next t ∧
      t = { s with inputs := rest, response := .mem bytes, draws := t.draws } ∧ s.draws < t.draws ∧
      bytes.length = len ∧
      ∀ i, (h : i < bytes.length) →
        bytes[i] =
          match s.phase with
          | .idle => s.mem.read (addr.toNat + i)
          | .busy l _ =>
            if ((l.op = 0x01#8 ∨ l.op = 0x02#8) ∧ l.outSpan.has (addr.toNat + i)) ∨
                (l.op = 0x01#8 ∧ l.dither ∧ l.inSpan.has (addr.toNat + i)) then
              Config.freeByte s.draws (addr.toNat + i)
            else s.mem.read (addr.toNat + i)

/-- A host memory access that leaves the 2^32 bytes of the address space (R80) is a fault. That the model stops
there, and with this fault also where the write meets a range of the running command, is its own choice (log entry
12). -/
def Obligations.HostAccessOutsideTheSpaceFaults : Prop :=
  ∀ (s : State) (addr : Word) (bytes : List Byte) (len : Nat) (rest : List Input),
    (2 ^ 32 < addr.toNat + bytes.length → s.inputs = .memWrite addr bytes :: rest →
      step s = .fault (.noSuchAddress (addr.toNat + bytes.length - 1))) ∧
    (2 ^ 32 < addr.toNat + len → s.inputs = .memRead addr len :: rest →
      step s = .fault (.noSuchAddress (addr.toNat + len - 1)))

/-! ### Reset -/

/-- After reset every register reads its reset value, the engine is idle, no interrupt is output, and
memory is what it was unless an ENCODE or a DECODE was running (R371, R372; that a running NOP or illegal opcode
leaves it is log entry 13); after power-on it is the platform's (R371; the free value's form is log entry 3). -/
def Obligations.ResetStateOfTheMachine : Prop :=
  (∀ (s : State) (rest : List Input), s.inputs = .resetOn :: .resetOff :: rest →
    ∃ t : State, Host.Core.run Sys2Proof.core 2 s = .next t ∧ t.phase = .idle ∧ t.irq = false ∧
      t.inReset = false ∧ (s.phase = .idle → t.mem = s.mem) ∧
      (∀ l work, s.phase = .busy l work → l.op ≠ 0x01#8 → l.op ≠ 0x02#8 → t.mem = s.mem) ∧
      ∀ off, offsetRead t off =
        if off = 0x00 then 0x46415353#32 else if off = 0x04 then 0x10040A0C#32
        else if off = 0x08 then 0x00000002#32 else 0#32) ∧
  State.reset.phase = .idle ∧ State.reset.irq = false ∧ State.reset.regs = Regs.reset ∧
  (∀ a, State.reset.mem.read a = Config.powerOnByte a) ∧
  (∀ off, offsetRead State.reset off =
    if off = 0x00 then 0x46415353#32 else if off = 0x04 then 0x10040A0C#32
    else if off = 0x08 then 0x00000002#32 else 0#32)

/-- R370: while reset is asserted, register writes are ignored and register reads return 0; released, the
core is in the reset state. That asserting reset at once gives the reset registers and an idle engine is the
model's choice (log entry 14), as is a REG_BASE of any alignment and place (log entry 8). -/
def Obligations.ResetHoldsTheCore : Prop :=
  ∀ (s : State) (off : Nat) (v : Word) (rest : List Input), off < 256 → off % 4 = 0 →
    (s.inReset = true →
      (s.inputs = .regWrite (s.platform.regBase + BitVec.ofNat 32 off) .word v :: rest →
        step s = .next { s with inputs := rest }) ∧
      (s.inputs = .regRead (s.platform.regBase + BitVec.ofNat 32 off) .word :: rest →
        step s = .next { s with inputs := rest, response := .reg 0#32 })) ∧
    (s.inputs = .resetOn :: rest → ∃ t, step s = .next t ∧ t.inReset = true ∧ t.resetInv) ∧
    (s.resetInv → s.inReset = true → s.inputs = .resetOff :: rest →
      ∃ t, step s = .next t ∧ t.inReset = false ∧ t.regs = Regs.reset ∧ t.phase = .idle)

/-- R372: a reset abandons the running command with no result kept; the bytes of an ENCODE's or DECODE's
output range, and of the input range of an ENCODE that dithers, hold any value; no other byte changes. That all
this stands in the step that asserts reset is the model's choice (log entry 14), and the free value's form is log
entry 4. -/
def Obligations.ResetAbandonsTheCommand : Prop :=
  ∀ (s : State) (l : Latched) (work : Option Parse) (rest : List Input),
    s.phase = .busy l work → (l.op = 0x01#8 ∨ l.op = 0x02#8) → s.inputs = .resetOn :: rest →
    ∃ t, step s = .next t ∧ t.regs = Regs.reset ∧ t.phase = .idle ∧
      ∀ a, a < 2 ^ 32 →
        if l.outSpan.has a ∨ (l.op = 0x01#8 ∧ l.dither ∧ l.inSpan.has a) then
          ∃ d, s.draws ≤ d ∧ d < t.draws ∧ t.mem.read a = Config.freeByte d a
        else t.mem.read a = s.mem.read a

/-! ### The commands -/

/-- R302: NOP completes without error; nothing but DONE, ERR and the error registers is written; the word
0xFFFFFF00 is NOP too. -/
def Obligations.NopCompletes : Prop :=
  (∀ (s : State) (l : Latched) (work : Option Parse), s.phase = .busy l work →
    exec .nop s = .next { s with
      regs := { s.regs with done := true, err := false, errCode := 0#32, errInfo := 0#32 }
      phase := .idle }) ∧
  decodeCommand 0xFFFFFF00#32 = .ok .nop

/-- ENCODE reports the first of its configuration checks that fails, and no memory changes (R335, R338,
R339, R333 (a)). -/
def Obligations.EncodeReportsTheFirstFailingCheck : Prop :=
  ∀ (s : State) (l : Latched) (work : Option Parse), s.phase = .busy l work →
    (l.depth.toNat ∉ [8, 16, 24, 32] →
      exec .encode s = .next (s.failed 0xFFFF0003#32 (l.depth.setWidth 32))) ∧
    (l.depth.toNat ∈ [8, 16, 24, 32] → l.channels = 0#16 →
      exec .encode s = .next (s.failed 0xFFFF0103#32 0#32)) ∧
    (l.depth.toNat ∈ [8, 16, 24, 32] → l.channels ≠ 0#16 →
      (l.srcLen.toNat % (l.channels.toNat * (l.depth.toNat / 8)) ≠ 0 →
        exec .encode s = .next (s.failed 0xFFFF0007#32 0#32)) ∧
      (l.srcLen.toNat % (l.channels.toNat * (l.depth.toNat / 8)) = 0 →
        (2 ^ 32 < l.src.toNat + l.srcLen.toNat ∨ 2 ^ 32 < l.dst.toNat + l.cap.toNat →
          exec .encode s = .next (s.failed 0xFFFF0107#32 0#32)) ∧
        (l.src.toNat + l.srcLen.toNat ≤ 2 ^ 32 ∧ l.dst.toNat + l.cap.toNat ≤ 2 ^ 32 ∧
            0 < l.srcLen.toNat ∧ 0 < l.cap.toNat ∧ l.src.toNat < l.dst.toNat + l.cap.toNat ∧
            l.dst.toNat < l.src.toNat + l.srcLen.toNat →
          exec .encode s = .next (s.failed 0xFFFF0207#32 0#32))))

/-- ENCODE of a legal configuration whose container fits writes the container to the output range, reports
its length and the header's fields, leaves the (dithered) samples in the input range, and changes no other
byte (R303, R86). The container is that of the samples read, dithered where the command dithers (R171). Samples
are read at depth 24 by R153's pseudocode and against its corner case (log entry 23). -/
def Obligations.EncodeWritesTheContainer : Prop :=
  ∀ (s : State) (l : Latched) (work : Option Parse), s.phase = .busy l work → l.encodable →
    l.quietOn s.platform.busFaults → (encodeContainer l s.mem).length ≤ l.cap.toNat →
    ∃ t, exec .encode s = .next t ∧ s.sameAround t ∧ t.phase = .idle ∧ t.regs.endedWell ∧
      t.regs.outLen.toNat = (encodeContainer l s.mem).length ∧ t.regs.inUsed = l.srcLen ∧
      t.regs.resRate = l.rate ∧ t.regs.resDepth = l.depth ∧ t.regs.resChannels = l.channels ∧
      t.regs.resSamples.toNat = l.srcLen.toNat / (l.channels.toNat * (l.depth.toNat / 8)) ∧
      t.mem.readBytes l.dst.toNat (encodeContainer l s.mem).length = encodeContainer l s.mem ∧
      readChannels t.mem l.layout l.samples = encodeSamples l s.mem ∧
      encodeContainer l s.mem =
        containerBytes (encodeSamples l s.mem) l.rate.toNat l.depth.toNat l.channels.toNat
          (l.srcLen.toNat / (l.channels.toNat * (l.depth.toNat / 8))) ∧
      encodeSamples l s.mem =
        (readChannels s.mem ⟨l.src.toNat, l.channels.toNat, l.depth.toNat⟩
          (l.srcLen.toNat / (l.channels.toNat * (l.depth.toNat / 8)))).map
            (fun x => if l.dither then ditherChannel x else x) ∧
      (∀ a, ¬(l.dst.toNat ≤ a ∧ a < l.dst.toNat + (encodeContainer l s.mem).length) →
        (l.dither = false ∨ l.inSpan.has a = false) → t.mem.read a = s.mem.read a)

/-- ENCODE whose container does not fit reports OVERFLOW and the size needed; outside the output range only
the dithered samples may have changed (R303, R333 (c)). Samples are read at depth 24 by R153's
pseudocode and against its corner case (log entry 23). -/
def Obligations.EncodeOverflowReportsTheSize : Prop :=
  ∀ (s : State) (l : Latched) (work : Option Parse), s.phase = .busy l work → l.encodable →
    l.quietOn s.platform.busFaults → l.cap.toNat < (encodeContainer l s.mem).length →
    ∃ t, exec .encode s = .next t ∧ s.sameAround t ∧ t.phase = .idle ∧
      t.regs.endedWith 0xFFFF0006#32 0#32
        (BitVec.ofNat 32 (min (encodeContainer l s.mem).length (2 ^ 32 - 1))) ∧
      readChannels t.mem l.layout l.samples = encodeSamples l s.mem ∧
      (∀ a, l.outSpan.has a = false → (l.dither = false ∨ l.inSpan.has a = false) →
        t.mem.read a = s.mem.read a)

/-- R172: the write-back stores exactly the samples the filter changed; every byte of another sample of the
input range is as before. Samples are read at depth 24 by R153's
pseudocode and against its corner case (log entry 23). -/
def Obligations.DitherWritesBackOnlyChangedSamples : Prop :=
  ∀ (l : Latched) (m : Memory), l.encodable → l.dither = true →
    readChannels (encodeDithered l m) l.layout l.samples = (readChannels m l.layout l.samples).map ditherChannel ∧
    (∀ a, l.inSpan.has a = false → (encodeDithered l m).read a = m.read a) ∧
    (∀ n c i, n < l.samples → c < l.channels.toNat → i < l.depth.toNat / 8 →
      (ditherChannel (readChannel m l.layout l.samples c)).getD n 0 = readSample m l.layout n c →
      (encodeDithered l m).read (l.layout.addr n c + i) = m.read (l.layout.addr n c + i))

/-- DECODE of ranges that wrap or overlap reports CONFIG and changes no memory (R304, R339). -/
def Obligations.DecodeReportsBadRanges : Prop :=
  ∀ (s : State) (l : Latched) (work : Option Parse), s.phase = .busy l work →
    (2 ^ 32 < l.src.toNat + l.srcLen.toNat ∨ 2 ^ 32 < l.dst.toNat + l.cap.toNat →
      exec .decode s = .next (s.failed 0xFFFF0107#32 0#32)) ∧
    (l.src.toNat + l.srcLen.toNat ≤ 2 ^ 32 ∧ l.dst.toNat + l.cap.toNat ≤ 2 ^ 32 ∧
        0 < l.srcLen.toNat ∧ 0 < l.cap.toNat ∧ l.src.toNat < l.dst.toNat + l.cap.toNat ∧
        l.dst.toNat < l.src.toNat + l.srcLen.toNat →
      exec .decode s = .next (s.failed 0xFFFF0207#32 0#32))

/-- DECODE of a container that parses writes each reconstructed sample at its interleaved place, reports the
bytes written, the bytes consumed and the header's fields, and changes no byte outside (R304, R86). The samples
read back at depth 24 by R153's pseudocode and against its corner case (log entry 23). -/
def Obligations.DecodeStoresTheSamples : Prop :=
  ∀ (s : State) (l : Latched) (p : Parse), s.phase = .busy l none → l.decodable →
    l.quietOn s.platform.busFaults → parseAll (l.source s.mem) l.cap.toNat Parse.start = .ok p →
    ∃ t, exec .decode s = .next t ∧ s.sameAround t ∧ t.phase = .idle ∧ t.regs.endedWell ∧
      t.regs.outLen.toNat = p.samples * p.channels * (p.depth / 8) ∧
      t.regs.inUsed.toNat = p.pos ∧ p.pos ≤ l.srcLen.toNat ∧
      t.regs.resRate.toNat = p.rate ∧ t.regs.resDepth.toNat = p.depth ∧
      t.regs.resChannels.toNat = p.channels ∧ t.regs.resSamples.toNat = p.samples ∧
      readChannels t.mem ⟨l.dst.toNat, p.channels, p.depth⟩ p.samples = p.pcm ∧
      (∀ a, ¬(l.dst.toNat ≤ a ∧ a < l.dst.toNat + p.samples * p.channels * (p.depth / 8)) →
        t.mem.read a = s.mem.read a)

/-- DECODE of a container whose parse raises an error reports it with every result register 0 (OUT_LEN is the
size needed for OVERFLOW); the input range and all else outside the output range is unchanged (R304,
R333 (b)). The parse is its units in order, and its error is the first unit's that raises one (R276, R336). A unit
at a tag is ExpectTag (R278), the header's raises the first of its errors in the order of its fields, and a
chunk's fields raise TRUNCATED sub 1 at the first field that is not whole (R277), and its data chunk raises what
the Rice decoder raises, then what the zero-run decoder raises, then RANGE at the first sample that does not fit
the depth (R281); a unit that raises none reads its fields. -/
def Obligations.DecodeFailsOutright : Prop :=
  (∀ (s : State) (l : Latched) (work : Option Parse) (e : Err), s.phase = .busy l work → l.decodable →
    l.quietOn s.platform.busFaults →
    parseAll (l.source s.mem) l.cap.toNat (parserAt work) = .error e →
    ∃ t, exec .decode s = .next t ∧ s.sameAround t ∧ t.phase = .idle ∧
      t.regs.endedWith (BitVec.ofNat 16 e.chan ++ BitVec.ofNat 8 e.sub ++ BitVec.ofNat 8 e.code.toNat)
        (BitVec.ofNat 32 e.info)
        (if e.code = .overflow then BitVec.ofNat 32 (min e.need (2 ^ 32 - 1)) else 0#32) ∧
      (∀ a, l.inSpan.has a = true → t.mem.read a = s.mem.read a) ∧
      (∀ a, l.outSpan.has a = false → t.mem.read a = s.mem.read a)) ∧
  (∀ (e : Source) (cap k : Nat) (p : Parse), parseUnits e cap k Parse.start = .ok p →
    (∀ x, parseUnit e cap p = .error x → parseAll e cap Parse.start = .error x) ∧
    (p.stage = .done → parseAll e cap Parse.start = .ok p)) ∧
  (∀ (e : Source) (cap : Nat) (p : Parse),
    (∀ want, p.stage = .tag want → parseUnit e cap p = expectTag e want p) ∧
    (∀ d n c : Nat, d = e.nat (p.pos + 4) 1 → n = e.nat (p.pos + 5) 4 → c = e.nat (p.pos + 9) 2 →
      p.stage = .body .ssaf → parseUnit e cap p =
        if e.len < p.pos + 4 then .error ⟨.truncated, 0, p.pos, 0xFFFF, 0⟩
        else if e.len < p.pos + 5 then .error ⟨.truncated, 0, p.pos + 4, 0xFFFF, 0⟩
        else if d ∉ [8, 16, 24, 32] then .error ⟨.unsupported, 0, d, 0xFFFF, 0⟩
        else if e.len < p.pos + 9 then .error ⟨.truncated, 0, p.pos + 5, 0xFFFF, 0⟩
        else if e.len < p.pos + 11 then .error ⟨.truncated, 0, p.pos + 9, 0xFFFF, 0⟩
        else if c = 0 then .error ⟨.unsupported, 1, 0, 0xFFFF, 0⟩
        else if cap < n * c * (d / 8) then .error ⟨.overflow, 0, 0, 0xFFFF, n * c * (d / 8)⟩
        else .ok { p with
          pos := p.pos + 11, stage := .tag .chan, rate := e.nat p.pos 4, depth := d, samples := n,
          channels := c, chan := 0 }) ∧
    (p.stage = .done → parseUnit e cap p = .ok p)) ∧
  (∀ (e : Source) (cap n : Nat) (p : Parse), n = e.nat p.pos 4 →
    (p.stage = .body .chan → parseUnit e cap p =
      if e.len < p.pos + 4 then .error ⟨.truncated, 1, p.pos, p.chan, 0⟩
      else .ok { p with pos := p.pos + 4, stage := .tag .zre, count := n }) ∧
    (p.stage = .body .zre → parseUnit e cap p =
      if e.len < p.pos + 4 then .error ⟨.truncated, 1, p.pos, p.chan, 0⟩
      else if e.len < p.pos + 4 + 8 * n then
        .error ⟨.truncated, 1, p.pos + 4 + 4 * ((e.len - (p.pos + 4)) / 4), p.chan, 0⟩
      else .ok { p with
        pos := p.pos + 4 + 8 * n, stage := .tag .rice,
        runs := (List.range n).map fun j => ⟨e.nat (p.pos + 4 + 8 * j) 4, e.nat (p.pos + 8 + 8 * j) 4⟩ }) ∧
    (p.stage = .body .rice → parseUnit e cap p =
      if e.len < p.pos + 4 then .error ⟨.truncated, 1, p.pos, p.chan, 0⟩
      else if e.len < p.pos + 4 + 4 * n then
        .error ⟨.truncated, 1, p.pos + 4 + 4 * ((e.len - (p.pos + 4)) / 4), p.chan, 0⟩
      else .ok { p with
        pos := p.pos + 4 + 4 * n, stage := .tag .data,
        params := (List.range n).map fun j => (BitVec.ofNat 32 (e.nat (p.pos + 4 + 4 * j) 4)).toInt })) ∧
  (∀ (e : Source) (cap : Nat) (p : Parse), p.stage = .body .data →
    (∀ x, riceDec e p.chan p.pos p.count p.params = .error x → parseUnit e cap p = .error x) ∧
    (∀ q t, riceDec e p.chan p.pos p.count p.params = .ok (q, t) →
      (∀ x, zreDec p.chan p.samples q p.runs = .error x → parseUnit e cap p = .error x) ∧
      (∀ r, zreDec p.chan p.samples q p.runs = .ok r →
        (∀ i, i < p.samples → sampleFits p.depth ((predDec r).getD i 0) = false →
          (∀ j, j < i → sampleFits p.depth ((predDec r).getD j 0) = true) →
          parseUnit e cap p = .error ⟨.range, 0, i, p.chan, 0⟩) ∧
        ((∀ i, i < p.samples → sampleFits p.depth ((predDec r).getD i 0) = true) →
          parseUnit e cap p = .ok { p with
            pos := p.pos + (t + 7) / 8
            stage := if p.chan + 1 < p.channels then .tag .chan else .done
            chan := p.chan + 1
            pcm := p.pcm ++ [predDec r] }))))

/-- DECODE reports the first header check that fails, in R336's order: TRUNCATED at the magic, FORMAT, TRUNCATED at
the rate and at the depth code, UNSUPPORTED for the depth code at once, TRUNCATED at the sample count and at the
channel count, UNSUPPORTED for a channel count of 0, OVERFLOW with the size needed; each outside any channel
(R276, R277, R304, R334). -/
def Obligations.DecodeChecksTheMagic : Prop :=
  ∀ (s : State) (l : Latched) (len : Nat) (field : Nat → Nat → Nat),
    s.phase = .busy l none → l.decodable → l.quietOn s.platform.busFaults → len = l.srcLen.toNat →
    field = (fun p w => s.mem.readNat (l.src.toNat + p) w) →
    (len < 4 → s.decodeEnds 0xFFFF0004#32 0#32 0#32) ∧
    (4 ≤ len → s.mem.readBytes l.src.toNat 4 ≠ [0x53#8, 0x53#8, 0x41#8, 0x46#8] →
      s.decodeEnds 0xFFFF0001#32 0#32 0#32) ∧
    (4 ≤ len → s.mem.readBytes l.src.toNat 4 = [0x53#8, 0x53#8, 0x41#8, 0x46#8] →
      (len < 8 → s.decodeEnds 0xFFFF0004#32 4#32 0#32) ∧
      (len = 8 → s.decodeEnds 0xFFFF0004#32 8#32 0#32) ∧
      (9 ≤ len → field 8 1 ∉ [8, 16, 24, 32] →
        s.decodeEnds 0xFFFF0003#32 (BitVec.ofNat 32 (field 8 1)) 0#32) ∧
      (9 ≤ len → field 8 1 ∈ [8, 16, 24, 32] →
        (len < 13 → s.decodeEnds 0xFFFF0004#32 9#32 0#32) ∧
        (13 ≤ len → len < 15 → s.decodeEnds 0xFFFF0004#32 13#32 0#32) ∧
        (15 ≤ len → field 13 2 = 0 → s.decodeEnds 0xFFFF0103#32 0#32 0#32) ∧
        (15 ≤ len → field 13 2 ≠ 0 → l.cap.toNat < field 9 4 * field 13 2 * (field 8 1 / 8) →
          s.decodeEnds 0xFFFF0006#32 0#32
            (BitVec.ofNat 32 (min (field 9 4 * field 13 2 * (field 8 1 / 8)) (2 ^ 32 - 1))))))

/-- On any platform, an ENCODE or a DECODE either ends as it would on one that marks no byte, or ends
with BUS; then the platform marks a byte of its ranges, and no byte outside them changes (R97, R340; what is
reported, and when, are free values: log entries 6 and 7). -/
def Obligations.BusErrorOrTheSameOutcome : Prop :=
  ∀ (s : State) (l : Latched) (i : Instr), s.phase = .busy l none → (i = .encode ∨ i = .decode) →
    ∃ t t0, exec i s = .next t ∧
      exec i { s with platform := { s.platform with busFaults := [] } } = .next t0 ∧
      ((t.regs = t0.regs ∧ t.mem = t0.mem) ∨
        (∃ chan sub info, t.regs.endedWith (chan ++ sub ++ 0x09#8) info 0#32 ∧ (sub = 0#8 ∨ sub = 1#8) ∧
          (i = .encode → chan = 0xFFFF#16 ∨ chan.toNat < l.channels.toNat) ∧
          hits s.platform.busFaults [l.inSpan, l.outSpan] = true ∧
          ∀ a, l.inSpan.has a = false → l.outSpan.has a = false → t.mem.read a = s.mem.read a))

/-! ### The container tags -/

/-- Each tag, met where the parser expects it, moves the parser past its four bytes and into its chunk, and
changes nothing else (R276, R278). That a tag is an instruction of the parser is the model's choice (log entry
18). -/
def Obligations.TagMetMovesTheParser : Prop :=
  ∀ (s : State) (l : Latched) (p : Parse), s.phase = .busy l (some p) →
    ∀ x ∈ [(Instr.tagSSAF, Tag.ssaf), (Instr.tagChan, Tag.chan), (Instr.tagZre, Tag.zre),
        (Instr.tagRice, Tag.rice), (Instr.tagData, Tag.data)],
      p.stage = .tag x.2 →
      exec x.1 s = .next { s with
        phase := .busy l (some { p with pos := p.pos + 4, stage := .body x.2 }) }

/-- A tag met where the parser expects another ends the DECODE with FORMAT: the expected tag's sub-cause, the
tag's offset, and the channel in hand (none for the magic) (R278, R334). That a tag is an instruction of the
parser, whose exec raises FORMAT however few bytes are left, is the model's choice (log entry 18). -/
def Obligations.OtherTagIsAFormatError : Prop :=
  ∀ (s : State) (l : Latched) (p : Parse) (i : Instr) (seen want : Tag), s.phase = .busy l (some p) →
    l.quietOn s.platform.busFaults → tagOf i = some seen → p.stage = .tag want → seen ≠ want →
    ∃ t, exec i s = .next t ∧ s.sameAround t ∧ t.phase = .idle ∧
      t.regs.endedWith
        (match want with
          | .ssaf => 0xFFFF0001#32
          | .chan => BitVec.ofNat 16 p.chan ++ 0x0101#16
          | .zre => BitVec.ofNat 16 p.chan ++ 0x0201#16
          | .rice => BitVec.ofNat 16 p.chan ++ 0x0301#16
          | .data => BitVec.ofNat 16 p.chan ++ 0x0401#16)
        (BitVec.ofNat 32 p.pos) 0#32 ∧
      (∀ a, l.outSpan.has a = false → t.mem.read a = s.mem.read a)

/-- R278: ExpectTag goes past a tag whose four bytes are exactly the expected ones, raises TRUNCATED where
fewer are left, and FORMAT otherwise, at the tag's offset. -/
def Obligations.ExpectTagIsExact : Prop :=
  ∀ (e : Source) (want : Tag) (p : Parse),
    expectTag e want p =
      if e.len < p.pos + 4 then
        .error ⟨.truncated, if want = .ssaf then 0 else 1, p.pos, if want = .ssaf then 0xFFFF else p.chan, 0⟩
      else if e.mem.readBytes (e.base + p.pos) 4 = tagBytes want then
        .ok { p with pos := p.pos + 4, stage := .body want }
      else
        .error ⟨.format, match want with | .ssaf => 0 | .chan => 1 | .zre => 2 | .rice => 3 | .data => 4,
          p.pos, if want = .ssaf then 0xFFFF else p.chan, 0⟩

/-! ### The machine as a whole -/

/-- The engine's progress inside a DECODE is unobservable: a turn that does not complete changes nothing but
the working state and leaves the outcome of the completion what it was; a turn that completes gives that
outcome (R56, R301). The turns are the model's (log entries 2 and 16). -/
def Obligations.DecodeProgressIsUnobservable : Prop :=
  ∀ (s : State) (l : Latched) (work : Option Parse) (rest : List Input),
    s.inputs = .advance :: rest → s.phase = .busy l work → l.op = 0x02#8 →
    ∃ t, step s = .next t ∧
      ((∃ p, t = { s with inputs := rest, phase := .busy l (some p) } ∧
          exec .decode t = exec .decode { s with inputs := rest }) ∨
        (t.phase = .idle ∧ exec .decode { s with inputs := rest } = .next t))

/-- R52: an ENCODE or DECODE reads only the latched operands: two machines that agree on the phase, memory,
platform and draws end it with the same memory, results and errors, whatever their registers hold. -/
def Obligations.CommandsReadOnlyLatchedOperands : Prop :=
  ∀ (s1 s2 : State) (l : Latched) (work : Option Parse) (i : Instr), (i = .encode ∨ i = .decode) →
    s1.phase = .busy l work → s2.phase = .busy l work → s1.mem = s2.mem → s1.platform = s2.platform →
    s1.draws = s2.draws →
    ∃ t1 t2, exec i s1 = .next t1 ∧ exec i s2 = .next t2 ∧ t1.mem = t2.mem ∧ t1.phase = t2.phase ∧
      t1.draws = t2.draws ∧ t1.regs.done = t2.regs.done ∧ t1.regs.err = t2.regs.err ∧
      t1.regs.errCode = t2.regs.errCode ∧ t1.regs.errInfo = t2.regs.errInfo ∧
      t1.regs.outLen = t2.regs.outLen ∧ t1.regs.inUsed = t2.regs.inUsed ∧
      t1.regs.resRate = t2.regs.resRate ∧ t1.regs.resDepth = t2.regs.resDepth ∧
      t1.regs.resChannels = t2.regs.resChannels ∧ t1.regs.resSamples = t2.regs.resSamples

/-- Every accepted command completes: whatever its opcode, and however many turns of progress come first, it
ends with DONE set and the engine idle (R301, R379). The finite delay is the model's list of turns (log entry
2). -/
def Obligations.EveryAcceptedCommandCompletes : Prop :=
  ∀ (s : State) (l : Latched) (work : Option Parse) (k : Nat), s.phase = .busy l work →
    s.inputs = List.replicate k .advance →
    ∃ t : State, Host.Core.run Sys2Proof.core (k + 1) s = .next t ∧ t.phase = .idle ∧ t.regs.done = true ∧
      t.inputs = []

/-- A host that makes defined accesses (R33, R80) and keeps off the running command's ranges (R91, R376) never
stops the machine: no fault, no refusal. What is defined and what is kept off are in part the model's choice: a
REG_BASE of any alignment and place (log entry 8), no range for a running NOP or illegal opcode (log entry 13), no
range met by a write of no byte (log entry 11), and the turns of the engine as inputs (log entry 2). -/
def Obligations.DutifulHostNeverStopsTheMachine : Prop :=
  ∀ s : State,
    (s.inputs = [] → ∃ t, step s = .next t) ∧
    (∀ i rest, s.inputs = i :: rest → dutiful s i = true → ∃ t, step s = .next t)

/-- R52 as an invariant: every step keeps the latched operands of a running command equal to the operand
registers. -/
def Obligations.LatchedOperandsStayEqualToRegisters : Prop :=
  ∀ s t : State, s.latchInv → step s = .next t → t.latchInv

/-- Every step keeps DONE, ERR, ERR_CODE and ERR_INFO at 0 while a command runs (R375). -/
def Obligations.BusyRegistersStayClear : Prop :=
  ∀ s t : State, s.busyInv → step s = .next t → t.busyInv

/-- Every step keeps ERR_CODE among the codes of the table, and 0 as a whole where its code is 0 (R332,
R40). -/
def Obligations.ErrorCodesStayLegal : Prop :=
  ∀ s t : State, s.errInv → step s = .next t → t.errInv

/-- Every step keeps the memory's canonical form, and a parser under way within its output range. The
form is the model's (log entries 3, 4 and 5). -/
def Obligations.MemoryKeepsItsForm : Prop :=
  ∀ s t : State, s.memInv → step s = .next t → t.memInv

/-- Every step keeps the registers at their reset values while reset is asserted. R370 and R371 give the
reset state after the release; that it stands while reset is asserted is the model's choice (log entry 14). -/
def Obligations.ResetKeepsTheResetState : Prop :=
  ∀ s t : State, s.resetInv → step s = .next t → t.resetInv

/-- The five invariants hold at reset. -/
def Obligations.InvariantsHoldAtReset : Prop :=
  State.reset.latchInv ∧ State.reset.busyInv ∧ State.reset.errInv ∧ State.reset.memInv ∧
  State.reset.resetInv

/-! ### The stages -/

/-- The order-independence law the spec infers from R170: the in-place pass gives, at each index, what its
condition on the original sequence says, and the filter is idempotent. -/
def Obligations.DitherOrderIndependence : Prop :=
  ∀ x : List Int,
    (ditherChannel x).length = x.length ∧
    (∀ i, i < x.length → (ditherChannel x).getD i 0 =
      if i = 0 then
        (if 2 ≤ x.length ∧ (x.getD 0 0).natAbs < 4 ∧ (x.getD 1 0).natAbs < 4 then 0 else x.getD 0 0)
      else if i + 2 ≤ x.length then
        (if x.getD i 0 = 0 ∨ ((x.getD (i - 1) 0).natAbs < 4 ∧ (x.getD i 0).natAbs < 4 ∧
            (x.getD (i + 1) 0).natAbs < 4) then 0 else x.getD i 0)
      else x.getD i 0) ∧
    ditherChannel (ditherChannel x) = ditherChannel x

/-- The inverse law the spec infers from R180 and R181: decoding the residuals of any sequence gives the
first two samples as they are and every later one modulo 2^16, read as signed. Each residual, and each
reconstructed sample, from index 2 on is the signed 16-bit value of R180's and R181's difference and sum. -/
def Obligations.PredictorInverse : Prop :=
  ∀ x : List Int,
    (predDec (predEnc x)).length = x.length ∧
    (∀ i, i < x.length → (predDec (predEnc x)).getD i 0 =
      if i < 2 then x.getD i 0 else Int.bmod (x.getD i 0) 65536) ∧
    ((∀ i, 2 ≤ i → i < x.length → fits16 (x.getD i 0)) → predDec (predEnc x) = x) ∧
    (∀ i, i < x.length → (predEnc x).getD i 0 = if i < 2 then x.getD i 0 else
      Int.bmod (x.getD i 0 - (2 * x.getD (i - 1) 0 - x.getD (i - 2) 0)) 65536) ∧
    (∀ i, i < x.length → (predDec x).getD i 0 = if i < 2 then x.getD i 0 else
      Int.bmod (2 * (predDec x).getD (i - 1) 0 - (predDec x).getD (i - 2) 0 + x.getD i 0) 65536)

/-- The properties the spec infers from R200: descriptors are maximal runs of at least ten zeros, strictly
ascending and apart; the compacted sequence holds no ten zeros in a row; the lengths add up; and descriptors
are few. -/
def Obligations.ZeroRunOutputProperties : Prop :=
  ∀ r : List Int,
    (∀ d ∈ (zreEnc r).2, 10 ≤ d.len ∧ d.start + d.len ≤ r.length ∧
      (∀ i, d.start ≤ i → i < d.start + d.len → r.getD i 1 = 0) ∧
      (0 < d.start → r.getD (d.start - 1) 0 ≠ 0) ∧
      (d.start + d.len < r.length → r.getD (d.start + d.len) 0 ≠ 0)) ∧
    (zreEnc r).2.Pairwise (fun x y => x.start + x.len < y.start) ∧
    ¬ List.replicate 10 (0 : Int) <:+: (zreEnc r).1 ∧
    (zreEnc r).1.length + ((zreEnc r).2.map (·.len)).sum = r.length ∧
    (zreEnc r).2.length ≤ (r.length + 1) / 11 ∧
    (r.length < 2 ^ 32 → (zreEnc r).1.length < 2 ^ 32 ∧
      ∀ d ∈ (zreEnc r).2, d.start < 2 ^ 32 ∧ d.len < 2 ^ 32)

/-- The inverse law the spec infers from R200 and R203: the zero-run decoder gives back every sequence from its
compacted sequence and descriptors. On any compacted sequence and descriptors the decoder raises what R203's
first failing check raises: INCONSISTENT sub 2, 3 or 4 at the first descriptor out of place, sub 4 at the end
where the lengths do not add up to S; and where none fails it answers S values, zero in every run and the
compacted values in order elsewhere. -/
def Obligations.ZeroRunInverse : Prop :=
  (∀ (r : List Int) (c : Nat), zreDec c r.length (zreEnc r).1 (zreEnc r).2 = .ok r) ∧
  (∀ (c n : Nat) (q : List Int) (ds : List Run),
    (∀ j, j < ds.length → (∀ i, i < j → runPlaced ds q.length n i) →
      ((runAt ds j).start < runsEnd ds j → zreDec c n q ds = .error ⟨.inconsistent, 2, j, c, 0⟩) ∧
      (runsEnd ds j ≤ (runAt ds j).start → q.length + runsTotal ds j < (runAt ds j).start →
        zreDec c n q ds = .error ⟨.inconsistent, 3, j, c, 0⟩) ∧
      (runsEnd ds j ≤ (runAt ds j).start → (runAt ds j).start ≤ q.length + runsTotal ds j →
        n < (runAt ds j).start + (runAt ds j).len → zreDec c n q ds = .error ⟨.inconsistent, 4, j, c, 0⟩)) ∧
    ((∀ j, j < ds.length → runPlaced ds q.length n j) →
      (q.length + runsTotal ds ds.length ≠ n → zreDec c n q ds = .error ⟨.inconsistent, 4, ds.length, c, 0⟩) ∧
      (q.length + runsTotal ds ds.length = n → ∃ out, zreDec c n q ds = .ok out ∧ out.length = n ∧
        (∀ j i, j < ds.length → (runAt ds j).start ≤ i → i < (runAt ds j).start + (runAt ds j).len →
          out.getD i 1 = 0) ∧
        (∀ j i, j ≤ ds.length → runsEnd ds j ≤ i → (i < if j < ds.length then (runAt ds j).start else n) →
          out.getD i 0 = q.getD (i - runsTotal ds j) 0))))

/-- R201: a run of at most nine zeros is emitted literally; a run of ten or more becomes one descriptor and no
literal zero. The run may stand anywhere in the sequence. -/
def Obligations.ZeroRunThreshold : Prop :=
  ∀ (u w : List Int) (n : Nat), (∀ v ∈ u ++ w, v ≠ 0) →
    zreEnc (u ++ (List.replicate n 0 ++ w)) =
      if n ≤ 9 then (u ++ (List.replicate n 0 ++ w), []) else (u ++ w, [⟨u.length, n⟩])

/-- The zig-zag law, which the spec infers from R221 and R222: the map takes the signed 16-bit values one to
one onto 0 to 65535 in order of magnitude, and its inverse undoes it there and on no other 32-bit value. -/
def Obligations.ZigzagInverse : Prop :=
  (∀ v : Int, fits16 v → unzigzag (zigzag v) = v ∧ zigzag v ≤ 65535 ∧
    (zigzag v : Int) = if 0 ≤ v then 2 * v else -2 * v - 1) ∧
  (∀ z : Nat, z ≤ 65535 → fits16 (unzigzag z) ∧ zigzag (unzigzag z) = z) ∧
  (∀ v : Int, -2147483648 ≤ v → v ≤ 2147483647 → ¬ fits16 v → unzigzag (zigzag v) ≠ v)

/-- R223: the parameter is the floor of the logarithm of the real mean plus one, at most 32 for 32-bit values
and at most 16 for values of 16-bit residuals. -/
def Obligations.ParameterIsFloorLog : Prop :=
  ∀ zs : List Nat, zs ≠ [] →
    2 ^ kSel zs * zs.length ≤ zs.sum + zs.length ∧ zs.sum + zs.length < 2 ^ (kSel zs + 1) * zs.length ∧
    ((∀ z ∈ zs, z < 2 ^ 32) → kSel zs ≤ 32) ∧ ((∀ z ∈ zs, z ≤ 65535) → kSel zs ≤ 16)

/-- The code length the spec infers from R223 and R224: a block's bit count is the sum of its codewords'
lengths and less than k + 3 bits a value, and a channel's is the sum over its blocks. A channel's blocks are its
values by 4096, and its parameters are those R223 selects for each block's zig-zag values (R220, R225). -/
def Obligations.CodeLengthBound : Prop :=
  (∀ b : List Int, b ≠ [] →
    (blockBits b).length = ((b.map zigzag).map (fun z => z / 2 ^ blockParam b + 1 + blockParam b)).sum ∧
    ((b.map zigzag).map (fun z => z / 2 ^ blockParam b)).sum < 2 * b.length ∧
    (blockBits b).length < b.length * (blockParam b + 3)) ∧
  (∀ q : List Int, (riceBits q).length = ((blocksOf q).map (fun b => (blockBits b).length)).sum ∧
    (blocksOf q).length = (q.length + 4095) / 4096 ∧
    (∀ j, j < (q.length + 4095) / 4096 → (blocksOf q).getD j [] = (q.drop (4096 * j)).take 4096 ∧
      (riceParams q).getD j 0 = kSel (((q.drop (4096 * j)).take 4096).map zigzag)))

/-- The inverse law the spec infers from R221 to R227: a reader that meets the bits of a compacted sequence,
whatever follows, gives back every value through the zig-zag map and its inverse, so every 16-bit value as it
was, and reads exactly those bits. On any input the decoder raises INCONSISTENT sub 0 for a wrong parameter
count, and then goes value by value: INCONSISTENT sub 1 for a parameter outside 0 to 32 where its block begins,
the reader's TRUNCATED sub 2 where a bit of the next codeword is missing, and else one value more (R227, R251). -/
def Obligations.RiceInverse : Prop :=
  (∀ (q : List Int) (e : Source) (c p0 : Nat),
    (∀ i, (h : i < (riceBits q).length) → readBit e c p0 i = .ok (riceBits q)[i]) →
    riceDec e c p0 q.length ((riceParams q).map Int.ofNat) =
      .ok (q.map (fun v => unzigzag (zigzag v)), (riceBits q).length) ∧
    ((∀ v ∈ q, fits16 v) → q.map (fun v => unzigzag (zigzag v)) = q)) ∧
  (∀ (e : Source) (c p0 t : Nat), readBit e c p0 t =
    if e.len ≤ p0 + t / 8 then .error ⟨.truncated, 2, e.len, c, 0⟩
    else .ok ((e.byte (p0 + t / 8)).getLsbD (7 - t % 8))) ∧
  (∀ (e : Source) (c p0 n : Nat) (ks : List Int),
    (ks.length ≠ (n + 4095) / 4096 → riceDec e c p0 n ks = .error ⟨.inconsistent, 0, ks.length, c, 0⟩) ∧
    (n = 0 → ks = [] → riceDec e c p0 n ks = .ok ([], 0)) ∧
    (∀ (i t : Nat) (q : List Int) (k : Int), ks.length = (n + 4095) / 4096 → i < n →
      riceDec e c p0 i (ks.take ((i + 4095) / 4096)) = .ok (q, t) → ks[i / 4096]? = some k →
      (k < 0 ∨ 32 < k → riceDec e c p0 n ks = .error ⟨.inconsistent, 1, i / 4096, c, 0⟩) ∧
      (0 ≤ k → k ≤ 32 → ∀ u, (∀ x, x < u → readBit e c p0 (t + x) = .ok true) →
        (∀ x, readBit e c p0 (t + u) = .error x → riceDec e c p0 n ks = .error x) ∧
        (readBit e c p0 (t + u) = .ok false → ∀ bs : List Bool,
          (∀ x, (h : x < bs.length) → readBit e c p0 (t + u + 1 + x) = .ok bs[x]) →
          ((bs.length : Int) < k → ∀ x, readBit e c p0 (t + u + 1 + bs.length) = .error x →
            riceDec e c p0 n ks = .error x) ∧
          ((bs.length : Int) = k →
            riceDec e c p0 (i + 1) (ks.take (i / 4096 + 1)) =
              .ok (q ++ [unzigzag ((u * 2 ^ bs.length + bs.foldl (fun r b => 2 * r + b.toNat) 0) % 2 ^ 32)],
                t + u + 1 + bs.length))))))

/-- R250: the packed bytes are as many as eight-bit groups, hold the bits most significant first, and are
padded with zeros. -/
def Obligations.PackedBitsAreMsbFirst : Prop :=
  ∀ bits : List Bool,
    (pack bits).length = (bits.length + 7) / 8 ∧
    ∀ m t, m < (bits.length + 7) / 8 → t < 8 →
      ((pack bits).getD m 0#8).getLsbD (7 - t) = bits.getD (8 * m + t) false

/-- R253: what the Rice decoder gives depends on the bits it read and on no later bit, padding bits included;
and the packer writes the padding bits as 0. -/
def Obligations.PaddingBitsAreIgnored : Prop :=
  (∀ (e e' : Source) (c p0 n t : Nat) (ks q : List Int), riceDec e c p0 n ks = .ok (q, t) →
    (∀ i, i < t → readBit e' c p0 i = readBit e c p0 i) → riceDec e' c p0 n ks = .ok (q, t)) ∧
  (∀ (bits : List Bool) (m t : Nat), m < (pack bits).length → t < 8 → bits.length ≤ 8 * m + t →
    ((pack bits).getD m 0#8).getLsbD (7 - t) = false)

/-- The length of a container, which the spec infers from R116 to R120; and its bytes, the header and each
channel's four chunks in order (R270 to R275), each field little-endian. -/
def Obligations.ContainerLength : Prop :=
  (∀ (xs : List (List Int)) (rate d n : Nat),
    (containerBytes xs rate d xs.length n).length =
      15 + (xs.map (fun x =>
        28 + 8 * (zreEnc (predEnc x)).2.length + 4 * (((zreEnc (predEnc x)).1.length + 4095) / 4096) +
          ((riceBits (zreEnc (predEnc x)).1).length + 7) / 8)).sum) ∧
  (∀ (xs : List (List Int)) (rate d c n : Nat),
    containerBytes xs rate d c n =
      [0x53#8, 0x53#8, 0x41#8, 0x46#8] ++ leBytes 4 rate ++ leBytes 1 d ++ leBytes 4 n ++ leBytes 2 c ++
      (xs.map (fun x =>
        [0x63#8, 0x68#8, 0x61#8, 0x6E#8] ++ leBytes 4 (zreEnc (predEnc x)).1.length ++
        [0x7A#8, 0x72#8, 0x65#8, 0x20#8] ++ leBytes 4 (zreEnc (predEnc x)).2.length ++
        ((zreEnc (predEnc x)).2.map (fun r => leBytes 4 r.start ++ leBytes 4 r.len)).flatten ++
        [0x72#8, 0x69#8, 0x63#8, 0x65#8] ++ leBytes 4 (riceParams (zreEnc (predEnc x)).1).length ++
        ((riceParams (zreEnc (predEnc x)).1).map (leBytes 4)).flatten ++
        [0x64#8, 0x61#8, 0x74#8, 0x61#8] ++ pack (riceBits (zreEnc (predEnc x)).1))).flatten) ∧
  (∀ w v : Nat, leBytes w v = (List.range w).map (fun i => BitVec.ofNat 8 (v / 256 ^ i)))

/-- R282: the bytes of the input range after the container's end do not change the result. -/
def Obligations.TrailingBytesAreIgnored : Prop :=
  ∀ (e e' : Source) (cap : Nat) (p : Parse), parseAll e cap Parse.start = .ok p →
    (∀ i, i < p.pos → e'.byte i = e.byte i) → p.pos ≤ e'.len → parseAll e' cap Parse.start = .ok p

/-- R154: WriteSample of a value in the depth's range stores it little-endian in two's complement and touches no
other byte; of any other value it raises RANGE. ReadSample finds the value again (R153), at depth 24 by R153's
pseudocode and against its corner case (log entry 23). Samples stand interleaved, at the address the spec infers
in R151; and a number in memory is its bytes, the lowest first (R13, R82). -/
def Obligations.SampleWriteThenRead : Prop :=
  (∀ (m : Memory) (y : Layout) (n c : Nat) (v : Int), y.depth ∈ [8, 16, 24, 32] →
    (-(2 : Int) ^ (y.depth - 1) ≤ v ∧ v ≤ (2 : Int) ^ (y.depth - 1) - 1 →
      ∃ m', writeSample m y n c v = .ok m' ∧ readSample m' y n c = v ∧
        (m'.readNat (y.addr n c) (y.depth / 8) : Int) = v % (2 : Int) ^ y.depth ∧
        ∀ a, a < y.addr n c ∨ y.addr n c + y.depth / 8 ≤ a → m'.read a = m.read a) ∧
    (v < -(2 : Int) ^ (y.depth - 1) ∨ (2 : Int) ^ (y.depth - 1) - 1 < v →
      writeSample m y n c v = .error ⟨.range, 0, n, c, 0⟩)) ∧
  (∀ (y : Layout) (n c : Nat), y.addr n c = y.base + (n * y.channels + c) * (y.depth / 8)) ∧
  (∀ (m : Memory) (a w : Nat), m.readNat a w =
    ((List.range w).map (fun i => (m.read (a + i)).toNat * 256 ^ i)).sum)

/-- The round trip the spec infers from R270 and R276: DECODE of the container an ENCODE wrote, into a range
of at least SRC_LEN bytes, completes without error, reports the encode's rate, depth, channels and samples,
and gives each channel as the predictor's inverse of its residuals taken through the zig-zag map and back;
that is the encoded channel exactly where all its samples are 16-bit values, and at depths 8 and 16 the
bytes are the input's. Samples are read, at depth 24, by R153's pseudocode and against its corner case (log entry 23). -/
def Obligations.RoundTrip : Prop :=
  ∀ (s1 s2 t1 : State) (l1 l2 : Latched) (w1 : Option Parse),
    s1.phase = .busy l1 w1 → s2.phase = .busy l2 none → l1.encodable →
    exec .encode s1 = .next t1 → t1.regs.err = false →
    l2.decodable → l2.quietOn s2.platform.busFaults →
    (∀ i, i < t1.regs.outLen.toNat → s2.mem.read (l2.src.toNat + i) = t1.mem.read (l1.dst.toNat + i)) →
    t1.regs.outLen.toNat ≤ l2.srcLen.toNat → l1.srcLen.toNat ≤ l2.cap.toNat →
    ∃ t2, exec .decode s2 = .next t2 ∧ t2.phase = .idle ∧ t2.regs.endedWell ∧
      t2.regs.outLen = l1.srcLen ∧ t2.regs.inUsed = t1.regs.outLen ∧
      t2.regs.resRate = l1.rate ∧ t2.regs.resDepth = l1.depth ∧ t2.regs.resChannels = l1.channels ∧
      t2.regs.resSamples = t1.regs.resSamples ∧
      readChannels t2.mem ⟨l2.dst.toNat, l1.channels.toNat, l1.depth.toNat⟩ l1.samples =
        (encodeSamples l1 s1.mem).map
          (fun x => predDec ((predEnc x).map (fun v => unzigzag (zigzag v)))) ∧
      (∀ x ∈ encodeSamples l1 s1.mem,
        predDec ((predEnc x).map (fun v => unzigzag (zigzag v))) = x ↔ ∀ v ∈ x, fits16 v) ∧
      ((l1.depth = 8#8 ∨ l1.depth = 16#8) → encodeSamples l1 s1.mem = encodeInput l1 s1.mem →
        t2.mem.readBytes l2.dst.toNat l1.srcLen.toNat = s1.mem.readBytes l1.src.toNat l1.srcLen.toNat)
end

