-- ==== Sys2Proof/Laws/Memory.lean ====
section
/-! SUPPORT. What each memory operation does, read byte by byte, and that each keeps the canonical form. -/

namespace Sys2Proof.Machine

/-! ### Cells -/

theorem findCell_append (xs ys : List Host.Cell) (a : Nat) :
    findCell (xs ++ ys) a = (findCell xs a).or (findCell ys a) := by
  induction xs with
  | nil => simp [findCell]
  | cons c cs ih => by_cases h : c.1 = a <;> simp [findCell, h, ih]

theorem findCell_cellsBelow (cs : List Host.Cell) (lo a : Nat) :
    findCell (cellsBelow cs lo) a = if a < lo then findCell cs a else none := by
  induction cs with
  | nil => simp [cellsBelow, findCell]
  | cons c cs ih =>
    simp only [cellsBelow] at ih ⊢
    by_cases h : c.1 < lo <;> by_cases h2 : c.1 = a
    · subst h2; simp [findCell, h]
    · simp [findCell, h, h2, ih]
    · subst h2; simpa [findCell, h] using ih
    · simp [findCell, h, h2, ih]

theorem findCell_cellsFrom (cs : List Host.Cell) (hi a : Nat) :
    findCell (cellsFrom cs hi) a = if hi ≤ a then findCell cs a else none := by
  induction cs with
  | nil => simp [cellsFrom, findCell]
  | cons c cs ih =>
    simp only [cellsFrom] at ih ⊢
    by_cases h : hi ≤ c.1 <;> by_cases h2 : c.1 = a
    · subst h2; simp [findCell, h]
    · simp [findCell, h, h2, ih]
    · subst h2; simpa [findCell, h] using ih
    · simp [findCell, h, h2, ih]

theorem findCell_cellsAt (bs : List Byte) (a x : Nat) :
    findCell (cellsAt a bs) x = if a ≤ x then bs[x - a]? else none := by
  induction bs generalizing a with
  | nil => simp [cellsAt, findCell]
  | cons b bs ih =>
    simp only [cellsAt, findCell, ih]
    by_cases h : a = x
    · subst h; simp
    · by_cases h2 : a ≤ x
      · have : x - a = (x - (a + 1)) + 1 := by omega
        simp [h, h2, this, show a + 1 ≤ x by omega]
      · simp [h, h2, show ¬ a + 1 ≤ x by omega]

/-! ### Reading after writing -/

/-- Every byte after a write: the one written, inside the write; else what was there. -/
theorem read_writeBytes (m : Memory) (a : Nat) (bs : List Byte) (x : Nat) :
    (m.writeBytes a bs).read x =
      if a ≤ x ∧ x < a + bs.length then bs.getD (x - a) 0#8 else m.read x := by
  simp only [Memory.writeBytes, Memory.read, findCell_append, findCell_cellsBelow, findCell_cellsAt,
    findCell_cellsFrom, unlisted]
  by_cases h : a ≤ x
  · by_cases h2 : x < a + bs.length
    · have h3 : x - a < bs.length := by omega
      simp [h, h2, show ¬ x < a by omega, List.getElem?_eq_getElem h3]
    · have h3 : bs.length ≤ x - a := by omega
      simp [h, h2, show ¬ x < a by omega, List.getElem?_eq_none h3, show a + bs.length ≤ x by omega]
  · cases findCell m.cells x <;>
      simp [h, show x < a by omega, show ¬ a + bs.length ≤ x by omega]

theorem read_writeBytes_of_outside (m : Memory) (a : Nat) (bs : List Byte) (x : Nat)
    (h : x < a ∨ a + bs.length ≤ x) : (m.writeBytes a bs).read x = m.read x := by
  rw [read_writeBytes, if_neg (by omega)]

theorem read_writeBytes_of_inside (m : Memory) (a : Nat) (bs : List Byte) (i : Nat) (h : i < bs.length) :
    (m.writeBytes a bs).read (a + i) = bs[i] := by
  rw [read_writeBytes, if_pos (by omega)]
  simp [h]

@[simp] theorem writeBytes_free (m : Memory) (a : Nat) (bs : List Byte) : (m.writeBytes a bs).free = m.free := rfl

theorem read_writeBytes_nil (m : Memory) (a x : Nat) : (m.writeBytes a []).read x = m.read x :=
  read_writeBytes_of_outside m a [] x (by simp; omega)

/-! ### Reading bytes -/

theorem readBytes_length (m : Memory) (a n : Nat) : (m.readBytes a n).length = n := by
  induction n generalizing a with
  | zero => rfl
  | succ n ih => simp [Memory.readBytes, ih]

theorem readBytes_getElem (m : Memory) (a n i : Nat) (h : i < (m.readBytes a n).length) :
    (m.readBytes a n)[i] = m.read (a + i) := by
  induction n generalizing a i with
  | zero => simp [Memory.readBytes] at h
  | succ n ih =>
    cases i with
    | zero => simp [Memory.readBytes]
    | succ i => simp [Memory.readBytes, ih, Nat.add_assoc, Nat.add_comm 1 i]

theorem readBytes_congr (m m' : Memory) (a n : Nat) (h : ∀ i < n, m.read (a + i) = m'.read (a + i)) :
    m.readBytes a n = m'.readBytes a n := by
  apply List.ext_getElem
  · simp [readBytes_length]
  · intro i h1 h2
    rw [readBytes_getElem, readBytes_getElem]
    exact h i (by simpa [readBytes_length] using h1)

/-- Reading back all that was written. -/
theorem readBytes_writeBytes (m : Memory) (a : Nat) (bs : List Byte) :
    (m.writeBytes a bs).readBytes a bs.length = bs := by
  apply List.ext_getElem
  · simp [readBytes_length]
  · intro i h1 h2
    rw [readBytes_getElem, read_writeBytes_of_inside m a bs i h2]

/-! ### Unspecified ranges -/

theorem findSpan_append (xs ys : List FreeSpan) (a : Nat) :
    findSpan (xs ++ ys) a = (findSpan xs a).or (findSpan ys a) := by
  induction xs with
  | nil => simp [findSpan]
  | cons f fs ih => by_cases h : f.lo ≤ a ∧ a < f.hi <;> simp [findSpan, h, ih]

/-- Which draw holds an address after a range is cut out of one span. -/
theorem findSpan_cut (lo hi a : Nat) (f : FreeSpan) (h : lo < hi) :
    (findSpan (f.cut lo hi) a).map (·.draw) =
      if (f.lo ≤ a ∧ a < f.hi) ∧ ¬(lo ≤ a ∧ a < hi) then some f.draw else none := by
  simp only [FreeSpan.cut]
  by_cases h1 : f.lo < min f.hi lo <;> by_cases h2 : max f.lo hi < f.hi <;>
    simp only [h1, h2, if_true, if_false, List.nil_append, List.append_nil, List.cons_append, findSpan]
  all_goals split_ifs <;> simp <;> omega

theorem findSpan_flatMap_cut (lo hi a : Nat) (fs : List FreeSpan) (h : lo < hi) :
    (findSpan (fs.flatMap (FreeSpan.cut lo hi)) a).map (·.draw) =
      if lo ≤ a ∧ a < hi then none else (findSpan fs a).map (·.draw) := by
  induction fs with
  | nil => simp [findSpan]
  | cons f fs ih =>
    have hc := findSpan_cut lo hi a f h
    simp only [List.flatMap_cons, findSpan_append, findSpan]
    by_cases ha : lo ≤ a ∧ a < hi
    · rw [if_pos ha] at ih ⊢
      rw [if_neg (by tauto)] at hc
      simp only [Option.map_eq_none_iff] at ih hc ⊢
      simp [ih, hc]
    · rw [if_neg ha] at ih ⊢
      by_cases hf : f.lo ≤ a ∧ a < f.hi
      · rw [if_pos ⟨hf, ha⟩] at hc
        rw [if_pos hf]
        obtain ⟨g, hg, hd⟩ := Option.map_eq_some_iff.mp hc
        simp [hg, hd]
      · rw [if_neg (by tauto)] at hc
        rw [if_neg hf, ← ih]
        simp only [Option.map_eq_none_iff] at hc
        simp [hc]

/-- Every byte after a range became unspecified: the draw's, inside the range; else what was there. -/
theorem read_havoc (m : Memory) (sp : Span) (d a : Nat) :
    (m.havoc sp d).read a =
      if sp.lo ≤ a ∧ a < min (sp.lo + sp.len) Config.addrTop then Config.freeByte d a else m.read a := by
  simp only [Memory.havoc]
  by_cases h : sp.lo < min (sp.lo + sp.len) Config.addrTop
  · rw [if_pos h]
    have hs := findSpan_flatMap_cut sp.lo (min (sp.lo + sp.len) Config.addrTop) a m.free h
    simp only [Memory.read, unlisted, findCell_append, findCell_cellsBelow, findCell_cellsFrom, findSpan]
    by_cases ha : sp.lo ≤ a ∧ a < min (sp.lo + sp.len) Config.addrTop
    · simp only [ha, if_true, and_self]
      rw [if_neg (by omega), if_neg (by omega)]
      simp
    · rw [if_neg ha] at hs
      simp only [ha, if_false]
      have hcell : ((if a < sp.lo then findCell m.cells a else none).or
          (if min (sp.lo + sp.len) Config.addrTop ≤ a then findCell m.cells a else none)) =
          findCell m.cells a := by
        by_cases hl : a < sp.lo
        · rw [if_pos hl, if_neg (by omega)]; simp
        · rw [if_neg hl, if_pos (by omega)]; simp
      rw [hcell]
      cases findCell m.cells a with
      | some b => rfl
      | none =>
        revert hs
        cases findSpan m.free a <;>
          cases findSpan (m.free.flatMap (FreeSpan.cut sp.lo (min (sp.lo + sp.len) Config.addrTop))) a <;>
          simp +contextual
  · rw [if_neg h, if_neg (by omega)]

theorem read_havoc_of_outside (m : Memory) (sp : Span) (d a : Nat) (h : sp.has a = false) :
    (m.havoc sp d).read a = m.read a := by
  rw [read_havoc, if_neg]
  simp [Span.has] at h
  omega

/-! ### The canonical form -/

theorem mem_cellsAt {a : Nat} {bs : List Byte} {c : Host.Cell} (h : c ∈ cellsAt a bs) :
    a ≤ c.1 ∧ c.1 < a + bs.length := by
  induction bs generalizing a with
  | nil => simp [cellsAt] at h
  | cons b bs ih =>
    simp only [cellsAt, List.mem_cons] at h
    rcases h with rfl | h
    · simp
    · have := ih h
      simp only [List.length_cons]
      omega

theorem cellsAt_rise (a : Nat) (bs : List Byte) : (cellsAt a bs).Pairwise (fun x y => x.1 < y.1) := by
  induction bs generalizing a with
  | nil => simp [cellsAt]
  | cons b bs ih =>
    simp only [cellsAt, List.pairwise_cons]
    exact ⟨fun c hc => by have := mem_cellsAt hc; simp; omega, ih (a + 1)⟩

/-- A write inside the address space keeps the canonical form. -/
theorem writeBytes_wf (m : Memory) (a : Nat) (bs : List Byte) (h : m.wf)
    (hin : a + bs.length ≤ Config.addrTop) : (m.writeBytes a bs).wf := by
  obtain ⟨h1, h2, h3, h4⟩ := h
  refine ⟨?_, ?_, h3, h4⟩
  · simp only [Memory.writeBytes, List.pairwise_append]
    refine ⟨h1.filter _, ⟨cellsAt_rise a bs, h1.filter _, ?_⟩, ?_⟩
    · intro x hx y hy
      have := mem_cellsAt hx
      simp only [cellsFrom, List.mem_filter, decide_eq_true_eq] at hy
      omega
    · intro x hx y hy
      simp only [cellsBelow, List.mem_filter, decide_eq_true_eq] at hx
      rcases List.mem_append.mp hy with hy | hy
      · have := mem_cellsAt hy; omega
      · simp only [cellsFrom, List.mem_filter, decide_eq_true_eq] at hy; omega
  · intro c hc
    simp only [Memory.writeBytes, List.mem_append, cellsBelow, cellsFrom, List.mem_filter] at hc
    rcases hc with hc | hc | hc
    · exact h2 c hc.1
    · have := mem_cellsAt hc; omega
    · exact h2 c hc.1

theorem cut_mem {lo hi : Nat} {f g : FreeSpan} (h : g ∈ f.cut lo hi) :
    g.draw = f.draw ∧ f.lo ≤ g.lo ∧ g.hi ≤ f.hi ∧ g.lo < g.hi ∧ (g.hi ≤ lo ∨ hi ≤ g.lo) := by
  simp only [FreeSpan.cut, List.mem_append] at h
  rcases h with h | h
  · split_ifs at h with h1
    · simp only [List.mem_singleton] at h; subst h; simp; omega
    · simp at h
  · split_ifs at h with h1
    · simp only [List.mem_singleton] at h; subst h; simp; omega
    · simp at h

theorem cut_before (lo hi : Nat) (f : FreeSpan) (h : lo < hi) :
    (f.cut lo hi).Pairwise FreeSpan.before := by
  simp only [FreeSpan.cut]
  split_ifs <;> simp [FreeSpan.before]
  omega

/-- Leaving a range unspecified by a draw newer than all before keeps the canonical form. -/
theorem havoc_wf (m : Memory) (sp : Span) (d : Nat) (h : m.wf) (hd : ∀ f ∈ m.free, f.draw < d) :
    (m.havoc sp d).wf := by
  obtain ⟨h1, h2, h3, h4⟩ := h
  simp only [Memory.havoc]
  split_ifs with hlh
  swap
  · exact ⟨h1, h2, h3, h4⟩
  refine ⟨?_, ?_, ?_, ?_⟩
  · simp only [List.pairwise_append]
    refine ⟨h1.filter _, h1.filter _, ?_⟩
    intro x hx y hy
    simp only [cellsBelow, cellsFrom, List.mem_filter, decide_eq_true_eq] at hx hy
    omega
  · intro c hc
    simp only [List.mem_append, cellsBelow, cellsFrom, List.mem_filter] at hc
    rcases hc with hc | hc <;> exact h2 c hc.1
  · rw [List.pairwise_cons]
    constructor
    · intro g hg
      obtain ⟨f, hf, hgf⟩ := List.mem_flatMap.mp hg
      have := cut_mem hgf
      have := hd f hf
      simp only [FreeSpan.before]
      omega
    · rw [List.pairwise_flatMap]
      refine ⟨fun f _ => cut_before _ _ f hlh, h3.imp ?_⟩
      intro f g hfg x hx y hy
      have := cut_mem hx
      have := cut_mem hy
      simp only [FreeSpan.before] at hfg ⊢
      omega
  · intro g hg
    rcases List.mem_cons.mp hg with rfl | hg
    · exact ⟨hlh, by simp⟩
    · obtain ⟨f, hf, hgf⟩ := List.mem_flatMap.mp hg
      have := cut_mem hgf
      have := h4 f hf
      omega

theorem havoc_draws (m : Memory) (sp : Span) (d n : Nat) (hd : ∀ f ∈ m.free, f.draw < n) (hn : d < n) :
    ∀ f ∈ (m.havoc sp d).free, f.draw < n := by
  intro g hg
  simp only [Memory.havoc] at hg
  split_ifs at hg with hlh
  · rcases List.mem_cons.mp hg with rfl | hg
    · exact hn
    · obtain ⟨f, hf, hgf⟩ := List.mem_flatMap.mp hg
      have := cut_mem hgf
      have := hd f hf
      omega
  · exact hd g hg

theorem havocAll_draws (m : Memory) (d n : Nat) (sps : List Span) (hd : ∀ f ∈ m.free, f.draw < n)
    (hn : d + sps.length ≤ n) : ∀ f ∈ (m.havocAll d sps).free, f.draw < n := by
  induction sps generalizing m d with
  | nil => exact hd
  | cons sp rest ih =>
    simp only [List.length_cons] at hn
    exact ih (m.havoc sp d) (d + 1) (havoc_draws m sp d n hd (by omega)) (by omega)

theorem havocAll_wf (m : Memory) (d : Nat) (sps : List Span) (h : m.wf) (hd : ∀ f ∈ m.free, f.draw < d) :
    (m.havocAll d sps).wf := by
  induction sps generalizing m d with
  | nil => exact h
  | cons sp rest ih =>
    refine ih (m.havoc sp d) (d + 1) (havoc_wf m sp d h hd) ?_
    exact havoc_draws m sp d (d + 1) (fun f hf => Nat.lt_succ_of_lt (hd f hf)) (Nat.lt_succ_self d)

/-- The memory of `State.reset` has the canonical form. -/
theorem powerOn_wf : Memory.powerOn.wf := by decide

end Sys2Proof.Machine
end

