-- ==== Sys2Proof/Laws/Samples.lean ====
section
/-! SUPPORT. What the sample stores do to memory: little-endian numbers, one sample, one channel, all
channels, and the dither filter's write-back. Each says which bytes it leaves and that it keeps the
canonical form. -/

namespace Sys2Proof.Machine

/-! ### Little-endian numbers -/

@[simp] theorem leBytes_length (w v : Nat) : (leBytes w v).length = w := by
  induction w generalizing v with
  | zero => rfl
  | succ w ih => simp [leBytes, ih]

/-- A number written little-endian in `w` bytes reads back modulo 256^w. -/
theorem leNat_leBytes (w v : Nat) : leNat (leBytes w v) = v % 256 ^ w := by
  induction w generalizing v with
  | zero => simp [leBytes, leNat, Nat.mod_one]
  | succ w ih =>
    simp only [leBytes, leNat, ih, BitVec.toNat_ofNat]
    rw [show (256 : Nat) ^ (w + 1) = 256 * 256 ^ w from pow_succ' 256 w, Nat.mod_mul (a := 256)]

theorem leNat_lt (bs : List Byte) : leNat bs < 256 ^ bs.length := by
  induction bs with
  | nil => simp [leNat]
  | cons b bs ih =>
    simp only [leNat, List.length_cons, pow_succ]
    have := b.isLt
    omega

theorem readNat_congr (m m' : Memory) (a n : Nat) (h : ∀ i < n, m.read (a + i) = m'.read (a + i)) :
    m.readNat a n = m'.readNat a n := by
  simp only [Memory.readNat, readBytes_congr m m' a n h]

/-- A number written little-endian is the number read there. -/
theorem readNat_writeBytes_leBytes (m : Memory) (a w v : Nat) :
    (m.writeBytes a (leBytes w v)).readNat a w = v % 256 ^ w := by
  have h := readBytes_writeBytes m a (leBytes w v)
  rw [leBytes_length] at h
  rw [Memory.readNat, h, leNat_leBytes]

/-! ### One sample -/

@[simp] theorem sampleBytes_length (d : Nat) (v : Int) : (sampleBytes d v).length = bps d := leBytes_length _ _

/-- Storing a sample leaves every byte outside its own. -/
theorem read_storeSample_of_outside (m : Memory) (y : Layout) (s c : Nat) (v : Int) (a : Nat)
    (h : a < y.addr s c ∨ y.addr s c + bps y.depth ≤ a) : (storeSample m y s c v).read a = m.read a :=
  read_writeBytes_of_outside _ _ _ _ (by simpa using h)

theorem storeSample_wf (m : Memory) (y : Layout) (s c : Nat) (v : Int) (h : m.wf)
    (hin : y.addr s c + bps y.depth ≤ Config.addrTop) : (storeSample m y s c v).wf :=
  writeBytes_wf _ _ _ h (by simpa using hin)

@[simp] theorem storeSample_free (m : Memory) (y : Layout) (s c : Nat) (v : Int) :
    (storeSample m y s c v).free = m.free := rfl

/-- Two samples of one buffer share no byte: the earlier in the interleaving ends before the later begins
(R151). -/
theorem addr_le_of_before (y : Layout) (s c s' c' : Nat) (h : s * y.channels + c < s' * y.channels + c') :
    y.addr s c + bps y.depth ≤ y.addr s' c' := by
  simp only [Layout.addr]
  have := Nat.mul_le_mul_right (bps y.depth) (Nat.succ_le_of_lt h)
  rw [Nat.succ_mul] at this
  omega

/-- Distinct samples of one buffer have distinct places in the interleaving. -/
theorem place_ne {n s c s' c' : Nat} (hc : c < n) (hc' : c' < n) (h : s ≠ s' ∨ c ≠ c') :
    s * n + c ≠ s' * n + c' := by
  intro he
  have h1 : (s * n + c) % n = (s' * n + c') % n := by rw [he]
  rw [Nat.mul_comm s, Nat.mul_comm s', Nat.mul_add_mod, Nat.mul_add_mod, Nat.mod_eq_of_lt hc,
    Nat.mod_eq_of_lt hc'] at h1
  subst h1
  have h2 : s * n = s' * n := by omega
  have : s = s' := Nat.eq_of_mul_eq_mul_right (by omega) h2
  simp [this] at h

/-- Reading one sample after another sample of the buffer was stored. -/
theorem readSample_storeSample_of_ne (m : Memory) (y : Layout) (s c s' c' : Nat) (v : Int)
    (hc : c < y.channels) (hc' : c' < y.channels) (h : s ≠ s' ∨ c ≠ c') :
    readSample (storeSample m y s c v) y s' c' = readSample m y s' c' := by
  simp only [readSample]
  congr 2
  apply readNat_congr
  intro i hi
  apply read_storeSample_of_outside
  rcases Nat.lt_or_gt_of_ne (place_ne hc hc' h) with hlt | hgt
  · have := addr_le_of_before y s c s' c' hlt; omega
  · have := addr_le_of_before y s' c' s c hgt; omega

/-! ### One channel, all channels -/

/-- The stores of a channel leave every byte that is in none of its samples. -/
theorem read_storeChannel_of_outside (m : Memory) (y : Layout) (c s : Nat) (x : List Int) (a : Nat)
    (h : ∀ i < x.length, a < y.addr (s + i) c ∨ y.addr (s + i) c + bps y.depth ≤ a) :
    (storeChannel m y c s x).read a = m.read a := by
  induction x generalizing m s with
  | nil => rfl
  | cons v vs ih =>
    rw [storeChannel, ih]
    · exact read_storeSample_of_outside m y s c v a (by simpa using h 0 (by simp))
    · intro i hi
      have := h (i + 1) (by simpa using hi)
      rwa [show s + 1 + i = s + (i + 1) by omega]

theorem storeChannel_wf (m : Memory) (y : Layout) (c s : Nat) (x : List Int) (h : m.wf)
    (hin : ∀ i < x.length, y.addr (s + i) c + bps y.depth ≤ Config.addrTop) : (storeChannel m y c s x).wf := by
  induction x generalizing m s with
  | nil => exact h
  | cons v vs ih =>
    refine ih _ _ (storeSample_wf m y s c v h (by simpa using hin 0 (by simp))) ?_
    intro i hi
    have := hin (i + 1) (by simpa using hi)
    rwa [show s + 1 + i = s + (i + 1) by omega]

@[simp] theorem storeChannel_free (m : Memory) (y : Layout) (c s : Nat) (x : List Int) :
    (storeChannel m y c s x).free = m.free := by
  induction x generalizing m s with
  | nil => rfl
  | cons v vs ih => simp [storeChannel, ih]

/-- The stores of all channels leave every byte that is in none of their samples. -/
theorem read_storeChannels_of_outside (m : Memory) (y : Layout) (c : Nat) (xs : List (List Int)) (a : Nat)
    (h : ∀ j, (hj : j < xs.length) → ∀ i < xs[j].length,
      a < y.addr i (c + j) ∨ y.addr i (c + j) + bps y.depth ≤ a) :
    (storeChannels m y c xs).read a = m.read a := by
  induction xs generalizing m c with
  | nil => rfl
  | cons x xs ih =>
    rw [storeChannels, ih]
    · exact read_storeChannel_of_outside m y c 0 x a (fun i hi => by simpa using h 0 (by simp) i hi)
    · intro j hj i hi
      have := h (j + 1) (by simpa using hj) i (by simpa using hi)
      rwa [show c + 1 + j = c + (j + 1) by omega]

theorem storeChannels_wf (m : Memory) (y : Layout) (c : Nat) (xs : List (List Int)) (h : m.wf)
    (hin : ∀ j, (hj : j < xs.length) → ∀ i < xs[j].length,
      y.addr i (c + j) + bps y.depth ≤ Config.addrTop) : (storeChannels m y c xs).wf := by
  induction xs generalizing m c with
  | nil => exact h
  | cons x xs ih =>
    refine ih _ _ (storeChannel_wf m y c 0 x h (fun i hi => by simpa using hin 0 (by simp) i hi)) ?_
    intro j hj i hi
    have := hin (j + 1) (by simpa using hj) i (by simpa using hi)
    rwa [show c + 1 + j = c + (j + 1) by omega]

@[simp] theorem storeChannels_free (m : Memory) (y : Layout) (c : Nat) (xs : List (List Int)) :
    (storeChannels m y c xs).free = m.free := by
  induction xs generalizing m c with
  | nil => rfl
  | cons x xs ih => simp [storeChannels, ih]

/-! ### The dither filter -/

@[simp] theorem ditherFrom_length (left : Int) (x : List Int) : (ditherFrom left x).length = x.length := by
  induction x generalizing left with
  | nil => rfl
  | cons a as ih =>
    cases as with
    | nil => rfl
    | cons b bs => simp only [ditherFrom, List.length_cons, ih]

@[simp] theorem ditherChannel_length (x : List Int) : (ditherChannel x).length = x.length := by
  match x with
  | [] => rfl
  | [_] => rfl
  | _ :: _ :: _ => simp [ditherChannel]

/-- The write-back of a channel leaves every byte that is in none of its samples. -/
theorem read_ditherStore_of_outside (m : Memory) (y : Layout) (c s : Nat) (x z : List Int) (a : Nat)
    (h : ∀ i < x.length, a < y.addr (s + i) c ∨ y.addr (s + i) c + bps y.depth ≤ a) :
    (ditherStore m y c s x z).read a = m.read a := by
  induction x generalizing m s z with
  | nil => rfl
  | cons v vs ih =>
    cases z with
    | nil => rfl
    | cons w ws =>
      have h0 : a < y.addr s c ∨ y.addr s c + bps y.depth ≤ a := by simpa using h 0 (by simp)
      rw [ditherStore, ih]
      · split_ifs
        · rfl
        · exact read_storeSample_of_outside m y s c w a h0
      · intro i hi
        have := h (i + 1) (by simpa using hi)
        rwa [show s + 1 + i = s + (i + 1) by omega]

theorem ditherStore_wf (m : Memory) (y : Layout) (c s : Nat) (x z : List Int) (h : m.wf)
    (hin : ∀ i < x.length, y.addr (s + i) c + bps y.depth ≤ Config.addrTop) : (ditherStore m y c s x z).wf := by
  induction x generalizing m s z with
  | nil => exact h
  | cons v vs ih =>
    cases z with
    | nil => exact h
    | cons w ws =>
      have h0 : y.addr s c + bps y.depth ≤ Config.addrTop := by simpa using hin 0 (by simp)
      refine ih _ _ _ ?_ ?_
      · split_ifs
        · exact h
        · exact storeSample_wf m y s c w h h0
      · intro i hi
        have := hin (i + 1) (by simpa using hi)
        rwa [show s + 1 + i = s + (i + 1) by omega]

@[simp] theorem ditherStore_free (m : Memory) (y : Layout) (c s : Nat) (x z : List Int) :
    (ditherStore m y c s x z).free = m.free := by
  induction x generalizing m s z with
  | nil => rfl
  | cons v vs ih =>
    cases z with
    | nil => rfl
    | cons w ws =>
      rw [ditherStore, ih]
      split_ifs <;> rfl

theorem ditherStoreAll_wf (m : Memory) (y : Layout) (c : Nat) (xs zs : List (List Int)) (h : m.wf)
    (hin : ∀ j, (hj : j < xs.length) → ∀ i < xs[j].length,
      y.addr i (c + j) + bps y.depth ≤ Config.addrTop) : (ditherStoreAll m y c xs zs).wf := by
  induction xs generalizing m c zs with
  | nil => exact h
  | cons x xs ih =>
    cases zs with
    | nil => exact h
    | cons z zs =>
      refine ih _ _ _ (ditherStore_wf m y c 0 x z h (fun i hi => by simpa using hin 0 (by simp) i hi)) ?_
      intro j hj i hi
      have := hin (j + 1) (by simpa using hj) i (by simpa using hi)
      rwa [show c + 1 + j = c + (j + 1) by omega]

@[simp] theorem ditherStoreAll_free (m : Memory) (y : Layout) (c : Nat) (xs zs : List (List Int)) :
    (ditherStoreAll m y c xs zs).free = m.free := by
  induction xs generalizing m c zs with
  | nil => rfl
  | cons x xs ih =>
    cases zs with
    | nil => rfl
    | cons z zs => simp [ditherStoreAll, ih]

/-! ### Reading channels -/

@[simp] theorem readChannelFrom_length (m : Memory) (y : Layout) (c s n : Nat) :
    (readChannelFrom m y c s n).length = n := by
  induction n generalizing s with
  | zero => rfl
  | succ n ih => simp [readChannelFrom, ih]

theorem readChannelFrom_getElem (m : Memory) (y : Layout) (c s n i : Nat)
    (h : i < (readChannelFrom m y c s n).length) :
    (readChannelFrom m y c s n)[i] = readSample m y (s + i) c := by
  induction n generalizing s i with
  | zero => simp [readChannelFrom] at h
  | succ n ih =>
    cases i with
    | zero => simp [readChannelFrom]
    | succ i => simp [readChannelFrom, ih, Nat.add_assoc, Nat.add_comm 1 i]

@[simp] theorem readChannel_length (m : Memory) (y : Layout) (n c : Nat) : (readChannel m y n c).length = n := by
  simp [readChannel]

@[simp] theorem readChannels_length (m : Memory) (y : Layout) (n : Nat) :
    (readChannels m y n).length = y.channels := by
  simp [readChannels]

end Sys2Proof.Machine
end

