-- ==== Sys2Proof/Laws/Parser.lean ====
section
/-! SUPPORT. What each unit of the parser gives where it raises no error, and that every unit keeps a parser
within its output range. -/

namespace Sys2Proof.Machine

/-! ### The stages' lengths -/

@[simp] theorem predEncFrom_length (older newer : Int) (x : List Int) :
    (predEncFrom older newer x).length = x.length := by
  induction x generalizing older newer with
  | nil => rfl
  | cons v vs ih => simp [predEncFrom, ih]

@[simp] theorem predEnc_length (x : List Int) : (predEnc x).length = x.length := by
  match x with
  | [] => rfl
  | [_] => rfl
  | _ :: _ :: _ => simp [predEnc]

@[simp] theorem predDecFrom_length (older newer : Int) (r : List Int) :
    (predDecFrom older newer r).length = r.length := by
  induction r generalizing older newer with
  | nil => rfl
  | cons v vs ih => simp [predDecFrom, ih]

@[simp] theorem predDec_length (r : List Int) : (predDec r).length = r.length := by
  match r with
  | [] => rfl
  | [_] => rfl
  | _ :: _ :: _ => simp [predDec]

/-- What the zero-run decoder gives, with `len` values already out, completes `n` values (R203). -/
theorem zreFill_length {c n j len : Nat} {q out : List Int} {ds : List Run}
    (h : zreFill c n j len q ds = .ok out) : len + out.length = n := by
  induction ds generalizing j len q out with
  | nil =>
    simp only [zreFill] at h
    split_ifs at h with h1
    cases h
    omega
  | cons d ds ih =>
    simp only [zreFill] at h
    split_ifs at h with h1 h2 h3
    split at h
    · cases h
    · next out' he =>
      cases h
      have := ih he
      simp only [List.length_append, List.length_take, List.length_replicate]
      omega

/-- The zero-run decoder gives S values or an error (R203). -/
theorem zreDec_length {c n : Nat} {q out : List Int} {ds : List Run} (h : zreDec c n q ds = .ok out) :
    out.length = n := by
  have := zreFill_length h
  omega

/-- No misfit means that every value fits the depth. -/
theorem firstMisfit_none {d s : Nat} {x : List Int} (h : firstMisfit d s x = none) :
    ∀ v ∈ x, sampleFits d v = true := by
  induction x generalizing s with
  | nil => simp
  | cons v vs ih =>
    simp only [firstMisfit] at h
    split_ifs at h with h1
    intro w hw
    rcases List.mem_cons.mp hw with rfl | hw
    · exact h1
    · exact ih h w hw

/-! ### The units -/

theorem takeNat_ok {e : Source} {w sub c pos v : Nat} (h : takeNat e w sub c pos = .ok v) :
    pos + w ≤ e.len ∧ v = e.nat pos w := by
  simp only [takeNat] at h
  split_ifs at h with h1
  cases h
  exact ⟨by omega, rfl⟩

theorem source_nat_lt (e : Source) (p w : Nat) : e.nat p w < 256 ^ w := by
  have := leNat_lt (e.mem.readBytes (e.base + p) w)
  rwa [readBytes_length] at this

theorem meetTag_ok {want seen : Tag} {p p' : Parse} (h : meetTag want seen p = .ok p') :
    seen = want ∧ p' = { p with pos := p.pos + 4, stage := .body want } := by
  simp only [meetTag] at h
  split_ifs at h with h1
  cases h
  exact ⟨h1, rfl⟩

theorem expectTag_ok {e : Source} {want : Tag} {p p' : Parse} (h : expectTag e want p = .ok p') :
    p.pos + 4 ≤ e.len ∧ p' = { p with pos := p.pos + 4, stage := .body want } := by
  simp only [expectTag] at h
  split_ifs at h with h1
  split at h
  · cases h
  · split at h
    · cases h
    · exact ⟨by omega, (meetTag_ok h).2⟩

theorem readHeader_ok {e : Source} {cap : Nat} {p p' : Parse} (h : readHeader e cap p = .ok p') :
    ∃ rate d n c, p.pos + 11 ≤ e.len ∧ rate = e.nat p.pos 4 ∧ d = e.nat (p.pos + 4) 1 ∧
      n = e.nat (p.pos + 5) 4 ∧ c = e.nat (p.pos + 9) 2 ∧ d ∈ Config.depths ∧ 0 < c ∧ n * c * bps d ≤ cap ∧
      p' = { p with pos := p.pos + 11, stage := .tag .chan, rate := rate, depth := d, samples := n,
                    channels := c, chan := 0 } := by
  simp only [readHeader] at h
  split at h
  · cases h
  next rate hrate =>
  split at h
  · cases h
  next d hd =>
  split_ifs at h with hdepth
  split at h
  · cases h
  next n hn =>
  split at h
  · cases h
  next c hc =>
  split_ifs at h with h0 hfit
  cases h
  refine ⟨rate, d, n, c, ?_, (takeNat_ok hrate).2, (takeNat_ok hd).2, (takeNat_ok hn).2, (takeNat_ok hc).2,
    ?_, by omega, by omega, rfl⟩
  · have := (takeNat_ok hc).1; omega
  · simpa [depthOk] using hdepth

theorem readCount_ok {e : Source} {p p' : Parse} (h : readCount e p = .ok p') :
    p.pos + 4 ≤ e.len ∧ p' = { p with pos := p.pos + 4, stage := .tag .zre, count := e.nat p.pos 4 } := by
  simp only [readCount] at h
  split at h
  · cases h
  next n hn =>
  cases h
  obtain ⟨h1, rfl⟩ := takeNat_ok hn
  exact ⟨h1, rfl⟩

theorem readRuns_ok {e : Source} {c k pos : Nat} {ds : List Run} {q : Nat}
    (h : readRuns e c k pos = .ok (ds, q)) : ds.length = k ∧ q = pos + 8 * k := by
  induction k generalizing pos ds q with
  | zero => simp only [readRuns] at h; cases h; exact ⟨rfl, rfl⟩
  | succ k ih =>
    simp only [readRuns] at h
    split at h
    · cases h
    split at h
    · cases h
    split at h
    · cases h
    next ds' q' hr =>
    cases h
    obtain ⟨h1, h2⟩ := ih hr
    exact ⟨by simp [h1], by omega⟩

theorem readZre_ok {e : Source} {p p' : Parse} (h : readZre e p = .ok p') :
    ∃ ds pos, pos = p.pos + 4 + 8 * ds.length ∧
      p' = { p with pos := pos, stage := .tag .rice, runs := ds } := by
  simp only [readZre] at h
  split at h
  · cases h
  split at h
  · cases h
  next ds pos hr =>
  cases h
  obtain ⟨h1, h2⟩ := readRuns_ok hr
  exact ⟨ds, pos, by omega, rfl⟩

theorem readParams_ok {e : Source} {c k pos : Nat} {ks : List Int} {q : Nat}
    (h : readParams e c k pos = .ok (ks, q)) : ks.length = k ∧ q = pos + 4 * k := by
  induction k generalizing pos ks q with
  | zero => simp only [readParams] at h; cases h; exact ⟨rfl, rfl⟩
  | succ k ih =>
    simp only [readParams] at h
    split at h
    · cases h
    split at h
    · cases h
    next ks' q' hr =>
    cases h
    obtain ⟨h1, h2⟩ := ih hr
    exact ⟨by simp [h1], by omega⟩

theorem readRice_ok {e : Source} {p p' : Parse} (h : readRice e p = .ok p') :
    ∃ ks pos, pos = p.pos + 4 + 4 * ks.length ∧
      p' = { p with pos := pos, stage := .tag .data, params := ks } := by
  simp only [readRice] at h
  split at h
  · cases h
  split at h
  · cases h
  next ks pos hr =>
  cases h
  obtain ⟨h1, h2⟩ := readParams_ok hr
  exact ⟨ks, pos, by omega, rfl⟩

/-- A channel that decodes: its values are S, each fits the depth, and the parser goes on to the next
channel (R276, R281). -/
theorem readData_ok {e : Source} {p p' : Parse} (h : readData e p = .ok p') :
    ∃ q t r, riceDec e p.chan p.pos p.count p.params = .ok (q, t) ∧
      zreDec p.chan p.samples q p.runs = .ok r ∧ (predDec r).length = p.samples ∧
      (∀ v ∈ predDec r, sampleFits p.depth v = true) ∧
      p' = { p with pos := p.pos + ceilDiv t 8, stage := nextStage p, chan := p.chan + 1,
                    pcm := p.pcm ++ [predDec r] } := by
  simp only [readData] at h
  split at h
  · cases h
  next q t hq =>
  split at h
  · cases h
  next r hr =>
  split at h
  · cases h
  next hfit =>
  cases h
  exact ⟨q, t, r, hq, hr, by simpa using zreDec_length hr, firstMisfit_none hfit, rfl⟩

/-! ### A parser stays within its output range -/

theorem start_inHeader : Parse.start.inHeader := ⟨.inl rfl, rfl, rfl⟩

/-- Every unit takes a parser that is in the header, or is sound, to one that is again one of these. -/
theorem parseUnit_sound {e : Source} {cap : Nat} {p p' : Parse} (h : parseUnit e cap p = .ok p')
    (hp : p.inHeader ∨ p.sound cap) : p'.inHeader ∨ p'.sound cap := by
  have body : ∀ {t : Tag} {q : Parse}, p.stage = .tag t → q = { p with pos := p.pos + 4, stage := .body t } →
      q.inHeader ∨ q.sound cap := by
    intro t q hs hq
    subst hq
    rcases hp with ⟨h1, h2, h3⟩ | hp
    · rw [hs] at h1
      simp only [ParseStage.tag.injEq, reduceCtorEq, or_false] at h1
      subst h1
      exact .inl ⟨.inr rfl, h2, h3⟩
    · refine .inr ⟨⟨by simp, ?_⟩, hp.depth, hp.fits, hp.chan, hp.count, hp.whole, fun _ => ?_⟩
      · intro hb
        cases hb
        exact hp.past.1 hs
      · exact hp.left (by simp [hs])
  have sound : p.stage ≠ .tag .ssaf → p.stage ≠ .body .ssaf → p.sound cap := by
    intro h1 h2
    rcases hp with ⟨h3 | h3, -⟩ | hp
    · exact absurd h3 h1
    · exact absurd h3 h2
    · exact hp
  have next : ∀ {t : Tag} {q : Parse}, p.sound cap → p.stage ≠ .done → t ≠ .ssaf → q.stage = .tag t →
      q.depth = p.depth → q.samples = p.samples → q.channels = p.channels → q.chan = p.chan → q.pcm = p.pcm →
      q.sound cap := by
    intro t q hp hd ht hs h1 h2 h3 h4 h5
    refine ⟨⟨by simp [hs, ht], by simp [hs]⟩, by rw [h1]; exact hp.depth, by rw [h1, h2, h3]; exact hp.fits,
      by rw [h3, h4]; exact hp.chan, by rw [h4, h5]; exact hp.count, by rw [h2, h5]; exact hp.whole,
      fun _ => by rw [h3, h4]; exact hp.left hd⟩
  unfold parseUnit at h
  split at h
  · next want hs => exact body hs (expectTag_ok h).2
  · next hs =>
    obtain ⟨rate, d, n, c, -, -, -, -, -, hd, hc, hcap, rfl⟩ := readHeader_ok h
    rcases hp with ⟨-, h2, h3⟩ | hp
    · exact .inr ⟨⟨by simp, by simp⟩, hd, hcap, Nat.zero_le _, by simp [h2], by simp [h2], fun _ => hc⟩
    · exact absurd hs hp.past.2
  · next hs =>
    obtain ⟨-, rfl⟩ := readCount_ok h
    exact .inr (next (t := .zre) (sound (by simp [hs]) (by simp [hs])) (by simp [hs]) (by decide) rfl rfl rfl
      rfl rfl rfl)
  · next hs =>
    obtain ⟨ds, pos, -, rfl⟩ := readZre_ok h
    exact .inr (next (t := .rice) (sound (by simp [hs]) (by simp [hs])) (by simp [hs]) (by decide) rfl rfl rfl
      rfl rfl rfl)
  · next hs =>
    obtain ⟨ks, pos, -, rfl⟩ := readRice_ok h
    exact .inr (next (t := .data) (sound (by simp [hs]) (by simp [hs])) (by simp [hs]) (by decide) rfl rfl rfl
      rfl rfl rfl)
  · next hs =>
    obtain ⟨q, t, r, -, -, hlen, -, rfl⟩ := readData_ok h
    have hp := sound (by simp [hs]) (by simp [hs])
    have hlt := hp.left (by simp [hs])
    refine .inr ⟨?_, hp.depth, hp.fits, hlt, by simp [hp.count], ?_, ?_⟩
    · simp only [nextStage]
      split_ifs <;> simp
    · intro x hx
      rcases List.mem_append.mp hx with hx | hx
      · exact hp.whole x hx
      · rw [List.mem_singleton.mp hx]
        exact hlen
    · simp only [nextStage]
      split_ifs with hn
      · exact fun _ => hn
      · simp
  · cases h
    exact hp

theorem parseUnits_sound {e : Source} {cap k : Nat} {p p' : Parse} (h : parseUnits e cap k p = .ok p')
    (hp : p.inHeader ∨ p.sound cap) : p'.inHeader ∨ p'.sound cap := by
  induction k generalizing p with
  | zero => simp only [parseUnits] at h; cases h; exact hp
  | succ k ih =>
    simp only [parseUnits] at h
    split at h
    · cases h
    next p1 h1 => exact ih h (parseUnit_sound h1 hp)

/-- ContainerDecode gives a parser that fits its output range. -/
theorem parseAll_sound {e : Source} {cap : Nat} {p p' : Parse} (h : parseAll e cap p = .ok p')
    (hp : p.inHeader ∨ p.sound cap) : p'.inHeader ∨ p'.sound cap := by
  simp only [parseAll] at h
  split at h
  · cases h
  next p1 h1 => exact parseUnits_sound h (parseUnits_sound h1 hp)

/-! ### One unit, then the rest -/

/-- After one unit the parse goes on to the same end, and knows of the same channels. -/
theorem parseAll_of_parseUnit_ok {e : Source} {cap : Nat} {p p' : Parse} (h : parseUnit e cap p = .ok p')
    (hd : p.stage ≠ .done) :
    parseAll e cap p' = parseAll e cap p ∧ channelsKnown e cap p' = channelsKnown e cap p := by
  unfold parseUnit at h
  split at h
  · next want hs =>
    obtain ⟨-, rfl⟩ := expectTag_ok h
    have hu : parseUnit e cap p = .ok { p with pos := p.pos + 4, stage := .body want } := by unfold parseUnit; rw [hs]; exact h
    cases want <;> simp [parseAll, channelsKnown, parseHeader, headerUnits, channelUnits, hs, parseUnits, hu]
    all_goals
      first
      | (rw [show ∀ k, 8 + k = (7 + k) + 1 by omega]; simp [parseUnits, hu])
      | (rw [show ∀ k, 6 + k = (5 + k) + 1 by omega]; simp [parseUnits, hu])
      | (rw [show ∀ k, 4 + k = (3 + k) + 1 by omega]; simp [parseUnits, hu])
      | (rw [show ∀ k, 2 + k = (1 + k) + 1 by omega]; simp [parseUnits, hu])
  · next hs =>
    obtain ⟨rate, d, n, c, -, -, -, -, -, _, _, _, rfl⟩ := readHeader_ok h
    have hu := h
    simp [parseAll, channelsKnown, parseHeader, headerUnits, channelUnits, hs, parseUnits, parseUnit, hu]
  · next hs =>
    obtain ⟨-, rfl⟩ := readCount_ok h
    have hu : parseUnit e cap p = readCount e p := by unfold parseUnit; rw [hs]
    rw [h] at hu
    simp [parseAll, channelsKnown, parseHeader, headerUnits, channelUnits, hs, parseUnits]
    rw [show ∀ k, 7 + k = (6 + k) + 1 by omega]; simp [parseUnits, hu]
  · next hs =>
    have hu : parseUnit e cap p = readZre e p := by unfold parseUnit; rw [hs]
    rw [h] at hu
    obtain ⟨ds, pos, -, rfl⟩ := readZre_ok h
    simp [parseAll, channelsKnown, parseHeader, headerUnits, channelUnits, hs, parseUnits]
    rw [show ∀ k, 5 + k = (4 + k) + 1 by omega]; simp [parseUnits, hu]
  · next hs =>
    have hu : parseUnit e cap p = readRice e p := by unfold parseUnit; rw [hs]
    rw [h] at hu
    obtain ⟨ds, pos, -, rfl⟩ := readRice_ok h
    simp [parseAll, channelsKnown, parseHeader, headerUnits, channelUnits, hs, parseUnits]
    rw [show ∀ k, 3 + k = (2 + k) + 1 by omega]; simp [parseUnits, hu]
  · next hs =>
    have hu : parseUnit e cap p = readData e p := by unfold parseUnit; rw [hs]
    rw [h] at hu
    obtain ⟨q, t, r, -, -, -, -, rfl⟩ := readData_ok h
    simp only [nextStage] at hu ⊢
    split_ifs at hu ⊢ with hc
    · simp [parseAll, channelsKnown, parseHeader, headerUnits, channelUnits, hs, parseUnits]
      rw [show ∀ k, 1 + k = (k) + 1 by omega]; simp [parseUnits, hu]
      congr 1; omega
    · simp [parseAll, channelsKnown, parseHeader, headerUnits, channelUnits, hs, parseUnits]
      rw [show p.channels - p.chan - 1 = 0 by omega]; simp [parseUnits, hu]
  · next hs => exact absurd hs hd

/-- The first unit's error is the parse's error (R336). -/
theorem parseAll_of_parseUnit_error {e : Source} {cap : Nat} {p : Parse} {x : Err}
    (h : parseUnit e cap p = .error x) : parseAll e cap p = .error x := by
  have key : ∀ k, parseUnits e cap (k+1) p = .error x := by intro k; simp [parseUnits, h]
  unfold parseUnit at h
  simp only [parseAll, parseHeader]
  split at h
  · next want hs =>
    cases want <;> simp only [headerUnits, hs]
    · rw [key 1]
    all_goals
      simp only [channelUnits, hs, parseUnits]
      first
      | (rw [show ∀ k, 8 + k = (7 + k) + 1 by omega]; exact key _)
      | (rw [show ∀ k, 6 + k = (5 + k) + 1 by omega]; exact key _)
      | (rw [show ∀ k, 4 + k = (3 + k) + 1 by omega]; exact key _)
      | (rw [show ∀ k, 2 + k = (1 + k) + 1 by omega]; exact key _)
  · next hs => simp only [headerUnits, hs]; rw [key 0]
  · next hs => simp only [headerUnits, hs, channelUnits, parseUnits]; rw [show ∀ k, 7 + k = (6 + k) + 1 by omega]; exact key _
  · next hs => simp only [headerUnits, hs, channelUnits, parseUnits]; rw [show ∀ k, 5 + k = (4 + k) + 1 by omega]; exact key _
  · next hs => simp only [headerUnits, hs, channelUnits, parseUnits]; rw [show ∀ k, 3 + k = (2 + k) + 1 by omega]; exact key _
  · next hs => simp only [headerUnits, hs, channelUnits, parseUnits]; rw [show ∀ k, 1 + k = (k) + 1 by omega]; exact key _
  · cases h

end Sys2Proof.Machine
end

