-- ==== Sys2Proof/Laws/Decoders.lean ====
section
/-! SUPPORT. What each shared reader of a decoder gives, errors included: the descriptor and parameter lists, the
header, the fitting of samples, the zero-run decoder's one descriptor, and the parts of a Rice codeword. -/

namespace Sys2Proof.Machine

variable {e : Source} {c p0 : Nat}

/-! ### Lists of fields (R276, R277) -/

/-- A 32-bit field read as a signed value is its bit vector's signed value. -/
theorem sext_32 (n : Nat) : sext 32 (n : Int) = (BitVec.ofNat 32 n).toInt := by
  rw [BitVec.toInt_eq_toNat_cond, BitVec.toNat_ofNat]
  simp only [sext]
  norm_num
  split <;> split <;> omega

/-- `k` descriptors from a position: all of them, or TRUNCATED at the first field that is not whole. -/
theorem readRuns_eq (e : Source) (c k pos : Nat) : readRuns e c k pos =
    if pos + 8 * k ≤ e.len ∨ k = 0 then
      .ok ((List.range k).map fun j => ⟨e.nat (pos + 8 * j) 4, e.nat (pos + 4 + 8 * j) 4⟩, pos + 8 * k)
    else .error ⟨.truncated, 1, pos + 4 * ((e.len - pos) / 4), c, 0⟩ := by
  induction k generalizing pos with
  | zero => simp [readRuns]
  | succ k ih =>
    have h0 : ∀ j, pos + 8 + 8 * j = pos + 8 * (j + 1) := fun j => by ring
    have h1 : ∀ j, pos + 8 + 4 + 8 * j = pos + 4 + 8 * (j + 1) := fun j => by ring
    simp only [readRuns, takeNat, ih]
    split_ifs <;> simp_all [errTruncated, List.range_succ_eq_map]
    all_goals omega

/-- `k` parameters from a position: all of them, or TRUNCATED at the first field that is not whole. -/
theorem readParams_eq (e : Source) (c k pos : Nat) : readParams e c k pos =
    if pos + 4 * k ≤ e.len ∨ k = 0 then
      .ok ((List.range k).map fun j => (BitVec.ofNat 32 (e.nat (pos + 4 * j) 4)).toInt, pos + 4 * k)
    else .error ⟨.truncated, 1, pos + 4 * ((e.len - pos) / 4), c, 0⟩ := by
  induction k generalizing pos with
  | zero => simp [readParams]
  | succ k ih =>
    have h0 : ∀ j, pos + 4 + 4 * j = pos + 4 * (j + 1) := fun j => by ring
    simp only [readParams, takeNat, ih, sext_32]
    split_ifs <;> simp_all [errTruncated, List.range_succ_eq_map]
    all_goals omega

/-! ### The header (R276, R336) -/

/-- The header after its magic: the first check that fails, in the order of the fields, or the fields. -/
theorem readHeader_eq (e : Source) (cap : Nat) (p : Parse) : readHeader e cap p =
    if e.len < p.pos + 4 then .error (errTruncated 0 p.pos noChan)
    else if e.len < p.pos + 5 then .error (errTruncated 0 (p.pos + 4) noChan)
    else if !depthOk (e.nat (p.pos + 4) 1) then .error (errDepth (e.nat (p.pos + 4) 1))
    else if e.len < p.pos + 9 then .error (errTruncated 0 (p.pos + 5) noChan)
    else if e.len < p.pos + 11 then .error (errTruncated 0 (p.pos + 9) noChan)
    else if e.nat (p.pos + 9) 2 = 0 then .error errNoChannels
    else if cap < e.nat (p.pos + 5) 4 * e.nat (p.pos + 9) 2 * bps (e.nat (p.pos + 4) 1) then
      .error (errOverflow (e.nat (p.pos + 5) 4 * e.nat (p.pos + 9) 2 * bps (e.nat (p.pos + 4) 1)))
    else .ok { p with
      pos := p.pos + 11, stage := .tag .chan, rate := e.nat p.pos 4, depth := e.nat (p.pos + 4) 1,
      samples := e.nat (p.pos + 5) 4, channels := e.nat (p.pos + 9) 2, chan := 0 } := by
  simp only [readHeader, takeNat]
  rw [show p.pos + 4 + 1 = p.pos + 5 from rfl, show p.pos + 5 + 4 = p.pos + 9 from rfl,
    show p.pos + 9 + 2 = p.pos + 11 from rfl]
  by_cases h1 : e.len < p.pos + 4
  · simp only [if_pos h1]
  by_cases h2 : e.len < p.pos + 5
  · simp only [if_neg h1, if_pos h2]
  by_cases h3 : (!depthOk (e.nat (p.pos + 4) 1)) = true
  · simp only [if_neg h1, if_neg h2, if_pos h3]
  by_cases h4 : e.len < p.pos + 9
  · simp only [if_neg h1, if_neg h2, if_neg h3, if_pos h4]
  by_cases h5 : e.len < p.pos + 11
  · simp only [if_neg h1, if_neg h2, if_neg h3, if_neg h4, if_pos h5]
  simp only [if_neg h1, if_neg h2, if_neg h3, if_neg h4, if_neg h5]

/-! ### The predictor's truncation (R11) -/

/-- Truncation to 16 bits is the signed representative modulo 2^16. -/
theorem trunc16_eq_bmod (x : Int) : trunc16 x = Int.bmod x 65536 := by
  simp only [trunc16, sext, Int.bmod, Config.predW]
  norm_num
  split <;> split <;> omega

/-! ### Samples that fit the depth (R281) -/

/-- A misfit with none before it is the first. -/
theorem firstMisfit_eq_some {d i : Nat} {x : List Int} (s : Nat) (h : i < x.length)
    (hb : sampleFits d (x.getD i 0) = false) (hg : ∀ j, j < i → sampleFits d (x.getD j 0) = true) :
    firstMisfit d s x = some (s + i) := by
  induction x generalizing s i with
  | nil => simp at h
  | cons v vs ih =>
    cases i with
    | zero =>
      simp only [List.getD_cons_zero] at hb
      simp [firstMisfit, hb]
    | succ i =>
      have h0 : sampleFits d v = true := by simpa using hg 0 (by omega)
      rw [firstMisfit, if_pos h0, ih (s + 1) (by simpa using h) (by simpa using hb)
        (fun j hj => by simpa using hg (j + 1) (by omega))]
      congr 1
      omega

/-- Where every sample fits there is no misfit. -/
theorem firstMisfit_eq_none {d : Nat} {x : List Int} (s : Nat)
    (hg : ∀ j, j < x.length → sampleFits d (x.getD j 0) = true) : firstMisfit d s x = none := by
  induction x generalizing s with
  | nil => rfl
  | cons v vs ih =>
    have h0 : sampleFits d v = true := by simpa using hg 0 (by simp)
    rw [firstMisfit, if_pos h0]
    exact ih _ (fun j hj => by simpa using hg (j + 1) (by simpa using hj))

/-! ### The zero-run decoder (R203) -/

/-- A descriptor in place: the compacted values before it, its zeros, and the rest. -/
theorem zreFill_cons {n j len : Nat} {q : List Int} {d : Run} {ds : List Run} (h1 : len ≤ d.start)
    (h2 : d.start ≤ q.length + len) (h3 : d.start + d.len ≤ n) :
    zreFill c n j len q (d :: ds) =
      match zreFill c n (j + 1) (d.start + d.len) (q.drop (d.start - len)) ds with
      | .error x => .error x
      | .ok out => .ok (q.take (d.start - len) ++ (List.replicate d.len 0 ++ out)) :=
  (if_neg (by omega)).trans ((if_neg (by omega)).trans (if_neg (by omega)))

/-! ### A Rice codeword (R227, R251, R252) -/

/-- Ones that are there to be read are fewer than the reader's fuel. -/
theorem lt_bitsLeft {u t : Nat} (h : ∀ y, y < u → readBit e c p0 (t + y) = .ok true) :
    u < bitsLeft e p0 t + 1 := by
  cases u with
  | zero => omega
  | succ u =>
    have := h u (by omega)
    simp only [readBit] at this
    split_ifs at this with h1
    unfold bitsLeft
    omega

/-- A bit missing after `u` ones stops the quotient with the reader's error. -/
theorem readUnary_error {x : Err} {u : Nat} (fuel v t : Nat) (hf : u < fuel)
    (h : ∀ y, y < u → readBit e c p0 (t + y) = .ok true) (hx : readBit e c p0 (t + u) = .error x) :
    readUnary e c p0 fuel v t = .error x := by
  induction u generalizing fuel v t with
  | zero =>
    obtain ⟨f, rfl⟩ : ∃ f, fuel = f + 1 := ⟨fuel - 1, by omega⟩
    simp only [Nat.add_zero] at hx
    simp [readUnary, hx]
  | succ u ih =>
    obtain ⟨f, rfl⟩ : ∃ f, fuel = f + 1 := ⟨fuel - 1, by omega⟩
    have h0 := h 0 (by omega)
    simp only [Nat.add_zero] at h0
    simp only [readUnary, h0]
    refine ih _ _ _ (by omega) (fun y hy => ?_) ?_
    · have := h (y + 1) (by omega)
      rwa [show t + 1 + y = t + (y + 1) by omega]
    · rwa [show t + 1 + u = t + (u + 1) by omega]

/-- `u` ones and a zero are a quotient of `u`, read in `u + 1` bits. -/
theorem readUnary_ok {u : Nat} (fuel v t : Nat) (hf : u < fuel)
    (h : ∀ y, y < u → readBit e c p0 (t + y) = .ok true) (hx : readBit e c p0 (t + u) = .ok false) :
    readUnary e c p0 fuel v t = .ok (v + u, t + u + 1) := by
  induction u generalizing fuel v t with
  | zero =>
    obtain ⟨f, rfl⟩ : ∃ f, fuel = f + 1 := ⟨fuel - 1, by omega⟩
    simp only [Nat.add_zero] at hx
    simp [readUnary, hx]
  | succ u ih =>
    obtain ⟨f, rfl⟩ : ∃ f, fuel = f + 1 := ⟨fuel - 1, by omega⟩
    have h0 := h 0 (by omega)
    simp only [Nat.add_zero] at h0
    simp only [readUnary, h0]
    have hy : ∀ y, y < u → readBit e c p0 (t + 1 + y) = .ok true := fun y hy => by
      rw [show t + 1 + y = t + (y + 1) by omega]
      exact h _ (by omega)
    rw [ih _ _ _ (by omega) hy (by rwa [show t + 1 + u = t + (u + 1) by omega])]
    congr 2 <;> omega

/-- A bit missing before the remainder's `k` bits are read stops it with the reader's error. -/
theorem readBinary_error {x : Err} {bs : List Bool} (k r t : Nat) (hk : bs.length < k)
    (h : ∀ y, (h : y < bs.length) → readBit e c p0 (t + y) = .ok bs[y])
    (hx : readBit e c p0 (t + bs.length) = .error x) : readBinary e c p0 k r t = .error x := by
  induction bs generalizing k r t with
  | nil =>
    obtain ⟨f, rfl⟩ : ∃ f, k = f + 1 := ⟨k - 1, by simp only [List.length_nil] at hk; omega⟩
    simp only [List.length_nil, Nat.add_zero] at hx
    simp [readBinary, hx]
  | cons b bs ih =>
    obtain ⟨f, rfl⟩ : ∃ f, k = f + 1 := ⟨k - 1, by simp only [List.length_cons] at hk; omega⟩
    have h0 := h 0 (by simp)
    simp only [Nat.add_zero, List.getElem_cons_zero] at h0
    simp only [readBinary, h0]
    refine ih _ _ _ (by simpa using hk) (fun y hy => ?_) ?_
    · have := h (y + 1) (by simpa using hy)
      rw [show t + 1 + y = t + (y + 1) by omega, this]
      rfl
    · rw [← hx]
      congr 1
      simp only [List.length_cons]
      omega

/-- The bits there are the remainder, the first the most significant. -/
theorem readBinary_ok {bs : List Bool} (r t : Nat)
    (h : ∀ y, (h : y < bs.length) → readBit e c p0 (t + y) = .ok bs[y]) :
    readBinary e c p0 bs.length r t = .ok (bs.foldl (fun r b => 2 * r + b.toNat) r, t + bs.length) := by
  induction bs generalizing r t with
  | nil => rfl
  | cons b bs ih =>
    have h0 := h 0 (by simp)
    simp only [Nat.add_zero, List.getElem_cons_zero] at h0
    simp only [List.length_cons, readBinary, h0]
    rw [ih _ _ (fun y hy => ?_)]
    · simp only [List.foldl_cons, Except.ok.injEq, Prod.mk.injEq, true_and]
      omega
    · have := h (y + 1) (by simpa using hy)
      rw [show t + 1 + y = t + (y + 1) by omega, this]
      rfl

/-- One value more after `m` values. -/
theorem readValues_snoc {k m t t1 t2 : Nat} {vs : List Int} {v : Int}
    (h : readValues e c p0 k m t = .ok (vs, t1)) (hv : readValue e c p0 k t1 = .ok (v, t2)) :
    readValues e c p0 k (m + 1) t = .ok (vs ++ [v], t2) := by
  induction m generalizing t vs with
  | zero =>
    simp only [readValues] at h
    cases h
    simp [readValues, hv]
  | succ m ih =>
    rw [readValues] at h
    split at h
    · cases h
    next w s hw =>
    split at h
    · cases h
    next ws s2 hws =>
    cases h
    rw [readValues, hw]
    simp only []
    rw [ih hws]
    rfl

/-- A value that cannot be read after `m` values stops any longer reading. -/
theorem readValues_error {k m n t t1 : Nat} {vs : List Int} {x : Err}
    (h : readValues e c p0 k m t = .ok (vs, t1)) (hx : readValue e c p0 k t1 = .error x) (hm : m < n) :
    readValues e c p0 k n t = .error x := by
  induction m generalizing n t vs with
  | zero =>
    simp only [readValues] at h
    cases h
    obtain ⟨f, rfl⟩ : ∃ f, n = f + 1 := ⟨n - 1, by omega⟩
    simp [readValues, hx]
  | succ m ih =>
    obtain ⟨f, rfl⟩ : ∃ f, n = f + 1 := ⟨n - 1, by omega⟩
    rw [readValues] at h
    split at h
    · cases h
    next w s hw =>
    split at h
    · cases h
    next ws s2 hws =>
    cases h
    rw [readValues, hw]
    simp only []
    rw [ih hws (by omega)]

end Sys2Proof.Machine
end

