-- ==== Sys2Proof/Laws/Operands.lean ====
section
/-! SUPPORT. The operand ranges and the configuration checks in terms of numbers. -/

namespace Sys2Proof.Machine

/-! ### Ranges -/

theorem Span.has_iff (x : Span) (a : Nat) : x.has a = true ↔ x.lo ≤ a ∧ a < x.lo + x.len := by
  unfold Span.has
  rw [Bool.and_eq_true, decide_eq_true_iff, decide_eq_true_iff]

theorem Span.overlaps_iff (x y : Span) :
    x.overlaps y = true ↔ 0 < x.len ∧ 0 < y.len ∧ x.lo < y.lo + y.len ∧ y.lo < x.lo + x.len := by
  unfold Span.overlaps
  rw [Bool.and_eq_true, Bool.and_eq_true, Bool.and_eq_true, decide_eq_true_iff, decide_eq_true_iff,
    decide_eq_true_iff, decide_eq_true_iff]
  tauto

theorem Span.wraps_iff (x : Span) : x.wraps = true ↔ 2 ^ 32 < x.lo + x.len := by
  unfold Span.wraps
  rw [decide_eq_true_iff]
  exact Iff.rfl

/-- Ranges that do not overlap share no byte. -/
theorem Span.apart {x y : Span} (h : x.overlaps y = false) (a : Nat) (hx : x.has a = true) : y.has a = false := by
  rw [← Bool.not_eq_true, Span.overlaps_iff] at h
  rw [← Bool.not_eq_true, Span.has_iff]
  rw [Span.has_iff] at hx
  omega

/-- A platform that marks no byte of a range marks none of a part of it. -/
theorem hits_part {bad : List Span} {x y : Span} (h : hits bad [x] = false) (hlo : x.lo ≤ y.lo)
    (hhi : y.lo + y.len ≤ x.lo + x.len) : hits bad [y] = false := by
  simp only [hits, List.any_cons, List.any_nil, Bool.or_false, List.any_eq_false, Bool.not_eq_true] at h ⊢
  intro b hb
  have := h b hb
  rw [← Bool.not_eq_true, Span.overlaps_iff] at this ⊢
  omega

theorem hits_cons (bad : List Span) (x : Span) (xs : List Span) :
    hits bad (x :: xs) = (hits bad [x] || hits bad xs) := by
  simp [hits]

theorem hits_append (bad xs ys : List Span) : hits bad (xs ++ ys) = (hits bad xs || hits bad ys) := by
  simp [hits]

/-! ### The checks -/

/-- The range checks pass exactly where both ranges exist and share no byte (R339). -/
theorem rangeCheck_none_iff (l : Latched) : rangeCheck l = none ↔ l.decodable := by
  have hw : ∀ x : Span, x.wraps = false ↔ x.lo + x.len ≤ 2 ^ 32 := by
    intro x
    rw [← Bool.not_eq_true, Span.wraps_iff]
    omega
  unfold rangeCheck
  constructor
  · intro h
    split_ifs at h with h1 h2
    rw [Bool.not_eq_true, Bool.or_eq_false_iff, hw, hw] at h1
    exact ⟨h1.1, h1.2, by simpa using h2⟩
  · intro h
    have h1 := (hw l.inSpan).mpr h.source
    have h2 := (hw l.outSpan).mpr h.target
    simp [h1, h2, h.apart]

theorem depthOk_iff (d : Nat) : depthOk d = true ↔ d ∈ Config.depths := by
  simp [depthOk]

/-- ENCODE's checks pass exactly where its configuration is legal (R335 steps 1 to 5). -/
theorem encodeCheck_none_iff (l : Latched) : encodeCheck l = none ↔ l.encodable := by
  unfold encodeCheck
  constructor
  · intro h
    dsimp only at h
    split_ifs at h with h1 h2 h3
    have hr := (rangeCheck_none_iff l).mp h
    refine ⟨(depthOk_iff _).mp (by simpa using h1), by omega, ?_, hr.source, hr.target, hr.apart⟩
    rw [not_not] at h3
    exact h3
  · intro h
    have hr := (rangeCheck_none_iff l).mpr ⟨h.source, h.target, h.apart⟩
    have hd := (depthOk_iff _).mpr h.depth
    have hw : l.srcLen.toNat % (l.channels.toNat * bps l.depth.toNat) = 0 := h.whole
    have hc := h.channels
    simp [hd, hw, hr, show l.channels.toNat ≠ 0 by omega]

/-- A legal configuration's samples fill its input range exactly (R152). -/
theorem encodable_samples {l : Latched} (h : l.encodable) :
    l.samples * l.channels.toNat * bps l.depth.toNat = l.srcLen.toNat := by
  rw [Latched.samples, sampleCount, mul_assoc]
  exact Nat.div_mul_cancel (Nat.dvd_of_mod_eq_zero h.whole)

/-- Every sample of a buffer lies before the buffer's end (R151). -/
theorem addr_le_end {y : Layout} {n c s lim : Nat} (hs : s < n) (hc : c < y.channels)
    (h : y.base + n * y.channels * bps y.depth ≤ lim) : y.addr s c + bps y.depth ≤ lim := by
  have h1 : s * y.channels + c + 1 ≤ n * y.channels := by
    have := Nat.mul_le_mul_right y.channels (Nat.succ_le_of_lt hs)
    rw [Nat.succ_mul] at this
    omega
  have h2 := Nat.mul_le_mul_right (bps y.depth) h1
  rw [Nat.succ_mul] at h2
  simp only [Layout.addr]
  omega

@[simp] theorem encodeInput_length (l : Latched) (m : Memory) : (encodeInput l m).length = l.channels.toNat := by
  simp [encodeInput, Latched.layout]

theorem encodeInput_whole (l : Latched) (m : Memory) : ∀ x ∈ encodeInput l m, x.length = l.samples := by
  intro x hx
  simp only [encodeInput, readChannels, List.mem_map] at hx
  obtain ⟨c, -, rfl⟩ := hx
  simp

end Sys2Proof.Machine
end

