-- ==== Sys2Proof/Laws/State.lean ====
section
/-! SUPPORT. One lemma per field per named update of the registers and of the state, each true by
definition, so that no proof unfolds a record update. -/

namespace Sys2Proof.Machine

/-! ### Updates of the registers -/

@[simp] theorem Regs.writeCtrl_irqEn (r : Regs) (v : Word) : (r.writeCtrl v).irqEn = v.getLsbD 0 := rfl
@[simp] theorem Regs.writeCtrl_ditherEn (r : Regs) (v : Word) : (r.writeCtrl v).ditherEn = v.getLsbD 1 := rfl
@[simp] theorem Regs.writeCtrl_done (r : Regs) (v : Word) : (r.writeCtrl v).done = r.done := rfl
@[simp] theorem Regs.writeCtrl_err (r : Regs) (v : Word) : (r.writeCtrl v).err = r.err := rfl
@[simp] theorem Regs.writeCtrl_ign (r : Regs) (v : Word) : (r.writeCtrl v).ign = r.ign := rfl
@[simp] theorem Regs.writeCtrl_errCode (r : Regs) (v : Word) : (r.writeCtrl v).errCode = r.errCode := rfl
@[simp] theorem Regs.writeCtrl_errInfo (r : Regs) (v : Word) : (r.writeCtrl v).errInfo = r.errInfo := rfl
@[simp] theorem Regs.writeCtrl_srcAddr (r : Regs) (v : Word) : (r.writeCtrl v).srcAddr = r.srcAddr := rfl
@[simp] theorem Regs.writeCtrl_srcLen (r : Regs) (v : Word) : (r.writeCtrl v).srcLen = r.srcLen := rfl
@[simp] theorem Regs.writeCtrl_dstAddr (r : Regs) (v : Word) : (r.writeCtrl v).dstAddr = r.dstAddr := rfl
@[simp] theorem Regs.writeCtrl_dstCap (r : Regs) (v : Word) : (r.writeCtrl v).dstCap = r.dstCap := rfl
@[simp] theorem Regs.writeCtrl_sampleRate (r : Regs) (v : Word) : (r.writeCtrl v).sampleRate = r.sampleRate := rfl
@[simp] theorem Regs.writeCtrl_depth (r : Regs) (v : Word) : (r.writeCtrl v).depth = r.depth := rfl
@[simp] theorem Regs.writeCtrl_channels (r : Regs) (v : Word) : (r.writeCtrl v).channels = r.channels := rfl
@[simp] theorem Regs.writeCtrl_outLen (r : Regs) (v : Word) : (r.writeCtrl v).outLen = r.outLen := rfl
@[simp] theorem Regs.writeCtrl_inUsed (r : Regs) (v : Word) : (r.writeCtrl v).inUsed = r.inUsed := rfl
@[simp] theorem Regs.writeCtrl_resRate (r : Regs) (v : Word) : (r.writeCtrl v).resRate = r.resRate := rfl
@[simp] theorem Regs.writeCtrl_resDepth (r : Regs) (v : Word) : (r.writeCtrl v).resDepth = r.resDepth := rfl
@[simp] theorem Regs.writeCtrl_resChannels (r : Regs) (v : Word) : (r.writeCtrl v).resChannels = r.resChannels := rfl
@[simp] theorem Regs.writeCtrl_resSamples (r : Regs) (v : Word) : (r.writeCtrl v).resSamples = r.resSamples := rfl

@[simp] theorem Regs.clearStatus_irqEn (r : Regs) (v : Word) : (r.clearStatus v).irqEn = r.irqEn := rfl
@[simp] theorem Regs.clearStatus_ditherEn (r : Regs) (v : Word) : (r.clearStatus v).ditherEn = r.ditherEn := rfl
@[simp] theorem Regs.clearStatus_done (r : Regs) (v : Word) : (r.clearStatus v).done = (r.done && !v.getLsbD 1) := rfl
@[simp] theorem Regs.clearStatus_err (r : Regs) (v : Word) : (r.clearStatus v).err = (r.err && !v.getLsbD 2) := rfl
@[simp] theorem Regs.clearStatus_ign (r : Regs) (v : Word) : (r.clearStatus v).ign = (r.ign && !v.getLsbD 3) := rfl
@[simp] theorem Regs.clearStatus_errCode (r : Regs) (v : Word) : (r.clearStatus v).errCode = r.errCode := rfl
@[simp] theorem Regs.clearStatus_errInfo (r : Regs) (v : Word) : (r.clearStatus v).errInfo = r.errInfo := rfl
@[simp] theorem Regs.clearStatus_srcAddr (r : Regs) (v : Word) : (r.clearStatus v).srcAddr = r.srcAddr := rfl
@[simp] theorem Regs.clearStatus_srcLen (r : Regs) (v : Word) : (r.clearStatus v).srcLen = r.srcLen := rfl
@[simp] theorem Regs.clearStatus_dstAddr (r : Regs) (v : Word) : (r.clearStatus v).dstAddr = r.dstAddr := rfl
@[simp] theorem Regs.clearStatus_dstCap (r : Regs) (v : Word) : (r.clearStatus v).dstCap = r.dstCap := rfl
@[simp] theorem Regs.clearStatus_sampleRate (r : Regs) (v : Word) : (r.clearStatus v).sampleRate = r.sampleRate := rfl
@[simp] theorem Regs.clearStatus_depth (r : Regs) (v : Word) : (r.clearStatus v).depth = r.depth := rfl
@[simp] theorem Regs.clearStatus_channels (r : Regs) (v : Word) : (r.clearStatus v).channels = r.channels := rfl
@[simp] theorem Regs.clearStatus_outLen (r : Regs) (v : Word) : (r.clearStatus v).outLen = r.outLen := rfl
@[simp] theorem Regs.clearStatus_inUsed (r : Regs) (v : Word) : (r.clearStatus v).inUsed = r.inUsed := rfl
@[simp] theorem Regs.clearStatus_resRate (r : Regs) (v : Word) : (r.clearStatus v).resRate = r.resRate := rfl
@[simp] theorem Regs.clearStatus_resDepth (r : Regs) (v : Word) : (r.clearStatus v).resDepth = r.resDepth := rfl
@[simp] theorem Regs.clearStatus_resChannels (r : Regs) (v : Word) : (r.clearStatus v).resChannels = r.resChannels := rfl
@[simp] theorem Regs.clearStatus_resSamples (r : Regs) (v : Word) : (r.clearStatus v).resSamples = r.resSamples := rfl

@[simp] theorem Regs.clearForAccept_irqEn (r : Regs) : (r.clearForAccept).irqEn = r.irqEn := rfl
@[simp] theorem Regs.clearForAccept_ditherEn (r : Regs) : (r.clearForAccept).ditherEn = r.ditherEn := rfl
@[simp] theorem Regs.clearForAccept_done (r : Regs) : (r.clearForAccept).done = false := rfl
@[simp] theorem Regs.clearForAccept_err (r : Regs) : (r.clearForAccept).err = false := rfl
@[simp] theorem Regs.clearForAccept_ign (r : Regs) : (r.clearForAccept).ign = r.ign := rfl
@[simp] theorem Regs.clearForAccept_errCode (r : Regs) : (r.clearForAccept).errCode = 0#32 := rfl
@[simp] theorem Regs.clearForAccept_errInfo (r : Regs) : (r.clearForAccept).errInfo = 0#32 := rfl
@[simp] theorem Regs.clearForAccept_srcAddr (r : Regs) : (r.clearForAccept).srcAddr = r.srcAddr := rfl
@[simp] theorem Regs.clearForAccept_srcLen (r : Regs) : (r.clearForAccept).srcLen = r.srcLen := rfl
@[simp] theorem Regs.clearForAccept_dstAddr (r : Regs) : (r.clearForAccept).dstAddr = r.dstAddr := rfl
@[simp] theorem Regs.clearForAccept_dstCap (r : Regs) : (r.clearForAccept).dstCap = r.dstCap := rfl
@[simp] theorem Regs.clearForAccept_sampleRate (r : Regs) : (r.clearForAccept).sampleRate = r.sampleRate := rfl
@[simp] theorem Regs.clearForAccept_depth (r : Regs) : (r.clearForAccept).depth = r.depth := rfl
@[simp] theorem Regs.clearForAccept_channels (r : Regs) : (r.clearForAccept).channels = r.channels := rfl
@[simp] theorem Regs.clearForAccept_outLen (r : Regs) : (r.clearForAccept).outLen = r.outLen := rfl
@[simp] theorem Regs.clearForAccept_inUsed (r : Regs) : (r.clearForAccept).inUsed = r.inUsed := rfl
@[simp] theorem Regs.clearForAccept_resRate (r : Regs) : (r.clearForAccept).resRate = r.resRate := rfl
@[simp] theorem Regs.clearForAccept_resDepth (r : Regs) : (r.clearForAccept).resDepth = r.resDepth := rfl
@[simp] theorem Regs.clearForAccept_resChannels (r : Regs) : (r.clearForAccept).resChannels = r.resChannels := rfl
@[simp] theorem Regs.clearForAccept_resSamples (r : Regs) : (r.clearForAccept).resSamples = r.resSamples := rfl

@[simp] theorem Regs.setIgn_irqEn (r : Regs) : (r.setIgn).irqEn = r.irqEn := rfl
@[simp] theorem Regs.setIgn_ditherEn (r : Regs) : (r.setIgn).ditherEn = r.ditherEn := rfl
@[simp] theorem Regs.setIgn_done (r : Regs) : (r.setIgn).done = r.done := rfl
@[simp] theorem Regs.setIgn_err (r : Regs) : (r.setIgn).err = r.err := rfl
@[simp] theorem Regs.setIgn_ign (r : Regs) : (r.setIgn).ign = true := rfl
@[simp] theorem Regs.setIgn_errCode (r : Regs) : (r.setIgn).errCode = r.errCode := rfl
@[simp] theorem Regs.setIgn_errInfo (r : Regs) : (r.setIgn).errInfo = r.errInfo := rfl
@[simp] theorem Regs.setIgn_srcAddr (r : Regs) : (r.setIgn).srcAddr = r.srcAddr := rfl
@[simp] theorem Regs.setIgn_srcLen (r : Regs) : (r.setIgn).srcLen = r.srcLen := rfl
@[simp] theorem Regs.setIgn_dstAddr (r : Regs) : (r.setIgn).dstAddr = r.dstAddr := rfl
@[simp] theorem Regs.setIgn_dstCap (r : Regs) : (r.setIgn).dstCap = r.dstCap := rfl
@[simp] theorem Regs.setIgn_sampleRate (r : Regs) : (r.setIgn).sampleRate = r.sampleRate := rfl
@[simp] theorem Regs.setIgn_depth (r : Regs) : (r.setIgn).depth = r.depth := rfl
@[simp] theorem Regs.setIgn_channels (r : Regs) : (r.setIgn).channels = r.channels := rfl
@[simp] theorem Regs.setIgn_outLen (r : Regs) : (r.setIgn).outLen = r.outLen := rfl
@[simp] theorem Regs.setIgn_inUsed (r : Regs) : (r.setIgn).inUsed = r.inUsed := rfl
@[simp] theorem Regs.setIgn_resRate (r : Regs) : (r.setIgn).resRate = r.resRate := rfl
@[simp] theorem Regs.setIgn_resDepth (r : Regs) : (r.setIgn).resDepth = r.resDepth := rfl
@[simp] theorem Regs.setIgn_resChannels (r : Regs) : (r.setIgn).resChannels = r.resChannels := rfl
@[simp] theorem Regs.setIgn_resSamples (r : Regs) : (r.setIgn).resSamples = r.resSamples := rfl

@[simp] theorem Regs.flagOk_irqEn (r : Regs) : (r.flagOk).irqEn = r.irqEn := rfl
@[simp] theorem Regs.flagOk_ditherEn (r : Regs) : (r.flagOk).ditherEn = r.ditherEn := rfl
@[simp] theorem Regs.flagOk_done (r : Regs) : (r.flagOk).done = true := rfl
@[simp] theorem Regs.flagOk_err (r : Regs) : (r.flagOk).err = false := rfl
@[simp] theorem Regs.flagOk_ign (r : Regs) : (r.flagOk).ign = r.ign := rfl
@[simp] theorem Regs.flagOk_errCode (r : Regs) : (r.flagOk).errCode = 0#32 := rfl
@[simp] theorem Regs.flagOk_errInfo (r : Regs) : (r.flagOk).errInfo = 0#32 := rfl
@[simp] theorem Regs.flagOk_srcAddr (r : Regs) : (r.flagOk).srcAddr = r.srcAddr := rfl
@[simp] theorem Regs.flagOk_srcLen (r : Regs) : (r.flagOk).srcLen = r.srcLen := rfl
@[simp] theorem Regs.flagOk_dstAddr (r : Regs) : (r.flagOk).dstAddr = r.dstAddr := rfl
@[simp] theorem Regs.flagOk_dstCap (r : Regs) : (r.flagOk).dstCap = r.dstCap := rfl
@[simp] theorem Regs.flagOk_sampleRate (r : Regs) : (r.flagOk).sampleRate = r.sampleRate := rfl
@[simp] theorem Regs.flagOk_depth (r : Regs) : (r.flagOk).depth = r.depth := rfl
@[simp] theorem Regs.flagOk_channels (r : Regs) : (r.flagOk).channels = r.channels := rfl
@[simp] theorem Regs.flagOk_outLen (r : Regs) : (r.flagOk).outLen = r.outLen := rfl
@[simp] theorem Regs.flagOk_inUsed (r : Regs) : (r.flagOk).inUsed = r.inUsed := rfl
@[simp] theorem Regs.flagOk_resRate (r : Regs) : (r.flagOk).resRate = r.resRate := rfl
@[simp] theorem Regs.flagOk_resDepth (r : Regs) : (r.flagOk).resDepth = r.resDepth := rfl
@[simp] theorem Regs.flagOk_resChannels (r : Regs) : (r.flagOk).resChannels = r.resChannels := rfl
@[simp] theorem Regs.flagOk_resSamples (r : Regs) : (r.flagOk).resSamples = r.resSamples := rfl

@[simp] theorem Regs.flagErr_irqEn (r : Regs) : (r.flagErr).irqEn = r.irqEn := rfl
@[simp] theorem Regs.flagErr_ditherEn (r : Regs) : (r.flagErr).ditherEn = r.ditherEn := rfl
@[simp] theorem Regs.flagErr_done (r : Regs) : (r.flagErr).done = true := rfl
@[simp] theorem Regs.flagErr_err (r : Regs) : (r.flagErr).err = true := rfl
@[simp] theorem Regs.flagErr_ign (r : Regs) : (r.flagErr).ign = r.ign := rfl
@[simp] theorem Regs.flagErr_errCode (r : Regs) : (r.flagErr).errCode = r.errCode := rfl
@[simp] theorem Regs.flagErr_errInfo (r : Regs) : (r.flagErr).errInfo = r.errInfo := rfl
@[simp] theorem Regs.flagErr_srcAddr (r : Regs) : (r.flagErr).srcAddr = r.srcAddr := rfl
@[simp] theorem Regs.flagErr_srcLen (r : Regs) : (r.flagErr).srcLen = r.srcLen := rfl
@[simp] theorem Regs.flagErr_dstAddr (r : Regs) : (r.flagErr).dstAddr = r.dstAddr := rfl
@[simp] theorem Regs.flagErr_dstCap (r : Regs) : (r.flagErr).dstCap = r.dstCap := rfl
@[simp] theorem Regs.flagErr_sampleRate (r : Regs) : (r.flagErr).sampleRate = r.sampleRate := rfl
@[simp] theorem Regs.flagErr_depth (r : Regs) : (r.flagErr).depth = r.depth := rfl
@[simp] theorem Regs.flagErr_channels (r : Regs) : (r.flagErr).channels = r.channels := rfl
@[simp] theorem Regs.flagErr_outLen (r : Regs) : (r.flagErr).outLen = r.outLen := rfl
@[simp] theorem Regs.flagErr_inUsed (r : Regs) : (r.flagErr).inUsed = r.inUsed := rfl
@[simp] theorem Regs.flagErr_resRate (r : Regs) : (r.flagErr).resRate = r.resRate := rfl
@[simp] theorem Regs.flagErr_resDepth (r : Regs) : (r.flagErr).resDepth = r.resDepth := rfl
@[simp] theorem Regs.flagErr_resChannels (r : Regs) : (r.flagErr).resChannels = r.resChannels := rfl
@[simp] theorem Regs.flagErr_resSamples (r : Regs) : (r.flagErr).resSamples = r.resSamples := rfl

@[simp] theorem Regs.recordErr_irqEn (r : Regs) (e : Err) : (r.recordErr e).irqEn = r.irqEn := rfl
@[simp] theorem Regs.recordErr_ditherEn (r : Regs) (e : Err) : (r.recordErr e).ditherEn = r.ditherEn := rfl
@[simp] theorem Regs.recordErr_done (r : Regs) (e : Err) : (r.recordErr e).done = true := rfl
@[simp] theorem Regs.recordErr_err (r : Regs) (e : Err) : (r.recordErr e).err = true := rfl
@[simp] theorem Regs.recordErr_ign (r : Regs) (e : Err) : (r.recordErr e).ign = r.ign := rfl
@[simp] theorem Regs.recordErr_errCode (r : Regs) (e : Err) : (r.recordErr e).errCode = errWord e := rfl
@[simp] theorem Regs.recordErr_errInfo (r : Regs) (e : Err) : (r.recordErr e).errInfo = BitVec.ofNat 32 e.info := rfl
@[simp] theorem Regs.recordErr_srcAddr (r : Regs) (e : Err) : (r.recordErr e).srcAddr = r.srcAddr := rfl
@[simp] theorem Regs.recordErr_srcLen (r : Regs) (e : Err) : (r.recordErr e).srcLen = r.srcLen := rfl
@[simp] theorem Regs.recordErr_dstAddr (r : Regs) (e : Err) : (r.recordErr e).dstAddr = r.dstAddr := rfl
@[simp] theorem Regs.recordErr_dstCap (r : Regs) (e : Err) : (r.recordErr e).dstCap = r.dstCap := rfl
@[simp] theorem Regs.recordErr_sampleRate (r : Regs) (e : Err) : (r.recordErr e).sampleRate = r.sampleRate := rfl
@[simp] theorem Regs.recordErr_depth (r : Regs) (e : Err) : (r.recordErr e).depth = r.depth := rfl
@[simp] theorem Regs.recordErr_channels (r : Regs) (e : Err) : (r.recordErr e).channels = r.channels := rfl
@[simp] theorem Regs.recordErr_outLen (r : Regs) (e : Err) : (r.recordErr e).outLen = errOutLen e := rfl
@[simp] theorem Regs.recordErr_inUsed (r : Regs) (e : Err) : (r.recordErr e).inUsed = 0#32 := rfl
@[simp] theorem Regs.recordErr_resRate (r : Regs) (e : Err) : (r.recordErr e).resRate = 0#32 := rfl
@[simp] theorem Regs.recordErr_resDepth (r : Regs) (e : Err) : (r.recordErr e).resDepth = 0#8 := rfl
@[simp] theorem Regs.recordErr_resChannels (r : Regs) (e : Err) : (r.recordErr e).resChannels = 0#16 := rfl
@[simp] theorem Regs.recordErr_resSamples (r : Regs) (e : Err) : (r.recordErr e).resSamples = 0#32 := rfl

@[simp] theorem Regs.recordResults_irqEn (r : Regs) (v : Results) : (r.recordResults v).irqEn = r.irqEn := rfl
@[simp] theorem Regs.recordResults_ditherEn (r : Regs) (v : Results) : (r.recordResults v).ditherEn = r.ditherEn := rfl
@[simp] theorem Regs.recordResults_done (r : Regs) (v : Results) : (r.recordResults v).done = r.done := rfl
@[simp] theorem Regs.recordResults_err (r : Regs) (v : Results) : (r.recordResults v).err = r.err := rfl
@[simp] theorem Regs.recordResults_ign (r : Regs) (v : Results) : (r.recordResults v).ign = r.ign := rfl
@[simp] theorem Regs.recordResults_errCode (r : Regs) (v : Results) : (r.recordResults v).errCode = r.errCode := rfl
@[simp] theorem Regs.recordResults_errInfo (r : Regs) (v : Results) : (r.recordResults v).errInfo = r.errInfo := rfl
@[simp] theorem Regs.recordResults_srcAddr (r : Regs) (v : Results) : (r.recordResults v).srcAddr = r.srcAddr := rfl
@[simp] theorem Regs.recordResults_srcLen (r : Regs) (v : Results) : (r.recordResults v).srcLen = r.srcLen := rfl
@[simp] theorem Regs.recordResults_dstAddr (r : Regs) (v : Results) : (r.recordResults v).dstAddr = r.dstAddr := rfl
@[simp] theorem Regs.recordResults_dstCap (r : Regs) (v : Results) : (r.recordResults v).dstCap = r.dstCap := rfl
@[simp] theorem Regs.recordResults_sampleRate (r : Regs) (v : Results) : (r.recordResults v).sampleRate = r.sampleRate := rfl
@[simp] theorem Regs.recordResults_depth (r : Regs) (v : Results) : (r.recordResults v).depth = r.depth := rfl
@[simp] theorem Regs.recordResults_channels (r : Regs) (v : Results) : (r.recordResults v).channels = r.channels := rfl
@[simp] theorem Regs.recordResults_outLen (r : Regs) (v : Results) : (r.recordResults v).outLen = BitVec.ofNat 32 v.outLen := rfl
@[simp] theorem Regs.recordResults_inUsed (r : Regs) (v : Results) : (r.recordResults v).inUsed = BitVec.ofNat 32 v.inUsed := rfl
@[simp] theorem Regs.recordResults_resRate (r : Regs) (v : Results) : (r.recordResults v).resRate = BitVec.ofNat 32 v.rate := rfl
@[simp] theorem Regs.recordResults_resDepth (r : Regs) (v : Results) : (r.recordResults v).resDepth = BitVec.ofNat 8 v.depth := rfl
@[simp] theorem Regs.recordResults_resChannels (r : Regs) (v : Results) : (r.recordResults v).resChannels = BitVec.ofNat 16 v.channels := rfl
@[simp] theorem Regs.recordResults_resSamples (r : Regs) (v : Results) : (r.recordResults v).resSamples = BitVec.ofNat 32 v.samples := rfl

/-! ### Updates of the state -/

@[simp] theorem accept_regs (w : Word) (s : State) : (accept w s).regs = s.regs.clearForAccept := rfl
@[simp] theorem accept_phase (w : Word) (s : State) : (accept w s).phase = .busy (latch s.regs w) none := rfl
@[simp] theorem accept_inReset (w : Word) (s : State) : (accept w s).inReset = s.inReset := rfl
@[simp] theorem accept_mem (w : Word) (s : State) : (accept w s).mem = s.mem := rfl
@[simp] theorem accept_platform (w : Word) (s : State) : (accept w s).platform = s.platform := rfl
@[simp] theorem accept_inputs (w : Word) (s : State) : (accept w s).inputs = s.inputs := rfl
@[simp] theorem accept_response (w : Word) (s : State) : (accept w s).response = s.response := rfl
@[simp] theorem accept_draws (w : Word) (s : State) : (accept w s).draws = s.draws := rfl

@[simp] theorem raise_regs (e : Err) (s : State) : (raise e s).regs = s.regs.recordErr e := rfl
@[simp] theorem raise_phase (e : Err) (s : State) : (raise e s).phase = .idle := rfl
@[simp] theorem raise_inReset (e : Err) (s : State) : (raise e s).inReset = s.inReset := rfl
@[simp] theorem raise_mem (e : Err) (s : State) : (raise e s).mem = s.mem := rfl
@[simp] theorem raise_platform (e : Err) (s : State) : (raise e s).platform = s.platform := rfl
@[simp] theorem raise_inputs (e : Err) (s : State) : (raise e s).inputs = s.inputs := rfl
@[simp] theorem raise_response (e : Err) (s : State) : (raise e s).response = s.response := rfl
@[simp] theorem raise_draws (e : Err) (s : State) : (raise e s).draws = s.draws := rfl

@[simp] theorem finish_regs (s : State) : (finish s).regs = s.regs.flagOk := rfl
@[simp] theorem finish_phase (s : State) : (finish s).phase = .idle := rfl
@[simp] theorem finish_inReset (s : State) : (finish s).inReset = s.inReset := rfl
@[simp] theorem finish_mem (s : State) : (finish s).mem = s.mem := rfl
@[simp] theorem finish_platform (s : State) : (finish s).platform = s.platform := rfl
@[simp] theorem finish_inputs (s : State) : (finish s).inputs = s.inputs := rfl
@[simp] theorem finish_response (s : State) : (finish s).response = s.response := rfl
@[simp] theorem finish_draws (s : State) : (finish s).draws = s.draws := rfl

@[simp] theorem finishWith_regs (v : Results) (s : State) : (finishWith v s).regs = s.regs.flagOk.recordResults v := rfl
@[simp] theorem finishWith_phase (v : Results) (s : State) : (finishWith v s).phase = .idle := rfl
@[simp] theorem finishWith_inReset (v : Results) (s : State) : (finishWith v s).inReset = s.inReset := rfl
@[simp] theorem finishWith_mem (v : Results) (s : State) : (finishWith v s).mem = s.mem := rfl
@[simp] theorem finishWith_platform (v : Results) (s : State) : (finishWith v s).platform = s.platform := rfl
@[simp] theorem finishWith_inputs (v : Results) (s : State) : (finishWith v s).inputs = s.inputs := rfl
@[simp] theorem finishWith_response (v : Results) (s : State) : (finishWith v s).response = s.response := rfl
@[simp] theorem finishWith_draws (v : Results) (s : State) : (finishWith v s).draws = s.draws := rfl

@[simp] theorem resetCore_regs (s : State) : (resetCore s).regs = Regs.reset := rfl
@[simp] theorem resetCore_phase (s : State) : (resetCore s).phase = .idle := rfl
@[simp] theorem resetCore_inReset (s : State) : (resetCore s).inReset = s.inReset := rfl
@[simp] theorem resetCore_mem (s : State) : (resetCore s).mem = resetMemory s := rfl
@[simp] theorem resetCore_platform (s : State) : (resetCore s).platform = s.platform := rfl
@[simp] theorem resetCore_inputs (s : State) : (resetCore s).inputs = s.inputs := rfl
@[simp] theorem resetCore_response (s : State) : (resetCore s).response = s.response := rfl
@[simp] theorem resetCore_draws (s : State) : (resetCore s).draws = s.draws + 2 := rfl

@[simp] theorem assertReset_regs (s : State) : (assertReset s).regs = Regs.reset := rfl
@[simp] theorem assertReset_phase (s : State) : (assertReset s).phase = .idle := rfl
@[simp] theorem assertReset_inReset (s : State) : (assertReset s).inReset = true := rfl
@[simp] theorem assertReset_mem (s : State) : (assertReset s).mem = resetMemory s := rfl
@[simp] theorem assertReset_platform (s : State) : (assertReset s).platform = s.platform := rfl
@[simp] theorem assertReset_inputs (s : State) : (assertReset s).inputs = s.inputs := rfl
@[simp] theorem assertReset_response (s : State) : (assertReset s).response = s.response := rfl
@[simp] theorem assertReset_draws (s : State) : (assertReset s).draws = s.draws + 2 := rfl

@[simp] theorem releaseReset_regs (s : State) : (releaseReset s).regs = s.regs := rfl
@[simp] theorem releaseReset_phase (s : State) : (releaseReset s).phase = s.phase := rfl
@[simp] theorem releaseReset_inReset (s : State) : (releaseReset s).inReset = false := rfl
@[simp] theorem releaseReset_mem (s : State) : (releaseReset s).mem = s.mem := rfl
@[simp] theorem releaseReset_platform (s : State) : (releaseReset s).platform = s.platform := rfl
@[simp] theorem releaseReset_inputs (s : State) : (releaseReset s).inputs = s.inputs := rfl
@[simp] theorem releaseReset_response (s : State) : (releaseReset s).response = s.response := rfl
@[simp] theorem releaseReset_draws (s : State) : (releaseReset s).draws = s.draws := rfl

end Sys2Proof.Machine
end

