-- ==== Sys2Proof/Laws/Ops.lean ====
section
/-! SUPPORT. For each shared operation, once, everything it can do: proofs cite these and do not unfold the
operation again. -/

namespace Sys2Proof.Machine

/-! ### While busy -/

theorem whileBusy_busy {s : State} {l : Latched} {work : Option Parse} (f : Latched → Option Parse → State)
    (h : s.phase = .busy l work) : whileBusy s f = .next (f l work) := by
  simp [whileBusy, h]

theorem whileBusy_idle {s : State} (f : Latched → Option Parse → State) (h : s.phase = .idle) :
    whileBusy s f = .next s := by
  simp [whileBusy, h]

/-- What a command's meaning can answer: idle, the state as it was; busy, what the command leaves. -/
theorem whileBusy_cases {s t : State} {f : Latched → Option Parse → State} (h : whileBusy s f = .next t) :
    (s.phase = .idle ∧ t = s) ∨ (∃ l work, s.phase = .busy l work ∧ t = f l work) := by
  cases hp : s.phase with
  | idle => rw [whileBusy_idle f hp] at h; cases h; exact .inl ⟨rfl, rfl⟩
  | busy l work => rw [whileBusy_busy f hp] at h; cases h; exact .inr ⟨l, work, rfl, rfl⟩

/-! ### Register writes -/

/-- A busy-locked write: ignored with IGN set, or the update. -/
theorem lockedWrite_cases (f : Regs → Regs) (s : State) :
    (s.phase.isBusy = true ∧ lockedWrite f s = { s with regs := s.regs.setIgn }) ∨
    (s.phase = .idle ∧ lockedWrite f s = { s with regs := f s.regs }) := by
  cases hp : s.phase with
  | idle => right; simp [lockedWrite, hp]
  | busy l work => left; simp [lockedWrite, hp, Phase.isBusy]

/-- A CMD write: ignored with IGN set, or accepted. -/
theorem cmdWrite_cases (w : Word) (s : State) :
    (s.phase.isBusy = true ∧ cmdWrite w s = { s with regs := s.regs.setIgn }) ∨
    (s.phase = .idle ∧ cmdWrite w s = accept w s) := by
  cases hp : s.phase with
  | idle => right; simp [cmdWrite, hp]
  | busy l work => left; simp [cmdWrite, hp, Phase.isBusy]

/-- A register write changes registers only, or is the acceptance of a command by an idle engine. -/
theorem writeReg_cases (s : State) (v : Word) (r : Reg) :
    (∃ regs, writeReg s v r = { s with regs := regs }) ∨
    (r = .cmd ∧ s.phase = .idle ∧ writeReg s v r = accept v s) := by
  cases r with
  | cmd =>
    rcases cmdWrite_cases v s with ⟨_, h⟩ | ⟨hp, h⟩
    · exact .inl ⟨_, h⟩
    · exact .inr ⟨rfl, hp, h⟩
  | srcAddr | srcLen | dstAddr | dstCap | sampleRate | depth | channels =>
    left
    simp only [writeReg]
    rcases lockedWrite_cases _ s with ⟨_, h⟩ | ⟨_, h⟩ <;> exact ⟨_, h⟩
  | ctrl | status => exact .inl ⟨_, rfl⟩
  | id | param | errCode | errInfo | outLen | inUsed | resRate | resDepth | resChannels | resSamples =>
    exact .inl ⟨s.regs, rfl⟩

/-- A word written at an offset: nothing in reset or at a reserved offset, else the register's write. -/
theorem offsetWrite_cases (s : State) (off : Nat) (v : Word) :
    offsetWrite s off v = s ∨ (s.inReset = false ∧ ∃ r, regAt off = some r ∧ offsetWrite s off v = writeReg s v r) := by
  cases hr : s.inReset with
  | true => left; simp [offsetWrite, hr]
  | false =>
    cases ho : regAt off with
    | none => left; simp [offsetWrite, hr, ho]
    | some r => right; exact ⟨rfl, r, rfl, by simp [offsetWrite, hr, ho]⟩

@[simp] theorem offsetWrite_inReset (s : State) (off : Nat) (v : Word) :
    (offsetWrite s off v).inReset = s.inReset := by
  rcases offsetWrite_cases s off v with h | ⟨-, r, -, h⟩
  · rw [h]
  · rcases writeReg_cases s v r with ⟨_, h'⟩ | ⟨-, -, h'⟩ <;> simp [h, h']

@[simp] theorem offsetWrite_mem (s : State) (off : Nat) (v : Word) : (offsetWrite s off v).mem = s.mem := by
  rcases offsetWrite_cases s off v with h | ⟨-, r, -, h⟩
  · rw [h]
  · rcases writeReg_cases s v r with ⟨_, h'⟩ | ⟨-, -, h'⟩ <;> simp [h, h']

@[simp] theorem offsetWrite_draws (s : State) (off : Nat) (v : Word) :
    (offsetWrite s off v).draws = s.draws := by
  rcases offsetWrite_cases s off v with h | ⟨-, r, -, h⟩
  · rw [h]
  · rcases writeReg_cases s v r with ⟨_, h'⟩ | ⟨-, -, h'⟩ <;> simp [h, h']

@[simp] theorem offsetWrite_platform (s : State) (off : Nat) (v : Word) :
    (offsetWrite s off v).platform = s.platform := by
  rcases offsetWrite_cases s off v with h | ⟨-, r, -, h⟩
  · rw [h]
  · rcases writeReg_cases s v r with ⟨_, h'⟩ | ⟨-, -, h'⟩ <;> simp [h, h']

/-! ### The host's accesses -/

/-- An aligned 32-bit access that meets the block begins at one of its offsets. -/
theorem meetsBlock_word {s : State} {addr : Word} (h : meetsBlock s addr .word = true)
    (ha : regOffset s addr % 4 = 0) : regOffset s addr < 256 := by
  unfold meetsBlock at h
  rw [Bool.or_eq_true, decide_eq_true_iff, decide_eq_true_iff] at h
  have : regOffset s addr < 2 ^ 32 := BitVec.isLt _
  simp only [Config.addrTop, sizeBytes] at h
  omega

/-- If a bus write answers a next state, the access was outside the block or a defined one. -/
theorem busWrite_next {addr : Word} {size : AccessSize} {v : Word} {s t : State}
    (h : busWrite addr size v s = .next t) :
    (meetsBlock s addr size = false ∧ t = s) ∨
    (regOffset s addr < 256 ∧ size = .word ∧ regOffset s addr % 4 = 0 ∧
      t = offsetWrite s (regOffset s addr) v) := by
  simp only [busWrite] at h
  split_ifs at h with h1 h2
  · cases h; exact .inl ⟨by simpa using h1, rfl⟩
  · rw [not_or, not_not, not_not] at h2
    obtain ⟨rfl, h3⟩ := h2
    cases h
    exact .inr ⟨meetsBlock_word (by simpa using h1) h3, rfl, h3, rfl⟩

/-- If a bus read answers a next state, only the response is new. -/
theorem busRead_next {addr : Word} {size : AccessSize} {s t : State} (h : busRead addr size s = .next t) :
    (meetsBlock s addr size = false ∧ t = { s with response := .none }) ∨
    (regOffset s addr < 256 ∧ size = .word ∧ regOffset s addr % 4 = 0 ∧
      t = { s with response := .reg (offsetRead s (regOffset s addr)) }) := by
  simp only [busRead] at h
  split_ifs at h with h1 h2
  · cases h; exact .inl ⟨by simpa using h1, rfl⟩
  · rw [not_or, not_not, not_not] at h2
    obtain ⟨rfl, h3⟩ := h2
    cases h
    exact .inr ⟨meetsBlock_word (by simpa using h1) h3, rfl, h3, rfl⟩

/-- If a host write answers a next state, it was inside the space and off the running command's ranges, and
only memory is new. -/
theorem hostMemWrite_next {addr : Word} {bytes : List Byte} {s t : State}
    (h : hostMemWrite addr bytes s = .next t) :
    addr.toNat + bytes.length ≤ Config.addrTop ∧
    (∀ o ∈ ownedSpans s, o.overlaps ⟨addr.toNat, bytes.length⟩ = false) ∧
    t = { s with mem := s.mem.writeBytes addr.toNat bytes } := by
  simp only [hostMemWrite] at h
  split_ifs at h with h1 h2
  cases h
  refine ⟨by omega, ?_, rfl⟩
  simpa using h2

/-- If a host memory read answers a next state, it was inside the space, and the response and one draw are
new. -/
theorem hostMemRead_next {addr : Word} {len : Nat} {s t : State} (h : hostMemRead addr len s = .next t) :
    addr.toNat + len ≤ Config.addrTop ∧
    t = { s with response := .mem (hostBytes s addr.toNat len), draws := s.draws + 1 } := by
  simp only [hostMemRead] at h
  split_ifs at h with h1
  cases h
  exact ⟨by omega, rfl⟩

theorem hostBytes_length (s : State) (a n : Nat) : (hostBytes s a n).length = n := by
  induction n generalizing a with
  | zero => rfl
  | succ n ih => simp [hostBytes, ih]

theorem hostBytes_getElem (s : State) (a n i : Nat) (h : i < (hostBytes s a n).length) :
    (hostBytes s a n)[i] = hostByte s (a + i) := by
  induction n generalizing a i with
  | zero => simp [hostBytes] at h
  | succ n ih =>
    cases i with
    | zero => simp [hostBytes]
    | succ i => simp [hostBytes, ih, Nat.add_assoc, Nat.add_comm 1 i]

/-! ### Completion -/

/-- What completing a command that reaches memory can do: a bus error, the command's own result, or its own
error. -/
theorem settle_cases (l : Latched) (f : Effect) (s : State) :
    ((hits s.platform.busFaults f.reads || hits s.platform.busFaults f.writes) = true ∧
      settle l f s = raise (busErr s.platform.busFaults f s.draws)
        { s with mem := (s.mem.havoc l.inSpan s.draws).havoc l.outSpan (s.draws + 1), draws := s.draws + 2 }) ∨
    (∃ v, f.result = .ok v ∧ settle l f s = finishWith v { s with mem := f.mem, draws := s.draws + 2 }) ∨
    (∃ e, f.result = .error e ∧
      settle l f s = raise e { s with mem := f.mem.havoc l.outSpan (s.draws + 1), draws := s.draws + 2 }) := by
  simp only [settle]
  split_ifs with h
  · exact .inl ⟨(Bool.and_eq_true_iff.mp h).1, rfl⟩
  · cases hr : f.result with
    | ok v => exact .inr (.inl ⟨v, rfl, rfl⟩)
    | error e => exact .inr (.inr ⟨e, rfl, rfl⟩)

/-- On a platform that marks no byte the command uses, its own result or error stands. -/
theorem settle_quiet {l : Latched} {f : Effect} {s : State} (hr : hits s.platform.busFaults f.reads = false)
    (hw : hits s.platform.busFaults f.writes = false) :
    settle l f s =
      match f.result with
      | .ok v => finishWith v { s with mem := f.mem, draws := s.draws + 2 }
      | .error e => raise e { s with mem := f.mem.havoc l.outSpan (s.draws + 1), draws := s.draws + 2 } := by
  cases h : f.result <;> simp [settle, hr, hw, h]

@[simp] theorem settle_phase (l : Latched) (f : Effect) (s : State) : (settle l f s).phase = .idle := by
  rcases settle_cases l f s with ⟨-, h⟩ | ⟨v, -, h⟩ | ⟨e, -, h⟩ <;> simp [h]

@[simp] theorem settle_inReset (l : Latched) (f : Effect) (s : State) :
    (settle l f s).inReset = s.inReset := by
  rcases settle_cases l f s with ⟨-, h⟩ | ⟨v, -, h⟩ | ⟨e, -, h⟩ <;> simp [h]

@[simp] theorem settle_platform (l : Latched) (f : Effect) (s : State) :
    (settle l f s).platform = s.platform := by
  rcases settle_cases l f s with ⟨-, h⟩ | ⟨v, -, h⟩ | ⟨e, -, h⟩ <;> simp [h]

@[simp] theorem settle_inputs (l : Latched) (f : Effect) (s : State) : (settle l f s).inputs = s.inputs := by
  rcases settle_cases l f s with ⟨-, h⟩ | ⟨v, -, h⟩ | ⟨e, -, h⟩ <;> simp [h]

@[simp] theorem settle_response (l : Latched) (f : Effect) (s : State) :
    (settle l f s).response = s.response := by
  rcases settle_cases l f s with ⟨-, h⟩ | ⟨v, -, h⟩ | ⟨e, -, h⟩ <;> simp [h]

@[simp] theorem settle_draws (l : Latched) (f : Effect) (s : State) : (settle l f s).draws = s.draws + 2 := by
  rcases settle_cases l f s with ⟨-, h⟩ | ⟨v, -, h⟩ | ⟨e, -, h⟩ <;> simp [h]

/-- ENCODE's completion: a configuration error, or its effect settled. -/
theorem completeEncode_cases (l : Latched) (s : State) :
    (∃ e, encodeCheck l = some e ∧ completeEncode l s = raise e s) ∨
    (encodeCheck l = none ∧ completeEncode l s = settle l (encodeEffect l s.mem) s) := by
  cases h : encodeCheck l with
  | some e => exact .inl ⟨e, rfl, by simp [completeEncode, h]⟩
  | none => exact .inr ⟨rfl, by simp [completeEncode, h]⟩

/-- DECODE's completion: a range error, or the parse's outcome settled. -/
theorem completeDecode_cases (l : Latched) (work : Option Parse) (s : State) :
    (∃ e, rangeCheck l = some e ∧ completeDecode l work s = raise e s) ∨
    (rangeCheck l = none ∧ completeDecode l work s =
      settle l (decodeEffect l s.mem (channelsKnown (l.source s.mem) l.cap.toNat (parserAt work))
        (parseAll (l.source s.mem) l.cap.toNat (parserAt work))) s) := by
  cases h : rangeCheck l with
  | some e => exact .inl ⟨e, rfl, by simp [completeDecode, h]⟩
  | none => exact .inr ⟨rfl, by simp [completeDecode, h, settleDecode]⟩

/-- A DECODE's turn: the parser moves on, or the command ends with the error raised. -/
theorem decodeMove_cases (l : Latched) (p : Parse) (r : Except Err Parse) (s : State) :
    (∃ p', r = .ok p' ∧ decodeMove l p r s = { s with phase := .busy l (some p') }) ∨
    (∃ e, r = .error e ∧ decodeMove l p r s =
      settle l (decodeEffect l s.mem (channelsKnown (l.source s.mem) l.cap.toNat p) (.error e)) s) := by
  cases r with
  | ok p' => exact .inl ⟨p', rfl, rfl⟩
  | error e => exact .inr ⟨e, rfl, rfl⟩

/-- What meeting a tag can do: where a parser expects a tag, its move; elsewhere, nothing. -/
theorem seeTag_cases (seen : Tag) (s : State) :
    (∃ l p want, s.phase = .busy l (some p) ∧ p.stage = .tag want ∧
      seeTag seen s = .next (decodeMove l p (meetTag want seen p) s)) ∨
    seeTag seen s = .next s := by
  cases hp : s.phase with
  | idle => right; simp [seeTag, hp]
  | busy l work =>
    cases work with
    | none => right; simp [seeTag, hp]
    | some p =>
      cases hs : p.stage with
      | tag want => left; exact ⟨l, p, want, rfl, hs, by simp [seeTag, hp, hs]⟩
      | body t => right; simp [seeTag, hp, hs]
      | done => right; simp [seeTag, hp, hs]

/-! ### Turns and steps -/

/-- The completing turn: nothing while idle; else the decoded command, or the illegal one's error. -/
theorem completeTurn_cases (s : State) :
    (s.phase = .idle ∧ completeTurn s = .reach s) ∨
    (∃ l work, s.phase = .busy l work ∧
      ((∃ i, decodeCommand (l.op.setWidth 32) = .ok i ∧ completeTurn s = .run i) ∨
        (∃ e, decodeCommand (l.op.setWidth 32) = .error e ∧ completeTurn s = .reach (illegalCommand l s)))) := by
  cases hp : s.phase with
  | idle => left; simp [completeTurn, hp]
  | busy l work =>
    right
    refine ⟨l, work, rfl, ?_⟩
    cases hd : decodeCommand (l.op.setWidth 32) with
    | ok i => exact .inl ⟨i, rfl, by simp [completeTurn, hp, hd]⟩
    | error e => exact .inr ⟨e, rfl, by simp [completeTurn, hp, hd]⟩

/-- If a step answers a next state, it was the engine's completing turn with nothing pending, or the first
pending input. -/
theorem step_cases {s t : State} (h : step s = .next t) :
    (s.inputs = [] ∧ takeTurn (completeTurn s) s = .next t) ∨
    (∃ i rest, s.inputs = i :: rest ∧ inputStep i { s with inputs := rest } = .next t) := by
  cases hi : s.inputs with
  | nil => exact .inl ⟨rfl, by simpa [step, hi] using h⟩
  | cons i rest => exact .inr ⟨i, rest, rfl, by simpa [step, hi] using h⟩

end Sys2Proof.Machine
end

