-- ==== Sys2Proof/Laws/PerInstr.lean ====
section
/-! SUPPORT. The family of statements made per instruction: each instruction's word belongs to exactly one row
of the opcode table, its own. -/

namespace Sys2Proof.Laws

/-- Of all the rows of the opcode table, commands and tags together, the instruction's word belongs to its
own and to no other (R110 to R112, R125). -/
def OneRow.Statement (i : Instr) : Prop :=
  ((cmdRows ++ tagRows).filter (·.holds (encode i))).map (·.instr) = [i]

theorem OneRow.nop : OneRow.Statement .nop := by unfold OneRow.Statement; decide
theorem OneRow.encode : OneRow.Statement .encode := by unfold OneRow.Statement; decide
theorem OneRow.decode : OneRow.Statement .decode := by unfold OneRow.Statement; decide
theorem OneRow.tagSSAF : OneRow.Statement .tagSSAF := by unfold OneRow.Statement; decide
theorem OneRow.tagChan : OneRow.Statement .tagChan := by unfold OneRow.Statement; decide
theorem OneRow.tagZre : OneRow.Statement .tagZre := by unfold OneRow.Statement; decide
theorem OneRow.tagRice : OneRow.Statement .tagRice := by unfold OneRow.Statement; decide
theorem OneRow.tagData : OneRow.Statement .tagData := by unfold OneRow.Statement; decide

end Sys2Proof.Laws
end

