-- ==== Sys2Proof/Tests/Slice0.lean ====
section
/-! SUPPORT. The model's own tests: the well-formedness checks, the decoder on words written out from the
encoding tables, one-step tests whose values are those of `95_test_vectors.md`, and for each statement with
hypotheses a concrete input that meets them. -/

namespace Sys2Proof.Tests

-- One theorem at a time: many kernel evaluations at once would each take a thread's stack.
set_option Elab.async false

open Sys2Proof Sys2Proof.Machine

/-! ### Well-formedness -/

theorem test_wf_aligned_word : Input.wf 0x4000#32 (.regWrite 0x40FC#32 .word 0#32) = true := by decide
theorem test_wf_refuses_narrow_write : Input.wf 0x4000#32 (.regWrite 0x4010#32 .byte 0#32) = false := by decide
theorem test_wf_refuses_half_read : Input.wf 0x4000#32 (.regRead 0x4010#32 .half) = false := by decide
theorem test_wf_refuses_double_read : Input.wf 0x4000#32 (.regRead 0x4010#32 .double) = false := by decide
theorem test_wf_refuses_misaligned : Input.wf 0x4000#32 (.regWrite 0x4012#32 .word 0#32) = false := by decide
theorem test_wf_refuses_outside_block : Input.wf 0x4000#32 (.regRead 0x4100#32 .word) = false := by decide
theorem test_wf_refuses_below_block : Input.wf 0x4000#32 (.regRead 0x3FFC#32 .word) = false := by decide
theorem test_wf_top_byte : Input.wf 0#32 (.memWrite 0xFFFFFFFF#32 [1#8]) = true := by decide
theorem test_wf_refuses_write_past_top : Input.wf 0#32 (.memWrite 0xFFFFFFFF#32 [1#8, 2#8]) = false := by decide
theorem test_wf_refuses_read_past_top : Input.wf 0#32 (.memRead 0xFFFFFFFE#32 3) = false := by decide

/-! ### Decoding of written words (R111, R116 to R120) -/

theorem test_decode_nop : decodeBytes [0x00#8, 0x00#8, 0x00#8, 0x00#8] = .ok .nop := rfl
theorem test_decode_nop_ignored_bits : decodeBytes [0x00#8, 0xFF#8, 0xFF#8, 0xFF#8] = .ok .nop := rfl
theorem test_decode_encode : decodeBytes [0x01#8, 0x00#8, 0x00#8, 0x00#8] = .ok .encode := rfl
theorem test_decode_encode_ignored_bits : decodeBytes [0x01#8, 0x01#8, 0x00#8, 0x00#8] = .ok .encode := rfl
theorem test_decode_decode : decodeBytes [0x02#8, 0x00#8, 0x00#8, 0x80#8] = .ok .decode := rfl
theorem test_decode_tagSSAF : decodeBytes [0x53#8, 0x53#8, 0x41#8, 0x46#8] = .ok .tagSSAF := rfl
theorem test_decode_tagChan : decodeBytes [0x63#8, 0x68#8, 0x61#8, 0x6E#8] = .ok .tagChan := rfl
theorem test_decode_tagZre : decodeBytes [0x7A#8, 0x72#8, 0x65#8, 0x20#8] = .ok .tagZre := rfl
theorem test_decode_tagRice : decodeBytes [0x72#8, 0x69#8, 0x63#8, 0x65#8] = .ok .tagRice := rfl
theorem test_decode_tagData : decodeBytes [0x64#8, 0x61#8, 0x74#8, 0x61#8] = .ok .tagData := rfl
theorem test_decode_refuses_opcode_3 :
    decodeBytes [0x03#8, 0x00#8, 0x00#8, 0x00#8] = .error (.illegalOpcode 0x03#8) := rfl
theorem test_decode_refuses_opcode_255 :
    decodeBytes [0xFF#8, 0x00#8, 0x00#8, 0x00#8] = .error (.illegalOpcode 0xFF#8) := rfl
theorem test_decode_refuses_short : decodeBytes [0x01#8, 0x00#8] = .error (.tooShort 2) := rfl
theorem test_tag_refuses_case : decodeTag 0x4E616863#32 = .error (.notATag 0x4E616863#32) := rfl
theorem test_tag_refuses_trailing_nul : decodeTag 0x0065727A#32 = .error (.notATag 0x0065727A#32) := rfl
theorem test_table_word_short : decodeTableWord 8 0x01 = some .encode := by decide
theorem test_table_word_long : decodeTableWord 32 0xABCDEF02 = some .decode := by decide

/-! ### Small states -/

/-- The operands of a command: 16-bit mono, input at 0x1000, output at 0x2000. -/
def operands (op : Byte) (len cap : Nat) : Latched where
  op := op
  src := 0x1000#32
  srcLen := BitVec.ofNat 32 len
  dst := 0x2000#32
  cap := BitVec.ofNat 32 cap
  rate := 8000#32
  depth := 16#8
  channels := 1#16
  dither := true

/-- A machine that runs a command over the given input bytes, with the given pending inputs. -/
def busy (l : Latched) (work : Option Parse) (bytes : List Byte) (inputs : List Input) : State :=
  { State.reset with
    phase := .busy l work
    mem := Memory.powerOn.writeBytes l.src.toNat bytes
    inputs := inputs }

/-- L2-C7's samples `[3, -3, 3, 4]`. -/
def samplesC7 : List Byte := [0x03#8, 0x00#8, 0xFD#8, 0xFF#8, 0x03#8, 0x00#8, 0x04#8, 0x00#8]

/-- L2-C7's header. -/
def headerC7 : List Byte :=
  [0x53#8, 0x53#8, 0x41#8, 0x46#8, 0x40#8, 0x1F#8, 0x00#8, 0x00#8, 0x10#8, 0x04#8, 0x00#8, 0x00#8, 0x00#8,
   0x01#8, 0x00#8]

/-- L2-C7's channel and zero-run chunks. -/
def chunksC7 : List Byte :=
  [0x63#8, 0x68#8, 0x61#8, 0x6E#8, 0x04#8, 0x00#8, 0x00#8, 0x00#8,
   0x7A#8, 0x72#8, 0x65#8, 0x20#8, 0x00#8, 0x00#8, 0x00#8, 0x00#8]

/-- L2-C7's Rice and data chunks. -/
def dataC7 : List Byte :=
  [0x72#8, 0x69#8, 0x63#8, 0x65#8, 0x01#8, 0x00#8, 0x00#8, 0x00#8, 0x01#8, 0x00#8, 0x00#8, 0x00#8,
   0x64#8, 0x61#8, 0x74#8, 0x61#8, 0x0E#8, 0x50#8]

/-- L2-C7's container, 49 bytes. -/
def containerC7 : List Byte := headerC7 ++ (chunksC7 ++ dataC7)

/-- ENCODE of L2-C7 into 0x40 bytes. -/
def encodeC7 : State := busy (operands 0x01#8 8 0x40) none samplesC7 []

/-- DECODE of L2-C7 into 8 bytes. -/
def decodeC7 : State := busy (operands 0x02#8 49 8) none containerC7 []

/-- The parser of `decodeC7` at a position. -/
def parserAtTag (pos : Nat) (t : Tag) : Parse :=
  { Parse.start with pos := pos, stage := .tag t, rate := 8000, depth := 16, samples := 4, channels := 1 }

/-- The parser of `decodeC7` at the end. -/
def parsedC7 : Parse where
  pos := 49
  stage := .done
  rate := 8000
  depth := 16
  samples := 4
  channels := 1
  chan := 1
  count := 4
  runs := []
  params := [1]
  pcm := [[0, 0, 3, 4]]

/-- What an outcome's next state shows of itself. -/
def shows {α : Type} (f : State → α) : Host.Outcome State Fault Refusal → Option α
  | .next t => some (f t)
  | .fault _ => none
  | .refused _ => none

/-! ### One step each -/

/-- A 24-bit mono sample of three bytes, read (R153). -/
def read24 (b0 b1 b2 : Byte) : Int := readSample (Memory.powerOn.writeBytes 0 [b0, b1, b2]) ⟨0, 1, 24⟩ 0 0

/-- SA2, SA4 and L2-C6's second sample. SA3 is the vector the model does not follow (log entry 23). -/
theorem test_read_sample_24 : read24 0xFE#8 0xFF#8 0xFF#8 = -2 ∧ read24 0xFF#8 0xFF#8 0x7F#8 = 8388607 ∧
    read24 0x40#8 0x9C#8 0x00#8 = 40000 := by decide

/-- SA13: -8388608 at depth 24 is written 00 00 80. -/
theorem test_write_sample_24 : sampleBytes 24 (-8388608) = [0x00#8, 0x00#8, 0x80#8] := by decide

/-- M1: STATUS 0x2, ERR_CODE 0. -/
theorem test_nop_completes : shows (fun t => (readReg t .status, readReg t .errCode))
    (step (busy (operands 0x00#8 0 0) none [] [.complete])) = some (0x2#32, 0x0#32) := by decide

/-- M2 and M3: ILLEGAL_CMD with the opcode. -/
theorem test_illegal_opcode : shows (fun t => (readReg t .status, readReg t .errCode, readReg t .errInfo))
    (step (busy (operands 0xFF#8 0 0) none [] [])) = some (0x6#32, 0xFFFF0008#32, 0xFF#32) := by decide

/-- L2-C7: the container. -/
theorem test_encode_container : shows (fun t => (readReg t .outLen, t.mem.readBytes 0x2000 49))
    (exec .encode encodeC7) = some (49#32, containerC7) := by decide +kernel

/-- L2-C7: the dithered samples stay in the input range. -/
theorem test_encode_dithers_input : shows (fun t => t.mem.readBytes 0x1000 8) (exec .encode encodeC7) =
    some [0x00#8, 0x00#8, 0x00#8, 0x00#8, 0x03#8, 0x00#8, 0x04#8, 0x00#8] := by decide +kernel

/-- L2-C7: DECODE gives the dithered samples and the header's fields. -/
theorem test_decode_samples :
    shows (fun t => (t.mem.readBytes 0x2000 8, readReg t .inUsed, readReg t .resSamples)) (exec .decode decodeC7) =
      some ([0x00#8, 0x00#8, 0x00#8, 0x00#8, 0x03#8, 0x00#8, 0x04#8, 0x00#8], 49#32, 4#32) := by decide +kernel

/-- As M21: OVERFLOW reports the size needed. -/
theorem test_decode_overflow :
    shows (fun t => (readReg t .status, readReg t .errCode, readReg t .outLen))
      (exec .decode (busy (operands 0x02#8 49 7) none containerC7 [])) =
      some (0x6#32, 0xFFFF0006#32, 8#32) := by decide +kernel

/-- The magic moves the parser past its four bytes. -/
theorem test_tagSSAF_moves : shows (fun t => t.phase)
    (step (busy (operands 0x02#8 49 8) (some Parse.start) containerC7 [.advance])) =
      some (.busy (operands 0x02#8 49 8) (some { Parse.start with pos := 4, stage := .body .ssaf })) := by
  decide +kernel

/-- As M24: `chan` where `zre ` is expected is FORMAT sub 2 at the tag's offset. -/
theorem test_tagChan_is_format_error : shows (fun t => (readReg t .errCode, readReg t .errInfo))
    (exec .tagChan (busy (operands 0x02#8 49 8) (some (parserAtTag 23 .zre)) containerC7 [])) =
      some (0x00000201#32, 23#32) := by decide +kernel

theorem test_tagZre_moves : shows (fun t => t.phase)
    (step (busy (operands 0x02#8 49 8) (some (parserAtTag 23 .zre)) containerC7 [.advance])) =
      some (.busy (operands 0x02#8 49 8) (some { parserAtTag 27 .zre with stage := .body .zre })) := by
  decide +kernel

/-- As M25: the zero-run tag where `rice` is expected is FORMAT sub 3. -/
theorem test_tagZre_is_format_error : shows (fun t => (readReg t .errCode, readReg t .errInfo))
    (exec .tagZre (busy (operands 0x02#8 49 8) (some (parserAtTag 31 .rice)) containerC7 [])) =
      some (0x00000301#32, 31#32) := by decide +kernel

/-- As M26: `rice` where `data` is expected is FORMAT sub 4. -/
theorem test_tagRice_is_format_error : shows (fun t => (readReg t .errCode, readReg t .errInfo))
    (exec .tagRice (busy (operands 0x02#8 49 8) (some (parserAtTag 43 .data)) containerC7 [])) =
      some (0x00000401#32, 43#32) := by decide +kernel

theorem test_tagData_moves : shows (fun t => t.phase)
    (step (busy (operands 0x02#8 49 8) (some (parserAtTag 43 .data)) containerC7 [.advance])) =
      some (.busy (operands 0x02#8 49 8) (some { parserAtTag 47 .data with stage := .body .data })) := by
  decide +kernel

/-- As M23: any other word where `chan` is expected is FORMAT sub 1. -/
theorem test_no_tag_is_format_error : shows (fun t => (readReg t .errCode, readReg t .errInfo))
    (step (busy (operands 0x02#8 49 8) (some (parserAtTag 16 .chan)) containerC7 [.advance])) =
      some (0x00000101#32, 16#32) := by decide +kernel

/-- GR3: reserved bits of CTRL read 0. -/
theorem test_ctrl_reserved_bits :
    offsetRead (offsetWrite State.reset 0x08 0xFFFFFFFF#32) 0x08 = 0x00000003#32 := by decide

/-- R34's map: 0x20 is SRC_LEN, and 0x38 reads OUT_LEN. -/
theorem test_register_map :
    (offsetWrite State.reset 0x20 0x12345678#32).regs.srcLen = 0x12345678#32 ∧
    offsetRead { State.reset with regs := { Regs.reset with outLen := 0x31#32 } } 0x38 = 0x31#32 := by decide

/-- GR9: a write to SRC_ADDR while BUSY sets IGN and keeps the register. -/
theorem test_busy_write_sets_ign :
    let s := offsetWrite encodeC7 0x1C 0xDEADBEEF#32
    (readReg s .srcAddr, readReg s .status) = (0#32, 0x9#32) := by decide

/-! ### Inputs that meet the statements' hypotheses -/

theorem witness_latched_command_idle_queue :
    encodeC7.phase = .busy (operands 0x01#8 8 0x40) none ∧
    decodeCommand ((operands 0x01#8 8 0x40).op.setWidth 32) = .ok .encode ∧ encodeC7.inputs = [] := ⟨rfl, rfl, rfl⟩

theorem witness_latched_command_complete_pending :
    let s := busy (operands 0x02#8 49 8) none containerC7 [.complete, .resetOn]
    s.phase = .busy (operands 0x02#8 49 8) none ∧
    decodeCommand ((operands 0x02#8 49 8).op.setWidth 32) = .ok .decode ∧ s.inputs = [.complete, .resetOn] :=
  ⟨rfl, rfl, rfl⟩

theorem witness_illegal_opcode_low : let s := busy (operands 0x03#8 0 0) none [] []
    s.phase = .busy (operands 0x03#8 0 0) none ∧ 3 ≤ (operands 0x03#8 0 0).op.toNat ∧ s.completesNow [] :=
  ⟨rfl, by decide, .inl ⟨rfl, rfl⟩⟩

theorem witness_illegal_opcode_high : let s := busy (operands 0xFF#8 0 0) none [] [.complete, .resetOn]
    s.phase = .busy (operands 0xFF#8 0 0) none ∧ 3 ≤ (operands 0xFF#8 0 0).op.toNat ∧ s.completesNow [.resetOn] :=
  ⟨rfl, by decide, .inr rfl⟩

/-- DECODE of L2-C7 may run: its ranges neither wrap nor overlap. -/
theorem decodable_C7 : (operands 0x02#8 49 8).decodable := ⟨by decide, by decide, by decide⟩

/-- ENCODE of L2-C7 may run. -/
theorem encodable_C7 : (operands 0x01#8 8 0x40).encodable :=
  ⟨by decide, by decide, by decide, by decide, by decide, by decide⟩

/-- The reset platform marks no byte. -/
theorem quiet_reset (l : Latched) : l.quietOn State.reset.platform.busFaults := rfl

theorem witness_tag_word : let s := busy (operands 0x02#8 49 8) (some (parserAtTag 15 .chan)) containerC7 [.advance]
    s.inputs = [.advance] ∧ s.phase = .busy (operands 0x02#8 49 8) (some (parserAtTag 15 .chan)) ∧
    (operands 0x02#8 49 8).op = 0x02#8 ∧ (operands 0x02#8 49 8).decodable ∧
    (parserAtTag 15 .chan).stage = .tag .chan ∧
    (parserAtTag 15 .chan).pos + 4 ≤ (operands 0x02#8 49 8).srcLen.toNat ∧ (tagOf .tagChan).isSome = true ∧
    decodeBytes (s.mem.readBytes ((operands 0x02#8 49 8).src.toNat + (parserAtTag 15 .chan).pos) 4) = .ok .tagChan :=
  ⟨rfl, rfl, rfl, decodable_C7, rfl, by decide, rfl, by decide⟩

theorem witness_tag_word_at_the_end : let s := State.reset.withFetchWord 32 0x61746164
    ∃ l, s.inputs = [.advance] ∧ s.phase = .busy l (some { Parse.start with stage := .tag .data }) ∧
      l.op = 0x02#8 ∧ l.decodable ∧ Parse.start.pos + 4 = l.srcLen.toNat ∧
      decodeBytes (s.mem.readBytes (l.src.toNat + 0) 4) = .ok .tagData :=
  ⟨_, rfl, rfl, rfl, ⟨by decide, by decide, by decide⟩, by decide, by decide⟩

theorem witness_wf_instruction : Instr.wf .tagZre = true := rfl

theorem witness_idle_registers : State.reset.inReset = false ∧ State.reset.phase = .idle := ⟨rfl, rfl⟩

theorem witness_reserved_offsets : (0x50 ≤ 0x50 ∧ 0x50 ≤ 0xFC ∧ 0x50 % 4 = 0) ∧
    (0x50 ≤ 0xFC ∧ 0xFC ≤ 0xFC ∧ 0xFC % 4 = 0) := by decide

theorem witness_busy_registers :
    let s := busy (operands 0x01#8 8 0x40) none samplesC7 [.regRead 0xFC#32 .word]
    s.phase.isBusy = true ∧ s.inReset = false ∧ 0xFC < 256 ∧ 0xFC % 4 = 0 ∧
    s.inputs = [.regRead (s.platform.regBase + BitVec.ofNat 32 0xFC) .word] := ⟨rfl, rfl, by decide, rfl, rfl⟩

/-- The last register of a block that wraps past the top of the address space. -/
theorem witness_wrapped_block :
    let s : State := { State.reset with
      platform := { State.reset.platform with regBase := 0xFFFFFFFC#32 }, inputs := [.regWrite 0xF8#32 .word 1#32] }
    0xFC < 256 ∧ 0xFC % 4 = 0 ∧
    s.inputs = [.regWrite (s.platform.regBase + BitVec.ofNat 32 0xFC) .word 1#32] := ⟨by decide, rfl, rfl⟩

theorem witness_acceptance_idle :
    let s : State := { State.reset with inputs := [.regWrite 0x0C#32 .word 0xFFFFFF01#32] }
    s.inReset = false ∧ s.inputs = [.regWrite (s.platform.regBase + 0x0C#32) .word 0xFFFFFF01#32] ∧
    s.phase = .idle := ⟨rfl, rfl, rfl⟩

theorem witness_acceptance_busy :
    let s := busy (operands 0x01#8 8 0x40) none samplesC7 [.regWrite 0x0C#32 .word 0x02#32]
    s.inReset = false ∧ s.inputs = [.regWrite (s.platform.regBase + 0x0C#32) .word 0x02#32] ∧
    s.phase.isBusy = true := ⟨rfl, rfl, rfl⟩

theorem witness_misaligned_access : let s : State := { State.reset with inputs := [.regWrite 0xFD#32 .word 0#32] }
    0xFD = (0xFD#32 - s.platform.regBase).toNat ∧ 0xFD < 256 ∧ (AccessSize.word ≠ .word ∨ 0xFD % 4 ≠ 0) ∧
    s.inputs = [.regWrite 0xFD#32 .word 0#32] := by decide

/-- A word access that begins two bytes below the block runs into it. -/
theorem witness_access_from_below : let s : State := { State.reset with inputs := [.regRead 0xFFFFFFFE#32 .word] }
    0xFFFFFFFE = (0xFFFFFFFE#32 - s.platform.regBase).toNat ∧ 2 ^ 32 < 0xFFFFFFFE + 4 ∧
    (AccessSize.word ≠ .word ∨ 0xFFFFFFFE % 4 ≠ 0) ∧ s.inputs = [.regRead 0xFFFFFFFE#32 .word] := by decide

theorem witness_narrow_access : let s : State := { State.reset with inputs := [.regRead 0x00#32 .half] }
    0 = (0x00#32 - s.platform.regBase).toNat ∧ 0 < 256 ∧ (AccessSize.half ≠ .word ∨ 0 % 4 ≠ 0) ∧
    s.inputs = [.regRead 0x00#32 .half] := by decide

theorem witness_defined_access : let s : State := { State.reset with inputs := [.regRead 0xFC#32 .word] }
    0xFC = (0xFC#32 - s.platform.regBase).toNat ∧ 0xFC < 256 ∧ (AccessSize.word = .word ∧ 0xFC % 4 = 0) ∧
    s.inputs = [.regRead 0xFC#32 .word] := by decide

/-- Whether a host write of one byte meets a range of the running ENCODE or DECODE. -/
def writeMeets (s : State) (addr : Word) : Bool :=
  match s.phase with
  | .idle => false
  | .busy l _ => (l.op == 0x01#8 || l.op == 0x02#8) &&
    (l.inSpan.overlaps ⟨addr.toNat, 1⟩ || l.outSpan.overlaps ⟨addr.toNat, 1⟩)

/-- A write of the input range's last byte is in the range. -/
theorem witness_host_write_inside :
    let s := busy (operands 0x01#8 8 0x40) none samplesC7 [.memWrite 0x1007#32 [0#8]]
    (0x1007#32).toNat + 1 ≤ 2 ^ 32 ∧ s.inputs = [.memWrite 0x1007#32 [0#8]] ∧ writeMeets s 0x1007#32 = true := by
  decide

/-- A write that ends where the output range begins is outside, and so is any write while a NOP runs. -/
theorem witness_host_write_outside :
    let s := busy (operands 0x01#8 8 0x40) none samplesC7 [.memWrite 0x1FFF#32 [0#8]]
    let n := busy (operands 0x00#8 8 0x40) none samplesC7 [.memWrite 0x1007#32 [0#8]]
    (0x1FFF#32).toNat + 1 ≤ 2 ^ 32 ∧ s.inputs = [.memWrite 0x1FFF#32 [0#8]] ∧ writeMeets s 0x1FFF#32 = false ∧
    n.inputs = [.memWrite 0x1007#32 [0#8]] ∧ writeMeets n 0x1007#32 = false := by decide

/-- A write of the last byte of the address space while the engine is idle. -/
theorem witness_host_write_idle : let s : State := { State.reset with inputs := [.memWrite 0xFFFFFFFF#32 [7#8]] }
    (0xFFFFFFFF#32).toNat + 1 ≤ 2 ^ 32 ∧ s.inputs = [.memWrite 0xFFFFFFFF#32 [7#8]] ∧
    writeMeets s 0xFFFFFFFF#32 = false := by decide

/-- A read that begins before the output range and ends in it meets both cases. -/
theorem witness_host_read : let l := operands 0x01#8 8 0x40
    let s := busy l none samplesC7 [.memRead 0x1FFF#32 2]
    s.phase = .busy l none ∧ (l.op = 0x01#8 ∨ l.op = 0x02#8) ∧ (0x1FFF#32).toNat + 2 ≤ 2 ^ 32 ∧
    s.inputs = [.memRead 0x1FFF#32 2] ∧ l.outSpan.has 0x1FFF = false ∧ l.outSpan.has 0x2000 = true := by decide

theorem witness_host_read_idle : let s : State := { State.reset with inputs := [.memRead 0xFFFFFFFF#32 1] }
    (0xFFFFFFFF#32).toNat + 1 ≤ 2 ^ 32 ∧ s.inputs = [.memRead 0xFFFFFFFF#32 1] ∧ s.phase = .idle := by decide

theorem witness_host_write_past_top :
    let s : State := { State.reset with inputs := [.memWrite 0xFFFFFFFF#32 [0#8, 0#8]] }
    2 ^ 32 < (0xFFFFFFFF#32).toNat + 2 ∧ s.inputs = [.memWrite 0xFFFFFFFF#32 [0#8, 0#8]] := by decide

theorem witness_host_read_past_top : let s : State := { State.reset with inputs := [.memRead 0xFFFFFFFF#32 2] }
    2 ^ 32 < (0xFFFFFFFF#32).toNat + 2 ∧ s.inputs = [.memRead 0xFFFFFFFF#32 2] := by decide

theorem witness_reset_pulse : let s : State := { encodeC7 with inputs := [.resetOn, .resetOff] }
    s.inputs = [.resetOn, .resetOff] := rfl

theorem witness_reset_pulse_idle : let s : State := { State.reset with inputs := [.resetOn, .resetOff] }
    s.inputs = [.resetOn, .resetOff] ∧ s.phase = .idle := ⟨rfl, rfl⟩

/-- A reset while a NOP runs. -/
theorem witness_reset_pulse_nop : let s := busy (operands 0x00#8 8 0x40) none samplesC7 [.resetOn, .resetOff]
    s.inputs = [.resetOn, .resetOff] ∧ s.phase = .busy (operands 0x00#8 8 0x40) none ∧
    (operands 0x00#8 8 0x40).op ≠ 0x01#8 ∧ (operands 0x00#8 8 0x40).op ≠ 0x02#8 := ⟨rfl, rfl, by decide, by decide⟩

theorem witness_reset_held :
    let s : State := { State.reset with inReset := true, inputs := [.regWrite 0xFC#32 .word 1#32] }
    0xFC < 256 ∧ 0xFC % 4 = 0 ∧ s.inReset = true ∧
    s.inputs = [.regWrite (s.platform.regBase + BitVec.ofNat 32 0xFC) .word 1#32] := ⟨by decide, rfl, rfl, rfl⟩

theorem witness_reset_held_read :
    let s : State := { State.reset with inReset := true, inputs := [.regRead 0x00#32 .word] }
    0 < 256 ∧ 0 % 4 = 0 ∧ s.inReset = true ∧
    s.inputs = [.regRead (s.platform.regBase + BitVec.ofNat 32 0) .word] := ⟨by decide, rfl, rfl, rfl⟩

theorem witness_reset_released : let s : State := { State.reset with inReset := true, inputs := [.resetOff] }
    s.resetInv ∧ s.inReset = true ∧ s.inputs = [.resetOff] := ⟨fun _ => ⟨rfl, rfl⟩, rfl, rfl⟩

theorem witness_reset_asserted : let s := busy (operands 0x01#8 8 0x40) none samplesC7 [.resetOn]
    s.phase = .busy (operands 0x01#8 8 0x40) none ∧
    ((operands 0x01#8 8 0x40).op = 0x01#8 ∨ (operands 0x01#8 8 0x40).op = 0x02#8) ∧ s.inputs = [.resetOn] :=
  ⟨rfl, .inl rfl, rfl⟩

theorem witness_busy_command : encodeC7.phase = .busy (operands 0x01#8 8 0x40) none := rfl

/-- Each of ENCODE's checks with the ones before it passed, at the values where the clauses meet. -/
theorem witness_encode_checks :
    (0#8).toNat ∉ [8, 16, 24, 32] ∧ (33#8).toNat ∉ [8, 16, 24, 32] ∧
    ((operands 0x01#8 8 0).depth.toNat ∈ [8, 16, 24, 32] ∧
      { operands 0x01#8 8 0 with channels := 0#16 }.channels = 0#16) ∧
    ((operands 0x01#8 9 0).channels ≠ 0#16 ∧
      (operands 0x01#8 9 0).srcLen.toNat % ((operands 0x01#8 9 0).channels.toNat * ((operands 0x01#8 9 0).depth.toNat / 8)) ≠ 0) ∧
    (8 % ((operands 0x01#8 8 0).channels.toNat * ((operands 0x01#8 8 0).depth.toNat / 8)) = 0 ∧
      2 ^ 32 < (0xFFFFFFFA#32).toNat + 8) := by decide

/-- An output range that begins at the input's last byte overlaps it. -/
theorem witness_overlap : let l := { operands 0x01#8 8 1 with dst := 0x1007#32 }
    l.srcLen.toNat % (l.channels.toNat * (l.depth.toNat / 8)) = 0 ∧ l.src.toNat + l.srcLen.toNat ≤ 2 ^ 32 ∧
    l.dst.toNat + l.cap.toNat ≤ 2 ^ 32 ∧ 0 < l.srcLen.toNat ∧ 0 < l.cap.toNat ∧
    l.src.toNat < l.dst.toNat + l.cap.toNat ∧ l.dst.toNat < l.src.toNat + l.srcLen.toNat := by decide

theorem witness_wrapping_output : let l := { operands 0x02#8 8 2 with dst := 0xFFFFFFFF#32 }
    2 ^ 32 < l.dst.toNat + l.cap.toNat := by decide

/-- L2-C7's container fits 0x40 bytes and, as its boundary, exactly 49. -/
theorem witness_encode_fits :
    encodeC7.phase = .busy (operands 0x01#8 8 0x40) none ∧ (operands 0x01#8 8 0x40).encodable ∧
    (operands 0x01#8 8 0x40).quietOn encodeC7.platform.busFaults ∧
    (encodeContainer (operands 0x01#8 8 49) encodeC7.mem).length ≤ (operands 0x01#8 8 49).cap.toNat ∧
    (encodeContainer (operands 0x01#8 8 0x40) encodeC7.mem).length ≤ (operands 0x01#8 8 0x40).cap.toNat :=
  ⟨rfl, encodable_C7, rfl, by decide +kernel, by decide +kernel⟩

theorem witness_encode_overflows : let s := busy (operands 0x01#8 8 48) none samplesC7 []
    s.phase = .busy (operands 0x01#8 8 48) none ∧ (operands 0x01#8 8 48).encodable ∧
    (operands 0x01#8 8 48).quietOn s.platform.busFaults ∧
    (operands 0x01#8 8 48).cap.toNat < (encodeContainer (operands 0x01#8 8 48) s.mem).length :=
  ⟨rfl, ⟨by decide, by decide, by decide, by decide, by decide, by decide⟩, rfl, by decide +kernel⟩

/-- In L2-C7 the filter changes samples 0 and 1 and leaves samples 2 and 3. -/
theorem witness_dither : (operands 0x01#8 8 0x40).encodable ∧ (operands 0x01#8 8 0x40).dither = true ∧
    3 < (operands 0x01#8 8 0x40).samples ∧ 0 < (operands 0x01#8 8 0x40).channels.toNat ∧
    1 < (operands 0x01#8 8 0x40).depth.toNat / 8 ∧
    (ditherChannel (readChannel encodeC7.mem (operands 0x01#8 8 0x40).layout 4 0)).getD 3 0 =
      readSample encodeC7.mem (operands 0x01#8 8 0x40).layout 3 0 :=
  ⟨encodable_C7, rfl, by decide, by decide, by decide, by decide +kernel⟩

theorem parse_C7 : parseAll ((operands 0x02#8 49 8).source decodeC7.mem) 8 Parse.start = .ok parsedC7 := by
  decide +kernel

theorem witness_decode_parses :
    decodeC7.phase = .busy (operands 0x02#8 49 8) none ∧ (operands 0x02#8 49 8).decodable ∧
    (operands 0x02#8 49 8).quietOn decodeC7.platform.busFaults ∧
    parseAll ((operands 0x02#8 49 8).source decodeC7.mem) (operands 0x02#8 49 8).cap.toNat Parse.start =
      .ok parsedC7 := ⟨rfl, decodable_C7, rfl, parse_C7⟩

/-- Input cut inside the data chunk's tag, as M29 and M30 cut it elsewhere. -/
theorem witness_decode_fails : let s := busy (operands 0x02#8 46 8) none containerC7 []
    s.phase = .busy (operands 0x02#8 46 8) none ∧ (operands 0x02#8 46 8).decodable ∧
    (operands 0x02#8 46 8).quietOn s.platform.busFaults ∧
    parseAll ((operands 0x02#8 46 8).source s.mem) (operands 0x02#8 46 8).cap.toNat (parserAt none) =
      .error ⟨.truncated, 1, 43, 0, 0⟩ :=
  ⟨rfl, ⟨by decide, by decide, by decide⟩, rfl, by decide +kernel⟩

theorem witness_magic_too_short : (operands 0x02#8 3 8).decodable ∧ (operands 0x02#8 3 8).srcLen.toNat < 4 :=
  ⟨⟨by decide, by decide, by decide⟩, by decide⟩

/-- M15's magic `SSBF`, in exactly four bytes. -/
theorem witness_magic_wrong :
    let s := busy (operands 0x02#8 4 8) none [0x53#8, 0x53#8, 0x42#8, 0x46#8] []
    s.phase = .busy (operands 0x02#8 4 8) none ∧ (operands 0x02#8 4 8).decodable ∧
    (operands 0x02#8 4 8).quietOn s.platform.busFaults ∧ 4 ≤ (operands 0x02#8 4 8).srcLen.toNat ∧
    s.mem.readBytes (operands 0x02#8 4 8).src.toNat 4 ≠ [0x53#8, 0x53#8, 0x41#8, 0x46#8] :=
  ⟨rfl, ⟨by decide, by decide, by decide⟩, rfl, by decide, by decide⟩

/-- L2-C7's header with another depth code and channel count, over 15 input bytes or fewer. -/
def headerState (len cap : Nat) (depth chans : Byte) : State :=
  busy (operands 0x02#8 len cap) none
    (headerC7.take 8 ++ [depth, 0x04#8, 0x00#8, 0x00#8, 0x00#8, chans, 0x00#8]) []

/-- The field of the input range at an offset. -/
def fieldAt (s : State) (off width : Nat) : Nat := s.mem.readNat (0x1000 + off) width

/-- Each header check at the values where the clauses meet: the magic in exactly four bytes, a depth code just
past a supported one in nine bytes, a channel count of 0 and a size one above the capacity in fifteen. -/
theorem witness_header_checks :
    (headerState 4 8 0x10#8 1#8).mem.readBytes 0x1000 4 = [0x53#8, 0x53#8, 0x41#8, 0x46#8] ∧
    (∀ len ∈ [4, 7, 8, 9, 12, 13, 14, 15], (operands 0x02#8 len 7).srcLen.toNat = len) ∧
    fieldAt (headerState 9 8 0x11#8 1#8) 8 1 ∉ [8, 16, 24, 32] ∧
    (fieldAt (headerState 15 8 0x10#8 0#8) 8 1 ∈ [8, 16, 24, 32] ∧
      fieldAt (headerState 15 8 0x10#8 0#8) 13 2 = 0) ∧
    (fieldAt (headerState 15 7 0x10#8 1#8) 13 2 ≠ 0 ∧
      (operands 0x02#8 15 7).cap.toNat < fieldAt (headerState 15 7 0x10#8 1#8) 9 4 *
        fieldAt (headerState 15 7 0x10#8 1#8) 13 2 * (fieldAt (headerState 15 7 0x10#8 1#8) 8 1 / 8)) := by
  decide +kernel

theorem witness_header_state :
    (headerState 15 7 0x10#8 1#8).phase = .busy (operands 0x02#8 15 7) none ∧ (operands 0x02#8 15 7).decodable ∧
    (operands 0x02#8 15 7).quietOn (headerState 15 7 0x10#8 1#8).platform.busFaults :=
  ⟨rfl, ⟨by decide, by decide, by decide⟩, rfl⟩

/-- L2-C7's input, cut to a length. -/
def sourceC7 (len : Nat) : Source := ⟨decodeC7.mem, 0x1000, len⟩

/-- A parser of `decodeC7` inside a chunk. -/
def parserIn (pos : Nat) (t : Tag) : Parse := { parserAtTag pos t with stage := .body t }

/-- Three units in, the next one is cut; ten in, the parse is done. -/
theorem witness_units : parseUnits (sourceC7 20) 8 3 Parse.start = .ok (parserIn 19 .chan) ∧
    parseUnit (sourceC7 20) 8 (parserIn 19 .chan) = .error ⟨.truncated, 1, 19, 0, 0⟩ ∧
    parseUnits (sourceC7 49) 8 10 Parse.start = .ok parsedC7 ∧ parsedC7.stage = .done := by decide +kernel

/-- A unit at a chunk's tag cut one byte short (M29's kind of cut), and the unit of the header, whole and with its
channel count cut. -/
theorem witness_tag_and_header_units : (parserAtTag 15 .chan).stage = .tag .chan ∧
    parseUnit (sourceC7 18) 8 (parserAtTag 15 .chan) = .error ⟨.truncated, 1, 15, 0, 0⟩ ∧
    (parserIn 4 .ssaf).stage = .body .ssaf ∧
    parseUnit (sourceC7 14) 8 (parserIn 4 .ssaf) = .error ⟨.truncated, 0, 13, 0xFFFF, 0⟩ ∧
    parseUnit (sourceC7 15) 8 (parserIn 4 .ssaf) = .ok (parserAtTag 15 .chan) := by decide +kernel

/-- The Rice chunk's fields cut one byte short, and whole. -/
theorem witness_chunk_fields : let p := parserIn 35 .rice
    p.stage = .body .rice ∧ (sourceC7 38).len < p.pos + 4 ∧ (sourceC7 49).nat p.pos 4 = 1 ∧
    ¬ (sourceC7 42).len < p.pos + 4 ∧ (sourceC7 42).len < p.pos + 4 + 4 * 1 ∧
    ¬ (sourceC7 43).len < p.pos + 4 + 4 * 1 := by decide +kernel

/-- The bits of `[0, 128]` at k = 8, as a container input. -/
def source128 : Source := ⟨Memory.powerOn.writeBytes 0 [0x00#8, 0x40#8, 0x00#8], 0, 3⟩

/-- A data chunk that reconstructs `[0, 128]`, which fits depth 16 and at depth 8 first misfits at sample 1; with
another sample count the zero-run decoder stops it, with no parameter the Rice decoder. -/
theorem witness_data_chunk :
    riceDec source128 0 0 2 [8] = .ok ([0, 128], 19) ∧ zreDec 0 2 [0, 128] [] = .ok [0, 128] ∧
    predDec [0, 128] = [0, 128] ∧ sampleFits 8 0 = true ∧ sampleFits 8 128 = false ∧ sampleFits 16 128 = true ∧
    zreDec 0 3 [0, 128] [] = .error ⟨.inconsistent, 4, 0, 0, 0⟩ ∧
    riceDec source128 0 0 2 [] = .error ⟨.inconsistent, 0, 0, 0, 0⟩ := by decide +kernel

/-- A platform that marks the last byte of the output range. -/
theorem witness_marked_byte :
    let s : State := { decodeC7 with platform := { decodeC7.platform with busFaults := [⟨0x2007, 1⟩] } }
    s.phase = .busy (operands 0x02#8 49 8) none ∧
    hits s.platform.busFaults [(operands 0x02#8 49 8).inSpan, (operands 0x02#8 49 8).outSpan] = true := by decide

theorem witness_tag_met :
    ∀ x ∈ [(Instr.tagSSAF, Tag.ssaf), (Instr.tagChan, Tag.chan), (Instr.tagZre, Tag.zre),
        (Instr.tagRice, Tag.rice), (Instr.tagData, Tag.data)],
      let s := busy (operands 0x02#8 49 8) (some (parserAtTag 0 x.2)) containerC7 []
      s.phase = .busy (operands 0x02#8 49 8) (some (parserAtTag 0 x.2)) ∧ (parserAtTag 0 x.2).stage = .tag x.2 := by
  intro x _; exact ⟨rfl, rfl⟩

theorem witness_other_tag :
    let s := busy (operands 0x02#8 49 8) (some (parserAtTag 23 .zre)) containerC7 []
    s.phase = .busy (operands 0x02#8 49 8) (some (parserAtTag 23 .zre)) ∧
    (operands 0x02#8 49 8).quietOn s.platform.busFaults ∧ tagOf .tagChan = some .chan ∧
    (parserAtTag 23 .zre).stage = .tag .zre ∧ Tag.chan ≠ .zre := ⟨rfl, rfl, rfl, rfl, by decide⟩

theorem witness_progress : let s := busy (operands 0x02#8 49 8) none containerC7 [.advance]
    s.inputs = [.advance] ∧ s.phase = .busy (operands 0x02#8 49 8) none ∧ (operands 0x02#8 49 8).op = 0x02#8 :=
  ⟨rfl, rfl, rfl⟩

/-- Two machines that differ in a register the running command latched. -/
theorem witness_latched_operands :
    let s1 := encodeC7
    let s2 : State := { encodeC7 with regs := { encodeC7.regs with srcAddr := 0xFFFFFFFF#32 } }
    s1.phase = .busy (operands 0x01#8 8 0x40) none ∧ s2.phase = .busy (operands 0x01#8 8 0x40) none ∧
    s1.mem = s2.mem ∧ s1.platform = s2.platform ∧ s1.draws = s2.draws := ⟨rfl, rfl, rfl, rfl, rfl⟩

theorem witness_progress_then_completion :
    let s := busy (operands 0x02#8 49 8) none containerC7 (List.replicate 3 .advance)
    s.phase = .busy (operands 0x02#8 49 8) none ∧ s.inputs = List.replicate 3 .advance := ⟨rfl, rfl⟩

theorem witness_dutiful_write : let i : Input := .memWrite 0x1FFF#32 [0#8]
    dutiful (busy (operands 0x01#8 8 0x40) none samplesC7 [i]) i = true := by decide

/-- The state a step leaves, the state itself where it stops. -/
def after (s : State) : State :=
  match step s with
  | .next t => t
  | .fault _ => s
  | .refused _ => s

/-- A machine that has just accepted a NOP, and steps. -/
def acceptedNop : State := accept 0#32 State.reset

theorem witness_invariants_busy :
    acceptedNop.latchInv ∧ acceptedNop.busyInv ∧ acceptedNop.errInv ∧ acceptedNop.resetInv ∧
    step acceptedNop = .next (after acceptedNop) := by
  refine ⟨?_, fun _ => by decide, by unfold State.errInv; decide, fun h => absurd h (by decide), rfl⟩
  intro l work h
  cases h
  decide

theorem witness_memory_invariant : acceptedNop.memInv :=
  ⟨by decide, by decide, fun l p h => by cases h⟩

theorem witness_reset_invariant_held : { State.reset with inReset := true }.resetInv := fun _ => ⟨rfl, rfl⟩

theorem witness_fits16_ends : fits16 (-32768) ∧ fits16 32767 ∧ ¬ fits16 32768 ∧ ¬ fits16 (-32769) := by
  unfold fits16; decide

/-- Descriptors in place, and each way the second or the total can be out of place (R203's example is the
first). -/
theorem witness_zero_run_clauses :
    (runsEnd [⟨1, 10⟩] 0 ≤ 1 ∧ 1 ≤ 2 + runsTotal [⟨1, 10⟩] 0 ∧ (1 : Nat) + 10 ≤ 12) ∧
    5 < runsEnd [⟨1, 10⟩, ⟨5, 10⟩] 1 ∧
    (runsEnd [⟨1, 10⟩, ⟨13, 10⟩] 1 ≤ 13 ∧ 2 + runsTotal [⟨1, 10⟩, ⟨13, 10⟩] 1 < 13) ∧
    (runsEnd [⟨1, 10⟩, ⟨12, 10⟩] 1 ≤ 12 ∧ 12 ≤ 2 + runsTotal [⟨1, 10⟩, ⟨12, 10⟩] 1 ∧ (21 : Nat) < 12 + 10) ∧
    2 + runsTotal [⟨1, 10⟩] 1 ≠ 13 ∧ 2 + runsTotal [⟨1, 10⟩] 1 = 12 := by decide

/-- Runs of nine and of ten, between values and alone in the sequence. -/
theorem witness_zero_run_ends : (∀ v ∈ ([5] ++ [7] : List Int), v ≠ 0) ∧ (∀ v ∈ ([] ++ [] : List Int), v ≠ 0) ∧
    9 ≤ 9 ∧ ¬ 10 ≤ 9 := by decide

/-- R182's premise: only the samples from index 2 on need be 16-bit. -/
theorem witness_predictor_premise : let x : List Int := [100000, -100000, 32767, -32768]
    ∀ i, 2 ≤ i → i < x.length → fits16 (x.getD i 0) := by
  intro x i h1 h2
  have : i = 2 ∨ i = 3 := by simp only [x, List.length_cons, List.length_nil] at h2; omega
  rcases this with rfl | rfl <;> exact ⟨by decide, by decide⟩

theorem witness_block : ([10, 14] : List Nat) ≠ [] ∧ (∀ z ∈ [10, 65535], z ≤ 65535) ∧ ([5, 7] : List Int) ≠ [] := by
  decide

/-- The data bytes 95 80 of `[5, 7]` as a container input. -/
def source57 (pad : Byte) : Source := ⟨Memory.powerOn.writeBytes 0 [0x95#8, pad], 0, 2⟩

theorem witness_rice_bits : ∀ i, (h : i < (riceBits [5, 7]).length) →
    readBit (source57 0x80#8) 0 0 i = .ok (riceBits [5, 7])[i] := by
  decide +kernel

/-- Each clause of the Rice decoder on `[5, 7]`: before its first value, before its second, and with its bits cut
in a remainder and in a quotient. -/
theorem witness_rice_clauses : let e := source57 0x80#8
    let cut : Source := { e with len := 1 }
    let ones : Source := ⟨Memory.powerOn.writeBytes 0 [0xFF#8], 0, 1⟩
    ([3] : List Int).length = (2 + 4095) / 4096 ∧ ([] : List Int).length ≠ (2 + 4095) / 4096 ∧
    riceDec e 0 0 0 [] = .ok ([], 0) ∧ ([33] : List Int)[0 / 4096]? = some 33 ∧
    ([-1] : List Int)[0 / 4096]? = some (-1) ∧ riceDec cut 0 0 1 [3] = .ok ([5], 5) ∧
    readBit cut 0 0 5 = .ok true ∧ readBit cut 0 0 6 = .ok false ∧ readBit cut 0 0 7 = .ok true ∧
    readBit cut 0 0 8 = .error ⟨.truncated, 2, 1, 0, 0⟩ ∧
    readBit e 0 0 7 = .ok true ∧ readBit e 0 0 8 = .ok true ∧ readBit e 0 0 9 = .ok false ∧
    (∀ x, x < 8 → readBit ones 0 0 (0 + x) = .ok true) ∧
    readBit ones 0 0 (0 + 8) = .error ⟨.truncated, 2, 1, 0, 0⟩ := by decide +kernel

/-- R253's example: 95 80 and 95 BF agree on the ten bits read. -/
theorem witness_padding : riceDec (source57 0x80#8) 0 0 2 [3] = .ok ([5, 7], 10) ∧
    ∀ i, i < 10 → readBit (source57 0xBF#8) 0 0 i = readBit (source57 0x80#8) 0 0 i := by
  decide +kernel

/-- Ten bits pack into two bytes, the second padded from its third bit on. -/
theorem witness_pack_places : 1 < (pack (riceBits [5, 7])).length ∧ 2 < 8 ∧ (riceBits [5, 7]).length ≤ 8 * 1 + 2 := by
  decide +kernel

/-- L2-C9: the container with two bytes after it, which the input range holds. -/
theorem witness_trailing : let e := (operands 0x02#8 49 8).source decodeC7.mem
    let e' : Source := ⟨Memory.powerOn.writeBytes 0x1000 (containerC7 ++ [0xAA#8, 0xBB#8]), 0x1000, 51⟩
    parseAll e 8 Parse.start = .ok parsedC7 ∧ (∀ i, i < parsedC7.pos → e'.byte i = e.byte i) ∧
    parsedC7.pos ≤ e'.len := ⟨parse_C7, by decide +kernel, by decide⟩

theorem witness_sample_ends : (8 : Nat) ∈ [8, 16, 24, 32] ∧
    (-(2 : Int) ^ (8 - 1) ≤ -128 ∧ (-128 : Int) ≤ (2 : Int) ^ (8 - 1) - 1) ∧
    (-(2 : Int) ^ (8 - 1) ≤ 127 ∧ (127 : Int) ≤ (2 : Int) ^ (8 - 1) - 1) ∧
    (-129 : Int) < -(2 : Int) ^ (8 - 1) ∧ (2 : Int) ^ (8 - 1) - 1 < (128 : Int) := by decide

/-- What ENCODE of L2-C7 leaves. -/
def encodedC7 : State := completeEncode (operands 0x01#8 8 0x40) encodeC7

/-- DECODE of what ENCODE of L2-C7 left, at 0x2000, into eight bytes at 0x3000. -/
def backOperands : Latched :=
  { operands 0x02#8 49 8 with src := 0x2000#32, dst := 0x3000#32 }

/-- P1's chaining (R380): the machine that decodes what it encoded. -/
def backC7 : State := { encodedC7 with phase := .busy backOperands none }

theorem witness_round_trip :
    encodeC7.phase = .busy (operands 0x01#8 8 0x40) none ∧ backC7.phase = .busy backOperands none ∧
    (operands 0x01#8 8 0x40).encodable ∧ exec .encode encodeC7 = .next encodedC7 ∧ encodedC7.regs.err = false ∧
    backOperands.decodable ∧ backOperands.quietOn backC7.platform.busFaults ∧
    (∀ i, i < encodedC7.regs.outLen.toNat →
      backC7.mem.read (backOperands.src.toNat + i) = encodedC7.mem.read ((operands 0x01#8 8 0x40).dst.toNat + i)) ∧
    encodedC7.regs.outLen.toNat ≤ backOperands.srcLen.toNat ∧
    (operands 0x01#8 8 0x40).srcLen.toNat ≤ backOperands.cap.toNat := by
  refine ⟨rfl, rfl, encodable_C7, rfl, by decide +kernel, ⟨by decide, by decide, by decide⟩, ?_, fun i _ => rfl, ?_, ?_⟩
  · unfold Latched.quietOn; decide +kernel
  · decide +kernel
  · decide

/-- The dithered samples of L2-C7, dithered again, are themselves: the premise of the byte-exact clause. -/
theorem witness_round_trip_exact :
    let m := Memory.powerOn.writeBytes 0x1000 [0x00#8, 0x00#8, 0x00#8, 0x00#8, 0x03#8, 0x00#8, 0x04#8, 0x00#8]
    (operands 0x01#8 8 0x40).depth = 16#8 ∧
    encodeSamples (operands 0x01#8 8 0x40) m = encodeInput (operands 0x01#8 8 0x40) m :=
  ⟨rfl, by decide +kernel⟩

end Sys2Proof.Tests
end

section
/-! ### The table lookup and the tag words (R15, R82, R125, R126)

Every row of the tag table has a full mask and its instruction's word as pattern, so a row holds of one word only:
that is why a decoded tag gives its word back. -/

namespace Sys2Proof

/-- A row whose mask is all ones holds of its pattern only. -/
theorem Row.holds_iff_of_full_mask {r : Row} (hmask : r.mask = BitVec.allOnes 32) (w : Word) :
    r.holds w = true ↔ w = r.pattern := by
  rw [Row.holds, hmask, BitVec.and_allOnes, beq_iff_eq]

/-- The instruction looked up is that of a row of the table, and the row holds of the word. -/
theorem exists_row_of_lookupRow {rows : List Row} {w : Word} {i : Instr} (h : lookupRow rows w = some i) :
    ∃ r ∈ rows, r.holds w = true ∧ r.instr = i := by
  obtain ⟨r, hfind, hinstr⟩ := Option.map_eq_some_iff.mp h
  exact ⟨r, List.mem_of_find?_eq_some hfind, List.find?_some (p := (Row.holds · w)) hfind, hinstr⟩

/-- The tag decoder answers what the tag table holds. -/
theorem decodeTag_eq_ok_iff (w : Word) (i : Instr) : decodeTag w = .ok i ↔ lookupRow tagRows w = some i := by
  unfold decodeTag
  cases lookupRow tagRows w <;> simp

/-- Each row of the tag table compares all 32 bits with the word of its instruction, which is a tag's (R125). -/
theorem tagRows_spec : ∀ r ∈ tagRows,
    r.mask = BitVec.allOnes 32 ∧ r.pattern = encode r.instr ∧ (tagOf r.instr).isSome = true := by
  decide

/-- A word the tag decoder accepts is the word of the tag it answers (R126). -/
theorem decodeTag_sound {w : Word} {i : Instr} (h : decodeTag w = .ok i) :
    (tagOf i).isSome = true ∧ w = encode i := by
  obtain ⟨r, hmem, hholds, rfl⟩ := exists_row_of_lookupRow ((decodeTag_eq_ok_iff w i).mp h)
  obtain ⟨hmask, hpattern, htag⟩ := tagRows_spec r hmem
  exact ⟨htag, hpattern ▸ (Row.holds_iff_of_full_mask hmask w).mp hholds⟩

/-- The tag decoder accepts the word of each tag instruction. -/
theorem decodeTag_encode {i : Instr} (h : (tagOf i).isSome = true) : decodeTag (encode i) = .ok i := by
  cases i with
  | nop | encode | decode => cases h
  | tagSSAF | tagChan | tagZre | tagRice | tagData => rfl

/-- A tag instruction's word, lowest byte first, is the tag's four ASCII bytes (R15, R82). -/
theorem encodeBytes_of_tagOf {i : Instr} {t : Tag} (h : tagOf i = some t) : encodeBytes i = tagBytes t := by
  cases i with
  | nop | encode | decode => cases h
  | tagSSAF | tagChan | tagZre | tagRice | tagData => cases h; rfl

/-- Settles O6: the words are the encoder's, and the tag decoder is sound and complete for them. -/
theorem tagWordsAreTheirBytes : Obligations.TagWordsAreTheirBytes := by
  refine ⟨rfl, rfl, rfl, rfl, rfl, fun _ _ => encodeBytes_of_tagOf, fun w i => ⟨decodeTag_sound, ?_⟩⟩
  rintro ⟨htag, rfl⟩
  exact decodeTag_encode htag

end Sys2Proof
end

section
/-! ### The register map and the register writes (R33, R34, R37, R39, R53, R54)

Each register has one offset and a width, the number of its defined bits from bit 0 up. What a write does is said per
register, once for an engine that takes it and once for one that is busy and ignores it; a read of another register
does not see it. -/

namespace Sys2Proof.Machine

/-! #### Offsets -/

/-- The byte offset of each register (R34). -/
def Reg.offset : Reg → Nat
  | .id => 0x00
  | .param => 0x04
  | .ctrl => 0x08
  | .cmd => 0x0C
  | .status => 0x10
  | .errCode => 0x14
  | .errInfo => 0x18
  | .srcAddr => 0x1C
  | .srcLen => 0x20
  | .dstAddr => 0x24
  | .dstCap => 0x28
  | .sampleRate => 0x2C
  | .depth => 0x30
  | .channels => 0x34
  | .outLen => 0x38
  | .inUsed => 0x3C
  | .resRate => 0x40
  | .resDepth => 0x44
  | .resChannels => 0x48
  | .resSamples => 0x4C

theorem regAt_offset (r : Reg) : regAt r.offset = some r := by
  cases r <;> rfl

theorem eq_offset_of_regAt {off : Nat} {r : Reg} (h : regAt off = some r) : off = r.offset := by
  unfold regAt at h
  split at h <;> cases h <;> rfl

theorem Reg.offset_lt (r : Reg) : r.offset < 0x50 := by
  cases r <;> decide

/-- No register stands above 0x4C (R54). -/
theorem regAt_reserved {off : Nat} (h : 0x50 ≤ off) : regAt off = none := by
  cases hr : regAt off with
  | none => rfl
  | some r => exact absurd (eq_offset_of_regAt hr ▸ r.offset_lt) (not_lt.mpr h)

theorem offsetRead_offset {s : State} (hreset : s.inReset = false) (r : Reg) :
    offsetRead s r.offset = readReg s r := by
  simp [offsetRead, hreset, regAt_offset]

theorem offsetWrite_offset {s : State} (hreset : s.inReset = false) (v : Word) (r : Reg) :
    offsetWrite s r.offset v = writeReg s v r := by
  simp [offsetWrite, hreset, regAt_offset]

theorem offsetRead_reserved (s : State) {off : Nat} (h : 0x50 ≤ off) : offsetRead s off = 0#32 := by
  simp [offsetRead, regAt_reserved h]

theorem offsetWrite_reserved (s : State) (v : Word) {off : Nat} (h : 0x50 ≤ off) : offsetWrite s off v = s := by
  simp [offsetWrite, regAt_reserved h]

/-! #### Bits -/

/-- How many bits of a register are defined; the rest are reserved (R34, R37, R39, R45, R46). -/
def Reg.width : Reg → Nat
  | .ctrl => 2
  | .status => 4
  | .depth | .resDepth => 8
  | .channels | .resChannels => 16
  | _ => 32

/-- The word of a register's defined bits. -/
def Reg.mask (r : Reg) : Word := BitVec.ofNat 32 (2 ^ r.width - 1)

theorem Reg.width_le (r : Reg) : r.width ≤ 32 := by
  cases r <;> decide

theorem Reg.mask_getLsbD (r : Reg) (i : Nat) : r.mask.getLsbD i = decide (i < r.width) := by
  have hw := r.width_le
  rw [mask, BitVec.getLsbD_ofNat, Nat.testBit_two_pow_sub_one, ← Bool.decide_and, decide_eq_decide]
  omega

theorem and_mask_getLsbD (v : Word) (r : Reg) (i : Nat) :
    (v &&& r.mask).getLsbD i = (v.getLsbD i && decide (i < r.width)) := by
  rw [BitVec.getLsbD_and, r.mask_getLsbD]

theorem and_mask_of_width_eq (v : Word) {r : Reg} (h : r.width = 32) : v &&& r.mask = v := by
  apply BitVec.eq_of_getLsbD_eq
  intro i hi
  rw [and_mask_getLsbD, h, decide_eq_true hi, Bool.and_true]

/-- The low bits of a masked word are those of the word, up to the register's width. -/
theorem setWidth_and_mask (v : Word) {r : Reg} {n : Nat} (h : n ≤ r.width) :
    (v &&& r.mask).setWidth n = v.setWidth n := by
  apply BitVec.eq_of_getLsbD_eq
  intro i hi
  rw [BitVec.getLsbD_setWidth, BitVec.getLsbD_setWidth, and_mask_getLsbD,
    decide_eq_true (hi.trans_le h), Bool.and_true]

/-- Cutting a word to the register's width and extending it again is masking it. -/
theorem setWidth_setWidth_width (v : Word) (r : Reg) : (v.setWidth r.width).setWidth 32 = v &&& r.mask := by
  apply BitVec.eq_of_getLsbD_eq
  intro i hi
  rw [BitVec.getLsbD_setWidth, BitVec.getLsbD_setWidth, and_mask_getLsbD, decide_eq_true hi, Bool.true_and,
    Bool.and_comm]

theorem zero_append_eq_setWidth {n m : Nat} (b : BitVec n) : 0#m ++ b = b.setWidth (m + n) := by
  apply BitVec.eq_of_getLsbD_eq
  intro i hi
  rw [BitVec.getLsbD_append, BitVec.getLsbD_setWidth, decide_eq_true hi, Bool.true_and, BitVec.getLsbD_zero]
  split_ifs with h
  · rfl
  · exact (BitVec.getLsbD_of_ge b i (not_lt.mp h)).symm

theorem bitAt_getLsbD (b : Bool) {n : Nat} (hn : n < 32) (i : Nat) :
    (bitAt b n).getLsbD i = (b && decide (i = n)) := by
  cases b with
  | false => simp [bitAt]
  | true =>
    rw [bitAt, if_pos rfl, BitVec.getLsbD_shiftLeft, BitVec.getLsbD_one, Bool.true_and]
    simp only [← decide_not, ← Bool.decide_and, decide_eq_decide]
    omega

theorem ctrlWord_getLsbD (r : Regs) (i : Nat) :
    (ctrlWord r).getLsbD i = (r.irqEn && decide (i = 0) || r.ditherEn && decide (i = 1)) := by
  rw [ctrlWord, BitVec.getLsbD_or, bitAt_getLsbD _ (by decide), bitAt_getLsbD _ (by decide)]

theorem statusWord_getLsbD (r : Regs) (p : Phase) (i : Nat) :
    (statusWord r p).getLsbD i = (p.isBusy && decide (i = 0) || r.done && decide (i = 1) ||
      r.err && decide (i = 2) || r.ign && decide (i = 3)) := by
  rw [statusWord, BitVec.getLsbD_or, BitVec.getLsbD_or, BitVec.getLsbD_or, bitAt_getLsbD _ (by decide),
    bitAt_getLsbD _ (by decide), bitAt_getLsbD _ (by decide), bitAt_getLsbD _ (by decide)]

/-! #### Reading -/

/-- A reserved bit reads 0 (R54). -/
theorem readReg_getLsbD_reserved (s : State) {r : Reg} {i : Nat} (h : r.width ≤ i) :
    (readReg s r).getLsbD i = false := by
  cases r with
  | ctrl =>
    rw [Reg.width] at h
    simp [readReg, ctrlWord_getLsbD, show i ≠ 0 by omega, show i ≠ 1 by omega]
  | status =>
    rw [Reg.width] at h
    simp [readReg, statusWord_getLsbD, show i ≠ 0 by omega, show i ≠ 1 by omega, show i ≠ 2 by omega,
      show i ≠ 3 by omega]
  | depth | resDepth | channels | resChannels =>
    rw [Reg.width] at h
    rw [readReg, BitVec.getLsbD_setWidth, BitVec.getLsbD_of_ge _ _ h, Bool.and_false]
  | _ => exact BitVec.getLsbD_of_ge _ _ h

theorem readReg_and_not_mask (s : State) (r : Reg) : readReg s r &&& ~~~r.mask = 0#32 := by
  apply BitVec.eq_of_getLsbD_eq
  intro i hi
  rw [BitVec.getLsbD_and, BitVec.getLsbD_not, Reg.mask_getLsbD, BitVec.getLsbD_zero]
  by_cases h : i < r.width
  · simp [h]
  · simp [readReg_getLsbD_reserved s (not_lt.mp h)]

/-- The interrupt output is bit 0 of CTRL and bit 1 of STATUS (R55). -/
theorem irq_eq_readReg (s : State) :
    s.irq = ((readReg s .ctrl).getLsbD 0 && (readReg s .status).getLsbD 1) := by
  simp only [readReg, ctrlWord_getLsbD, statusWord_getLsbD]
  simp [State.irq, Regs.irq]

/-- CTRL's two bits as a word (R37). -/
theorem ctrlWord_eq_append (r : Regs) :
    ctrlWord r = 0#30 ++ BitVec.ofBool r.ditherEn ++ BitVec.ofBool r.irqEn := by
  unfold ctrlWord
  cases r.irqEn <;> cases r.ditherEn <;> rfl

/-- STATUS's four bits as a word (R39). -/
theorem statusWord_eq_append (r : Regs) (p : Phase) :
    statusWord r p = 0#28 ++ BitVec.ofBool r.ign ++ BitVec.ofBool r.err ++ BitVec.ofBool r.done ++
      BitVec.ofBool p.isBusy := by
  unfold statusWord
  cases r.ign <;> cases r.err <;> cases r.done <;> cases p.isBusy <;> rfl

/-! #### Writing -/

/-- The registers a write cannot change (R34, R35, R36, R40, R47 to R49). -/
def readOnlyRegs : List Reg :=
  [.id, .param, .errCode, .errInfo, .outLen, .inUsed, .resRate, .resDepth, .resChannels, .resSamples]

/-- The operand registers (R42 to R46). -/
def operandRegs : List Reg := [.srcAddr, .srcLen, .dstAddr, .dstCap, .sampleRate, .depth, .channels]

/-- The registers after a write that is taken, CMD apart, whose write is a command's acceptance. -/
def Regs.put (g : Regs) (v : Word) : Reg → Regs
  | .ctrl => g.writeCtrl v
  | .status => g.clearStatus v
  | .srcAddr => { g with srcAddr := v }
  | .srcLen => { g with srcLen := v }
  | .dstAddr => { g with dstAddr := v }
  | .dstCap => { g with dstCap := v }
  | .sampleRate => { g with sampleRate := v }
  | .depth => { g with depth := v.setWidth 8 }
  | .channels => { g with channels := v.setWidth 16 }
  | _ => g

theorem writeReg_readOnly (s : State) (v : Word) : ∀ r ∈ readOnlyRegs, writeReg s v r = s := by
  simp [readOnlyRegs, writeReg]

theorem writeReg_ctrl (s : State) (v : Word) : writeReg s v .ctrl = { s with regs := s.regs.put v .ctrl } := rfl

theorem writeReg_status (s : State) (v : Word) :
    writeReg s v .status = { s with regs := s.regs.put v .status } := rfl

theorem writeReg_operand_idle {s : State} (hidle : s.phase = .idle) (v : Word) :
    ∀ r ∈ operandRegs, writeReg s v r = { s with regs := s.regs.put v r } := by
  simp [operandRegs, writeReg, lockedWrite, hidle, Regs.put]

/-- A busy engine ignores a write to CMD or to an operand register and sets IGN (R53). -/
theorem writeReg_locked_busy {s : State} (hbusy : s.phase.isBusy = true) (v : Word) :
    ∀ r ∈ .cmd :: operandRegs, writeReg s v r = { s with regs := s.regs.setIgn } := by
  cases hp : s.phase with
  | idle => simp [hp, Phase.isBusy] at hbusy
  | busy l work => simp [operandRegs, writeReg, lockedWrite, cmdWrite, hp]

/-- A write that is taken is not seen in another register. -/
theorem readReg_put_of_ne (s : State) (v : Word) {r r' : Reg} (hne : r' ≠ r) :
    readReg { s with regs := s.regs.put v r } r' = readReg s r' := by
  cases r with
  | ctrl | status | srcAddr | srcLen | dstAddr | dstCap | sampleRate | depth | channels =>
    cases r' <;> simp [readReg, Regs.put, statusWord, ctrlWord] at hne ⊢
  | _ => rfl

theorem offsetRead_put_of_ne (s : State) (v : Word) {r : Reg} {off : Nat} (hoff : off ≠ r.offset) :
    offsetRead { s with regs := s.regs.put v r } off = offsetRead s off := by
  cases hr : regAt off with
  | none => simp [offsetRead, hr]
  | some r' =>
    have hne : r' ≠ r := fun he => hoff (he ▸ eq_offset_of_regAt hr)
    simp [offsetRead, hr, readReg_put_of_ne s v hne]

/-- CTRL and the operand registers read back what is written, within their width (R37, R42 to R46). -/
theorem readReg_put_same (s : State) (v : Word) :
    ∀ r ∈ .ctrl :: operandRegs, readReg { s with regs := s.regs.put v r } r = v &&& r.mask := by
  have whole : ∀ {r : Reg}, r.width = 32 → v = v &&& r.mask := fun h => (and_mask_of_width_eq v h).symm
  have ctrl : ctrlWord (s.regs.writeCtrl v) = v &&& Reg.ctrl.mask := by
    apply BitVec.eq_of_getLsbD_eq
    intro i hi
    rw [ctrlWord_getLsbD, and_mask_getLsbD, Reg.width]
    match i with
    | 0 | 1 | i + 2 => simp
  simp only [operandRegs, List.forall_mem_cons]
  exact ⟨ctrl, whole rfl, whole rfl, whole rfl, whole rfl, whole rfl, setWidth_setWidth_width v .depth,
    setWidth_setWidth_width v .channels, by simp⟩

/-- A write's reserved bits do not matter (R54). -/
theorem writeReg_and_mask (s : State) (v : Word) (r : Reg) : writeReg s (v &&& r.mask) r = writeReg s v r := by
  cases r with
  | ctrl => simp only [writeReg, Regs.writeCtrl, and_mask_getLsbD]; simp [Reg.width]
  | status => simp only [writeReg, Regs.clearStatus, and_mask_getLsbD]; simp [Reg.width]
  | depth => simp only [writeReg, setWidth_and_mask v (r := .depth) (n := 8) le_rfl]
  | channels => simp only [writeReg, setWidth_and_mask v (r := .channels) (n := 16) le_rfl]
  | resDepth | resChannels => rfl
  | _ => rw [and_mask_of_width_eq v rfl]

end Sys2Proof.Machine
end

section
/-! ### What the register block promises the host (R35 to R39, R52 to R55)

The lists of offsets in the statements are the offsets of a list of registers, so each clause is one fact about a
register. -/

namespace Sys2Proof.Machine

/-- Settles O8: both registers are constants, and their writes are ignored. -/
theorem idAndParamAreConstant : Obligations.IdAndParamAreConstant := by
  intro s v hreset
  have hid : offsetRead s 0x00 = 0x46415353#32 := offsetRead_offset hreset .id
  have hparam : offsetRead s 0x04 = 0x10040A0C#32 := offsetRead_offset hreset .param
  have hwid : offsetWrite s 0x00 v = s := offsetWrite_offset hreset v .id
  have hwparam : offsetWrite s 0x04 v = s := offsetWrite_offset hreset v .param
  rw [hid, hparam]
  exact ⟨rfl, by decide, rfl, hwid, hwparam, by decide, by decide, by decide, by decide⟩

/-- Settles O9: no register stands at a reserved offset, and a register's reserved bits lie outside its mask. -/
theorem reservedAndReadOnlyIgnoreWrites : Obligations.ReservedAndReadOnlyIgnoreWrites := by
  intro s v hreset
  refine ⟨fun off hoff _ _ => ⟨offsetRead_reserved s hoff, offsetWrite_reserved s v hoff⟩, ?_, ?_⟩
  · change ∀ off ∈ readOnlyRegs.map Reg.offset, _
    intro off hoff
    obtain ⟨r, hr, rfl⟩ := List.mem_map.mp hoff
    rw [offsetWrite_offset hreset, writeReg_readOnly s v r hr]
  · change ∀ x ∈ [Reg.ctrl, .status, .depth, .channels, .resDepth, .resChannels].map
      (fun r => (r.offset, r.mask)), _
    intro x hx
    obtain ⟨r, -, rfl⟩ := List.mem_map.mp hx
    rw [offsetRead_offset hreset, offsetWrite_offset hreset, offsetWrite_offset hreset]
    exact ⟨readReg_and_not_mask s r, (writeReg_and_mask s v r).symm⟩

/-- Settles O11: while idle each of these writes is taken, and a taken write is seen in its own register only. -/
theorem operandRegistersReadBack : Obligations.OperandRegistersReadBack := by
  intro s v hidle hreset
  have written : ∀ r ∈ Reg.ctrl :: operandRegs, offsetWrite s r.offset v = { s with regs := s.regs.put v r } := by
    intro r hr
    rw [offsetWrite_offset hreset]
    rcases List.mem_cons.mp hr with rfl | hop
    · exact writeReg_ctrl s v
    · exact writeReg_operand_idle hidle v r hop
  refine ⟨?_, ?_⟩
  · change ∀ x ∈ (Reg.ctrl :: operandRegs).map (fun r => (r.offset, r.mask)), _
    intro x hx
    obtain ⟨r, hr, rfl⟩ := List.mem_map.mp hx
    dsimp only
    rw [written r hr, offsetRead_offset (by exact hreset)]
    exact ⟨readReg_put_same s v r hr, fun _ => offsetRead_put_of_ne s v, hidle, rfl⟩
  · have hdepth : v.extractLsb' 0 8 = v.setWidth 8 := (BitVec.setWidth_eq_extractLsb' (by decide)).symm
    have hchannels : v.extractLsb' 0 16 = v.setWidth 16 := (BitVec.setWidth_eq_extractLsb' (by decide)).symm
    rw [hdepth, hchannels]
    exact ⟨written .srcAddr (by decide), written .srcLen (by decide), written .dstAddr (by decide),
      written .dstCap (by decide), written .sampleRate (by decide), written .depth (by decide),
      written .channels (by decide)⟩

/-- Settles O12: a write to STATUS is always taken, and clears the bits it holds. -/
theorem statusIsWriteOneToClear : Obligations.StatusIsWriteOneToClear := by
  intro s v hreset
  have written : ∀ w, offsetWrite s 0x10 w = { s with regs := s.regs.clearStatus w } :=
    fun w => offsetWrite_offset hreset w .status
  have status : ∀ {t : State}, t.inReset = false → offsetRead t 0x10 = statusWord t.regs t.phase :=
    fun h => offsetRead_offset h .status
  rw [written, written, status hreset, status (by exact hreset)]
  refine ⟨?_, ?_, fun _ => offsetRead_put_of_ne s v (r := .status), rfl, rfl, rfl, ?_⟩
  · simp [statusWord_getLsbD]
  · rw [statusWord_getLsbD]
    simp
  · simp [acknowledge, writeReg, Regs.clearStatus]

/-- Settles O13: a write to CTRL is always taken, and changes no phase. -/
theorem controlWriteWhileRunning : Obligations.ControlWriteWhileRunning := by
  intro s v hreset
  have written : offsetWrite s 0x08 v = { s with regs := s.regs.put v .ctrl } := offsetWrite_offset hreset v .ctrl
  rw [written]
  refine ⟨rfl, rfl, ?_⟩
  calc offsetRead { s with regs := s.regs.put v .ctrl } 0x08
      = readReg { s with regs := s.regs.put v .ctrl } .ctrl := offsetRead_offset (by exact hreset) .ctrl
    _ = v &&& Reg.ctrl.mask := readReg_put_same s v .ctrl (by decide)

/-- Settles O14: the two bits as the host reads them are those of the registers. -/
theorem interruptFollowsDone : Obligations.InterruptFollowsDone := by
  intro s hreset
  have hctrl : offsetRead s 0x08 = readReg s .ctrl := offsetRead_offset hreset .ctrl
  have hstatus : offsetRead s 0x10 = readReg s .status := offsetRead_offset hreset .status
  rw [hctrl, hstatus]
  exact irq_eq_readReg s

end Sys2Proof.Machine
end

section
/-! ### The register block over the bus (R32, R33, R53)

An access that meets the block is defined exactly where it is a word access at an aligned offset; there a write is
`offsetWrite` and a read is `offsetRead`, and everywhere else both are refused. -/

namespace Sys2Proof.Machine

theorem step_pending {s : State} {i : Input} {rest : List Input} (h : s.inputs = i :: rest) :
    step s = inputStep i { s with inputs := rest } := by
  simp [step, h]

theorem step_nothing_pending {s : State} (h : s.inputs = []) : step s = takeTurn (completeTurn s) s := by
  simp [step, h]

theorem offsetRead_inputs (s : State) (rest : List Input) (off : Nat) :
    offsetRead { s with inputs := rest } off = offsetRead s off := by
  have hread : ∀ r, readReg { s with inputs := rest } r = readReg s r := by
    intro r
    cases r <;> rfl
  simp [offsetRead, hread]

theorem busWrite_of_defined {s : State} {addr : Word} (v : Word) (hoff : regOffset s addr < 256)
    (halign : regOffset s addr % 4 = 0) :
    busWrite addr .word v s = .next (offsetWrite s (regOffset s addr) v) := by
  simp [busWrite, meetsBlock, hoff, halign]

theorem busRead_of_defined {s : State} {addr : Word} (hoff : regOffset s addr < 256)
    (halign : regOffset s addr % 4 = 0) :
    busRead addr .word s = .next { s with response := .reg (offsetRead s (regOffset s addr)) } := by
  simp [busRead, meetsBlock, hoff, halign]

theorem busWrite_of_undefined {s : State} {addr : Word} {size : AccessSize} (v : Word)
    (hmeets : meetsBlock s addr size = true) (h : size ≠ .word ∨ regOffset s addr % 4 ≠ 0) :
    busWrite addr size v s = .refused (.registerAccess addr size) := by
  rw [busWrite, hmeets, if_neg (by simp), if_pos h]

theorem busRead_of_undefined {s : State} {addr : Word} {size : AccessSize}
    (hmeets : meetsBlock s addr size = true) (h : size ≠ .word ∨ regOffset s addr % 4 ≠ 0) :
    busRead addr size s = .refused (.registerAccess addr size) := by
  rw [busRead, hmeets, if_neg (by simp), if_pos h]

/-- The offset of REG_BASE plus an offset of the block is that offset, whatever REG_BASE is (R32). -/
theorem regOffset_add {s : State} {off : Nat} (h : off < 256) :
    regOffset s (s.platform.regBase + BitVec.ofNat 32 off) = off := by
  rw [regOffset, BitVec.add_comm, BitVec.add_sub_cancel, BitVec.toNat_ofNat]
  omega

/-- An aligned word write at an offset of the block, taken off the pending list, is the write at that offset (R33). -/
theorem step_regWrite {s : State} {v : Word} {off : Nat} {rest : List Input}
    (h : s.inputs = .regWrite (s.platform.regBase + BitVec.ofNat 32 off) .word v :: rest) (hoff : off < 256)
    (halign : off % 4 = 0) : step s = .next (offsetWrite { s with inputs := rest } off v) := by
  have hbase : regOffset { s with inputs := rest } (s.platform.regBase + BitVec.ofNat 32 off) = off :=
    regOffset_add hoff
  rw [step_pending h, inputStep, busWrite_of_defined v (by rwa [hbase]) (by rwa [hbase]), hbase]

/-- An aligned word read at an offset of the block answers the value there and changes nothing else (R33). -/
theorem step_regRead {s : State} {off : Nat} {rest : List Input}
    (h : s.inputs = .regRead (s.platform.regBase + BitVec.ofNat 32 off) .word :: rest) (hoff : off < 256)
    (halign : off % 4 = 0) : step s = .next { s with inputs := rest, response := .reg (offsetRead s off) } := by
  have hbase : regOffset { s with inputs := rest } (s.platform.regBase + BitVec.ofNat 32 off) = off :=
    regOffset_add hoff
  rw [step_pending h, inputStep, busRead_of_defined (by rwa [hbase]) (by rwa [hbase]), hbase, offsetRead_inputs]

/-- Settles O10: a locked write of a busy engine sets IGN, the other writes are taken, and the bus carries each of
them to the register that stands at the offset. -/
theorem busyLockedWritesOnlySetIgn : Obligations.BusyLockedWritesOnlySetIgn := by
  refine ⟨fun s v hreset => ⟨fun hbusy => ?_, ?_, ?_⟩,
    fun s v off rest hoff halign => ⟨fun h => step_regWrite h hoff halign, fun h => step_regRead h hoff halign⟩,
    fun s hreset => ⟨?_, ?_, ?_, ?_⟩⟩
  · change ∀ off ∈ (Reg.cmd :: operandRegs).map Reg.offset, _
    intro off hmem
    obtain ⟨r, hr, rfl⟩ := List.mem_map.mp hmem
    rw [offsetWrite_offset hreset, writeReg_locked_busy hbusy v r hr]
    rfl
  · exact offsetWrite_offset hreset v .ctrl
  · exact offsetWrite_offset hreset v .status
  · rw [← ctrlWord_eq_append]
    exact offsetRead_offset hreset .ctrl
  · exact offsetRead_offset hreset .cmd
  · rw [← statusWord_eq_append]
    exact offsetRead_offset hreset .status
  · simp only [zero_append_eq_setWidth]
    change ∀ x ∈ [Reg.errCode, .errInfo, .srcAddr, .srcLen, .dstAddr, .dstCap, .sampleRate, .depth, .channels,
      .outLen, .inUsed, .resRate, .resDepth, .resChannels, .resSamples].map (fun r => (r.offset, readReg s r)), _
    intro x hx
    obtain ⟨r, -, rfl⟩ := List.mem_map.mp hx
    exact offsetRead_offset hreset r

/-- Settles O16: an access that meets the block is refused or carried out by its width and alignment alone. -/
theorem undefinedRegisterAccessIsRefused : Obligations.UndefinedRegisterAccessIsRefused := by
  intro s addr v size off rest hoff hmeets
  subst hoff
  have hblock : meetsBlock { s with inputs := rest } addr size = true := by
    rw [meetsBlock, Bool.or_eq_true, decide_eq_true_iff, decide_eq_true_iff]
    cases size <;> exact hmeets
  refine ⟨fun hundef => ⟨fun h => ?_, fun h => ?_⟩, ?_⟩
  · rw [step_pending h]
    exact busWrite_of_undefined v hblock hundef
  · rw [step_pending h]
    exact busRead_of_undefined hblock hundef
  · rintro ⟨rfl, halign⟩
    have hlt := meetsBlock_word hblock halign
    refine ⟨fun h => ?_, fun h => ?_⟩
    · rw [step_pending h]
      exact ⟨_, busWrite_of_defined v hlt halign⟩
    · rw [step_pending h]
      exact ⟨_, busRead_of_defined hlt halign⟩

end Sys2Proof.Machine
end

section
/-! ### Every instruction and every dutiful input has a next state (R91, R376, R379) -/

namespace Sys2Proof.Machine

theorem whileBusy_total (s : State) (f : Latched → Option Parse → State) : ∃ t, whileBusy s f = .next t := by
  cases hp : s.phase with
  | idle => exact ⟨s, whileBusy_idle f hp⟩
  | busy l work => exact ⟨f l work, whileBusy_busy f hp⟩

theorem seeTag_total (seen : Tag) (s : State) : ∃ t, seeTag seen s = .next t := by
  rcases seeTag_cases seen s with ⟨_, _, _, -, -, h⟩ | h <;> exact ⟨_, h⟩

theorem exec_total (i : Instr) (s : State) : ∃ t, exec i s = .next t := by
  cases i with
  | nop | encode | decode => exact whileBusy_total s _
  | tagSSAF | tagChan | tagZre | tagRice | tagData => exact seeTag_total _ s

theorem takeTurn_total (turn : Turn) (s : State) : ∃ t, takeTurn turn s = .next t := by
  cases turn with
  | run i => exact exec_total i s
  | reach s' => exact ⟨s', rfl⟩

theorem regAccessWf_iff (s : State) (addr : Word) (size : AccessSize) :
    regAccessWf s.platform.regBase addr size = true ↔
      size = .word ∧ regOffset s addr < 256 ∧ regOffset s addr % 4 = 0 := by
  simp [regAccessWf, regOffset, and_assoc]

theorem memAccessWf_iff (addr : Word) (len : Nat) :
    memAccessWf addr len = true ↔ ¬ Config.addrTop < addr.toNat + len := by
  simp [memAccessWf]

/-- An input that keeps the host's duties takes effect: no fault, no refusal. -/
theorem inputStep_dutiful {s : State} {i : Input} (h : dutiful s i = true) : ∃ t, inputStep i s = .next t := by
  cases i with
  | regWrite addr size v =>
    obtain ⟨rfl, hoff, halign⟩ := (regAccessWf_iff s addr size).mp h
    exact ⟨_, busWrite_of_defined v hoff halign⟩
  | regRead addr size =>
    obtain ⟨rfl, hoff, halign⟩ := (regAccessWf_iff s addr size).mp h
    exact ⟨_, busRead_of_defined hoff halign⟩
  | memWrite addr bytes =>
    rw [dutiful, Bool.and_eq_true, memAccessWf_iff, Bool.not_eq_true'] at h
    obtain ⟨hspace, hoff⟩ := h
    exact ⟨_, by rw [inputStep, hostMemWrite, if_neg hspace, if_neg (by simp [hoff])]⟩
  | memRead addr len =>
    exact ⟨_, by rw [inputStep, hostMemRead, if_neg ((memAccessWf_iff addr len).mp h)]⟩
  | resetOn | resetOff => exact ⟨_, rfl⟩
  | advance | complete => exact takeTurn_total _ s

/-- Settles O39: the engine's turns always have a next state, and so has each dutiful input. -/
theorem dutifulHostNeverStopsTheMachine : Obligations.DutifulHostNeverStopsTheMachine := by
  intro s
  refine ⟨fun h => ?_, fun i rest h hd => ?_⟩
  · rw [step_nothing_pending h]
    exact takeTurn_total _ s
  · rw [step_pending h]
    exact inputStep_dutiful (s := { s with inputs := rest }) (by cases i <;> exact hd)

end Sys2Proof.Machine
end

section
/-! ### The turns of the engine (R52, R56, R301)

Whatever the engine does in one turn, it writes no operand register, and it ends idle or with the command it had.
A command's outcome depends on the phase, the memory, the platform and the draws only; and a DECODE that takes one
unit of its parser has the same outcome before it. -/

namespace Sys2Proof.Machine

/-! #### Dispatch -/

theorem exec_encode_busy {s : State} {l : Latched} {work : Option Parse} (h : s.phase = .busy l work) :
    exec .encode s = .next (completeEncode l s) :=
  whileBusy_busy _ h

theorem exec_decode_busy {s : State} {l : Latched} {work : Option Parse} (h : s.phase = .busy l work) :
    exec .decode s = .next (completeDecode l work s) :=
  whileBusy_busy _ h

/-- A tag instruction is the parser's meeting of its tag (R278). -/
theorem exec_tag {i : Instr} {t : Tag} (h : tagOf i = some t) (s : State) : exec i s = seeTag t s := by
  cases i with
  | nop | encode | decode => cases h
  | tagSSAF | tagChan | tagZre | tagRice | tagData => cases h; rfl

theorem completeTurn_of_decoded {s : State} {l : Latched} {work : Option Parse} {i : Instr}
    (hbusy : s.phase = .busy l work) (hop : decodeCommand (l.op.setWidth 32) = .ok i) :
    completeTurn s = .run i := by
  simp [completeTurn, hbusy, hop]

/-- Settles O1: the completing turn runs the instruction the latched opcode decodes to. -/
theorem stepRunsTheLatchedCommand : Obligations.StepRunsTheLatchedCommand := by
  intro s l work i hbusy hop
  refine ⟨fun h => ?_, fun rest h => ?_⟩
  · rw [step_nothing_pending h, completeTurn_of_decoded hbusy hop, takeTurn]
  · have hturn : completeTurn { s with inputs := rest } = .run i := completeTurn_of_decoded hbusy hop
    rw [step_pending h, inputStep, hturn, takeTurn]

/-! #### What a command reads -/

/-- Two states agree on what a command leaves: memory, phase, draws, DONE, ERR, the error registers and the result
registers. -/
structure State.sameOutcome (s t : State) : Prop where
  mem : s.mem = t.mem
  phase : s.phase = t.phase
  draws : s.draws = t.draws
  done : s.regs.done = t.regs.done
  err : s.regs.err = t.regs.err
  errCode : s.regs.errCode = t.regs.errCode
  errInfo : s.regs.errInfo = t.regs.errInfo
  outLen : s.regs.outLen = t.regs.outLen
  inUsed : s.regs.inUsed = t.regs.inUsed
  resRate : s.regs.resRate = t.regs.resRate
  resDepth : s.regs.resDepth = t.regs.resDepth
  resChannels : s.regs.resChannels = t.regs.resChannels
  resSamples : s.regs.resSamples = t.regs.resSamples

theorem raise_sameOutcome (e : Err) {s t : State} (hmem : s.mem = t.mem) (hdraws : s.draws = t.draws) :
    (raise e s).sameOutcome (raise e t) :=
  ⟨hmem, rfl, hdraws, rfl, rfl, rfl, rfl, rfl, rfl, rfl, rfl, rfl, rfl⟩

theorem finishWith_sameOutcome (v : Results) {s t : State} (hmem : s.mem = t.mem) (hdraws : s.draws = t.draws) :
    (finishWith v s).sameOutcome (finishWith v t) :=
  ⟨hmem, rfl, hdraws, rfl, rfl, rfl, rfl, rfl, rfl, rfl, rfl, rfl, rfl⟩

section
variable {s t : State} (hmem : s.mem = t.mem) (hplatform : s.platform = t.platform) (hdraws : s.draws = t.draws)
include hmem hplatform hdraws

theorem settle_sameOutcome (l : Latched) (f : Effect) : (settle l f s).sameOutcome (settle l f t) := by
  simp only [settle, hmem, hplatform, hdraws]
  split_ifs
  · exact raise_sameOutcome _ rfl rfl
  · cases f.result with
    | ok v => exact finishWith_sameOutcome v rfl rfl
    | error e => exact raise_sameOutcome e rfl rfl

theorem completeEncode_sameOutcome (l : Latched) : (completeEncode l s).sameOutcome (completeEncode l t) := by
  simp only [completeEncode, hmem]
  cases encodeCheck l with
  | some e => exact raise_sameOutcome e hmem hdraws
  | none => exact settle_sameOutcome hmem hplatform hdraws l _

theorem completeDecode_sameOutcome (l : Latched) (work : Option Parse) :
    (completeDecode l work s).sameOutcome (completeDecode l work t) := by
  simp only [completeDecode, settleDecode, hmem]
  cases rangeCheck l with
  | some e => exact raise_sameOutcome e hmem hdraws
  | none => exact settle_sameOutcome hmem hplatform hdraws l _

end

/-- Settles O37: both commands run on the latched operands in the phase, so registers play no part. -/
theorem commandsReadOnlyLatchedOperands : Obligations.CommandsReadOnlyLatchedOperands := by
  intro s1 s2 l work i hi hbusy1 hbusy2 hmem hplatform hdraws
  have outcome : ∃ t1 t2, exec i s1 = .next t1 ∧ exec i s2 = .next t2 ∧ t1.sameOutcome t2 := by
    rcases hi with rfl | rfl
    · exact ⟨_, _, exec_encode_busy hbusy1, exec_encode_busy hbusy2,
        completeEncode_sameOutcome hmem hplatform hdraws l⟩
    · exact ⟨_, _, exec_decode_busy hbusy1, exec_decode_busy hbusy2,
        completeDecode_sameOutcome hmem hplatform hdraws l work⟩
  obtain ⟨t1, t2, h1, h2, h⟩ := outcome
  exact ⟨t1, t2, h1, h2, h.mem, h.phase, h.draws, h.done, h.err, h.errCode, h.errInfo, h.outLen, h.inUsed, h.resRate,
    h.resDepth, h.resChannels, h.resSamples⟩

/-! #### The progress of a DECODE -/

/-- A command's end overwrites the phase, so the working state it ends with plays no part. -/
theorem settle_with_phase (l : Latched) (f : Effect) (s : State) (ph : Phase) :
    settle l f { s with phase := ph } = settle l f s := by
  simp only [settle]
  split_ifs
  · rfl
  · cases f.result <;> rfl

theorem completeDecode_with_phase (l : Latched) (work : Option Parse) (s : State) (ph : Phase) :
    completeDecode l work { s with phase := ph } = completeDecode l work s := by
  simp only [completeDecode, settleDecode, settle_with_phase]
  cases rangeCheck l <;> rfl

/-- A DECODE whose range checks pass ends with its parse's outcome. -/
theorem completeDecode_of_rangeCheck {l : Latched} (hcheck : rangeCheck l = none) (work : Option Parse) (s : State) :
    completeDecode l work s = settleDecode l (channelsKnown (l.source s.mem) l.cap.toNat (parserAt work))
      (parseAll (l.source s.mem) l.cap.toNat (parserAt work)) s := by
  simp [completeDecode, hcheck]

/-- The parser's turn at a tag is `ExpectTag`, whether the engine finds the tag, another one, or none (R278). -/
theorem takeTurn_tagTurn {s : State} {l : Latched} {p : Parse} {want : Tag} (hbusy : s.phase = .busy l (some p))
    (hstage : p.stage = .tag want) :
    takeTurn (tagTurn l want p s) s = .next (decodeMove l p (expectTag (l.source s.mem) want p) s) := by
  simp only [tagTurn, expectTag]
  have hlen : (l.source s.mem).len = l.srcLen.toNat := rfl
  rw [hlen]
  split_ifs with hshort
  · rfl
  · cases hdecode : decodeTag ((l.source s.mem).word p.pos) with
    | error _ => rfl
    | ok i =>
      obtain ⟨htag, -⟩ := decodeTag_sound hdecode
      obtain ⟨seen, hseen⟩ := Option.isSome_iff_exists.mp htag
      simp [takeTurn, exec_tag hseen, seeTag, hbusy, hstage, hseen]

/-- A turn of progress of a DECODE under way is one unit of its parser (R56). -/
theorem takeTurn_advanceTurn {s : State} {l : Latched} {p : Parse} (hbusy : s.phase = .busy l (some p))
    (hop : l.op = opDecode) (hcheck : rangeCheck l = none) (hstage : p.stage ≠ .done) :
    takeTurn (advanceTurn s) s =
      .next (decodeMove l p (parseUnit (l.source s.mem) l.cap.toNat p) s) := by
  simp only [advanceTurn, hbusy, hop, hcheck, if_pos]
  cases hs : p.stage with
  | tag want => simp only [takeTurn_tagTurn hbusy hs, parseUnit, hs]
  | body t => rfl
  | done => exact absurd hs hstage

/-- One unit of the parser leaves the outcome of the completion what it was, or is that outcome (R56, R336). -/
theorem decodeMove_parseUnit (s : State) {l : Latched} {p : Parse} (hcheck : rangeCheck l = none)
    (hstage : p.stage ≠ .done) :
    (∃ p', decodeMove l p (parseUnit (l.source s.mem) l.cap.toNat p) s = { s with phase := .busy l (some p') } ∧
      completeDecode l (some p') s = completeDecode l (some p) s) ∨
    decodeMove l p (parseUnit (l.source s.mem) l.cap.toNat p) s = completeDecode l (some p) s := by
  simp only [completeDecode_of_rangeCheck hcheck, parserAt]
  cases hunit : parseUnit (l.source s.mem) l.cap.toNat p with
  | ok p' =>
    obtain ⟨hparse, hknown⟩ := parseAll_of_parseUnit_ok hunit hstage
    exact .inl ⟨p', rfl, by rw [hparse, hknown]⟩
  | error e =>
    rw [parseAll_of_parseUnit_error hunit]
    exact .inr rfl

@[simp] theorem completeDecode_phase (l : Latched) (work : Option Parse) (s : State) :
    (completeDecode l work s).phase = .idle := by
  rcases completeDecode_cases l work s with ⟨e, -, h⟩ | ⟨-, h⟩ <;> simp [h]

/-- What a turn of progress does to a running DECODE: the parser moves on and the completion's outcome stays, or the
turn is the completion. -/
theorem advance_decode {s : State} {l : Latched} {work : Option Parse} (hbusy : s.phase = .busy l work)
    (hop : l.op = opDecode) :
    (∃ p, takeTurn (advanceTurn s) s = .next { s with phase := .busy l (some p) } ∧
      completeDecode l (some p) s = completeDecode l work s) ∨
    takeTurn (advanceTurn s) s = .next (completeDecode l work s) := by
  cases hcheck : rangeCheck l with
  | some e => exact .inr (by simp [advanceTurn, completeDecode, takeTurn, hbusy, hop, hcheck])
  | none =>
    cases work with
    | none => exact .inl ⟨Parse.start, by simp [advanceTurn, takeTurn, hbusy, hop, hcheck], rfl⟩
    | some p =>
      by_cases hstage : p.stage = .done
      · right
        simp only [advanceTurn, hbusy, hop, hcheck, if_pos, hstage]
        exact exec_decode_busy hbusy
      · rw [takeTurn_advanceTurn hbusy hop hcheck hstage]
        rcases decodeMove_parseUnit s hcheck hstage with ⟨p', hmove, hsame⟩ | hmove
        · exact .inl ⟨p', by rw [hmove], hsame⟩
        · exact .inr (by rw [hmove])

/-- Settles O36: a turn of progress moves the parser on or completes, with the outcome either way. -/
theorem decodeProgressIsUnobservable : Obligations.DecodeProgressIsUnobservable := by
  intro s l work rest hinputs hbusy hop
  have hdecode : exec .decode { s with inputs := rest } = .next (completeDecode l work { s with inputs := rest }) :=
    exec_decode_busy hbusy
  rw [step_pending hinputs, inputStep, hdecode]
  rcases advance_decode (s := { s with inputs := rest }) hbusy hop with ⟨p, hturn, hsame⟩ | hturn
  · refine ⟨_, hturn, .inl ⟨p, rfl, ?_⟩⟩
    rw [exec_decode_busy rfl, completeDecode_with_phase l (some p) { s with inputs := rest }, hsame]
  · exact ⟨_, hturn, .inr ⟨completeDecode_phase _ _ _, rfl⟩⟩

/-! #### What a turn keeps -/

theorem Regs.sameOperands_refl (r : Regs) : r.sameOperands r := by
  constructor <;> rfl

theorem Regs.sameOperands_recordErr (r : Regs) (e : Err) : r.sameOperands (r.recordErr e) := by
  constructor <;> rfl

theorem Regs.sameOperands_flagOk (r : Regs) : r.sameOperands r.flagOk := by
  constructor <;> rfl

theorem Regs.sameOperands_recordResults (r : Regs) (v : Results) : r.sameOperands (r.flagOk.recordResults v) := by
  constructor <;> rfl

/-- What a turn of the engine keeps: all that no instruction changes, and the command that runs, unless it ends. -/
structure State.engineMove (s t : State) : Prop where
  around : s.sameAround t
  command : t.phase = .idle ∨ ∃ l work work', s.phase = .busy l work ∧ t.phase = .busy l work'

theorem engineMove_refl (s : State) : s.engineMove s where
  around := ⟨s.regs.sameOperands_refl, rfl, rfl, rfl, rfl⟩
  command := by
    cases hp : s.phase with
    | idle => exact .inl rfl
    | busy l work => exact .inr ⟨l, work, work, rfl, rfl⟩

theorem raise_engineMove (e : Err) (s : State) (m : Memory) (d : Nat) :
    s.engineMove (raise e { s with mem := m, draws := d }) :=
  ⟨⟨s.regs.sameOperands_recordErr e, rfl, rfl, rfl, rfl⟩, .inl rfl⟩

theorem finish_engineMove (s : State) : s.engineMove (finish s) :=
  ⟨⟨s.regs.sameOperands_flagOk, rfl, rfl, rfl, rfl⟩, .inl rfl⟩

theorem finishWith_engineMove (v : Results) (s : State) (m : Memory) (d : Nat) :
    s.engineMove (finishWith v { s with mem := m, draws := d }) :=
  ⟨⟨s.regs.sameOperands_recordResults v, rfl, rfl, rfl, rfl⟩, .inl rfl⟩

theorem settle_engineMove (l : Latched) (f : Effect) (s : State) : s.engineMove (settle l f s) := by
  rcases settle_cases l f s with ⟨-, h⟩ | ⟨v, -, h⟩ | ⟨e, -, h⟩ <;> rw [h]
  · exact raise_engineMove _ s _ _
  · exact finishWith_engineMove v s _ _
  · exact raise_engineMove e s _ _

theorem completeEncode_engineMove (l : Latched) (s : State) : s.engineMove (completeEncode l s) := by
  rcases completeEncode_cases l s with ⟨e, -, h⟩ | ⟨-, h⟩ <;> rw [h]
  · exact raise_engineMove e s s.mem s.draws
  · exact settle_engineMove l _ s

theorem completeDecode_engineMove (l : Latched) (work : Option Parse) (s : State) :
    s.engineMove (completeDecode l work s) := by
  rcases completeDecode_cases l work s with ⟨e, -, h⟩ | ⟨-, h⟩ <;> rw [h]
  · exact raise_engineMove e s s.mem s.draws
  · exact settle_engineMove l _ s

/-- The parser's working state may move on: the command stays the one that runs. -/
theorem working_engineMove {s : State} {l : Latched} {work : Option Parse} (hbusy : s.phase = .busy l work)
    (work' : Option Parse) : s.engineMove { s with phase := .busy l work' } where
  around := ⟨s.regs.sameOperands_refl, rfl, rfl, rfl, rfl⟩
  command := .inr ⟨l, work, work', hbusy, rfl⟩

theorem decodeMove_engineMove {s : State} {l : Latched} {p : Parse} (hbusy : s.phase = .busy l (some p))
    (r : Except Err Parse) : s.engineMove (decodeMove l p r s) := by
  rcases decodeMove_cases l p r s with ⟨p', -, h⟩ | ⟨e, -, h⟩ <;> rw [h]
  · exact working_engineMove hbusy (some p')
  · exact settle_engineMove l _ s

theorem whileBusy_engineMove {s t : State} {f : Latched → Option Parse → State} (h : whileBusy s f = .next t)
    (hf : ∀ l work, s.engineMove (f l work)) : s.engineMove t := by
  rcases whileBusy_cases h with ⟨-, rfl⟩ | ⟨l, work, -, rfl⟩
  · exact engineMove_refl t
  · exact hf l work

theorem seeTag_engineMove {seen : Tag} {s t : State} (h : seeTag seen s = .next t) : s.engineMove t := by
  rcases seeTag_cases seen s with ⟨l, p, want, hbusy, -, h'⟩ | h' <;> rw [h'] at h <;> cases h
  · exact decodeMove_engineMove hbusy _
  · exact engineMove_refl s

theorem exec_engineMove {i : Instr} {s t : State} (h : exec i s = .next t) : s.engineMove t := by
  cases i with
  | nop => exact whileBusy_engineMove h fun _ _ => finish_engineMove s
  | encode => exact whileBusy_engineMove h fun l _ => completeEncode_engineMove l s
  | decode => exact whileBusy_engineMove h fun l work => completeDecode_engineMove l work s
  | tagSSAF | tagChan | tagZre | tagRice | tagData => exact seeTag_engineMove h

theorem takeTurn_engineMove {turn : Turn} {s t : State} (h : takeTurn turn s = .next t)
    (hreach : ∀ s', turn = .reach s' → s.engineMove s') : s.engineMove t := by
  cases turn with
  | run i => exact exec_engineMove h
  | reach s' => cases h; exact hreach t rfl

theorem completeTurn_engineMove {s t : State} (h : takeTurn (completeTurn s) s = .next t) : s.engineMove t := by
  refine takeTurn_engineMove h fun s' hs' => ?_
  rcases completeTurn_cases s with ⟨-, h'⟩ | ⟨l, -, -, ⟨i, -, h'⟩ | ⟨e, -, h'⟩⟩ <;> cases h'.symm.trans hs'
  · exact engineMove_refl s
  · exact raise_engineMove (errIllegal l.op) s s.mem s.draws

theorem advanceTurn_engineMove {s t : State} (h : takeTurn (advanceTurn s) s = .next t) : s.engineMove t := by
  cases hp : s.phase with
  | idle =>
    have hturn : takeTurn (advanceTurn s) s = .next s := by simp [advanceTurn, hp, takeTurn]
    cases hturn.symm.trans h
    exact engineMove_refl s
  | busy l work =>
    by_cases hop : l.op = opDecode
    · rcases advance_decode hp hop with ⟨p, hturn, -⟩ | hturn <;> cases hturn.symm.trans h
      · exact working_engineMove hp (some p)
      · exact completeDecode_engineMove l work s
    · have hturn : takeTurn (advanceTurn s) s = .next s := by simp [advanceTurn, hp, hop, takeTurn]
      cases hturn.symm.trans h
      exact engineMove_refl s

end Sys2Proof.Machine
end

section
/-! ### The latched operands and the operand registers (R52, R53)

An idle engine has nothing latched. A busy engine keeps its latch, and no event writes an operand register while it
is busy; an acceptance latches the registers as they are. -/

namespace Sys2Proof.Machine

theorem latchInv_of_idle {t : State} (h : t.phase = .idle) : t.latchInv := by
  intro l work hbusy
  rw [h] at hbusy
  cases hbusy

/-- A turn of the engine writes no operand register, and ends idle or with the command it had. -/
theorem latchInv_of_engineMove {s t : State} (hs : s.latchInv) (h : s.engineMove t) : t.latchInv := by
  rcases h.command with hidle | ⟨l, work, work', hbusy, hbusy'⟩
  · exact latchInv_of_idle hidle
  · intro l' work'' ht
    cases hbusy'.symm.trans ht
    have hregs := h.around.regs
    rw [hregs.srcAddr, hregs.srcLen, hregs.dstAddr, hregs.dstCap, hregs.sampleRate, hregs.depth, hregs.channels]
    exact hs l work hbusy

/-- An acceptance latches the operand registers, and clears none of them. -/
theorem accept_latchInv (w : Word) (s : State) : (accept w s).latchInv := by
  intro l work h
  cases h
  exact ⟨rfl, rfl, rfl, rfl, rfl, rfl, rfl⟩

theorem lockedWrite_latchInv {s : State} (hs : s.latchInv) (f : Regs → Regs) : (lockedWrite f s).latchInv := by
  rcases lockedWrite_cases f s with ⟨-, h⟩ | ⟨hidle, h⟩ <;> rw [h]
  · exact hs
  · exact latchInv_of_idle hidle

theorem cmdWrite_latchInv {s : State} (hs : s.latchInv) (w : Word) : (cmdWrite w s).latchInv := by
  rcases cmdWrite_cases w s with ⟨-, h⟩ | ⟨-, h⟩ <;> rw [h]
  · exact hs
  · exact accept_latchInv w s

theorem writeReg_latchInv {s : State} (hs : s.latchInv) (v : Word) (r : Reg) : (writeReg s v r).latchInv := by
  cases r with
  | cmd => exact cmdWrite_latchInv hs v
  | srcAddr | srcLen | dstAddr | dstCap | sampleRate | depth | channels => exact lockedWrite_latchInv hs _
  | _ => exact hs

theorem offsetWrite_latchInv {s : State} (hs : s.latchInv) (off : Nat) (v : Word) : (offsetWrite s off v).latchInv := by
  rcases offsetWrite_cases s off v with h | ⟨-, r, -, h⟩ <;> rw [h]
  · exact hs
  · exact writeReg_latchInv hs v r

theorem inputStep_latchInv {i : Input} {s t : State} (hs : s.latchInv) (h : inputStep i s = .next t) : t.latchInv := by
  cases i with
  | regWrite addr size v =>
    rcases busWrite_next h with ⟨-, rfl⟩ | ⟨-, -, -, rfl⟩
    · exact hs
    · exact offsetWrite_latchInv hs _ v
  | regRead addr size => rcases busRead_next h with ⟨-, rfl⟩ | ⟨-, -, -, rfl⟩ <;> exact hs
  | memWrite addr bytes => obtain ⟨-, -, rfl⟩ := hostMemWrite_next h; exact hs
  | memRead addr len => obtain ⟨-, rfl⟩ := hostMemRead_next h; exact hs
  | resetOn => cases h; exact latchInv_of_idle rfl
  | resetOff => cases h; exact hs
  | advance => exact latchInv_of_engineMove hs (advanceTurn_engineMove h)
  | complete => exact latchInv_of_engineMove hs (completeTurn_engineMove h)

/-- Settles O40: the invariant holds after every input and every turn of the engine. -/
theorem latchedOperandsStayEqualToRegisters : Obligations.LatchedOperandsStayEqualToRegisters := by
  intro s t hs h
  rcases step_cases h with ⟨-, hturn⟩ | ⟨i, rest, -, hinput⟩
  · exact latchInv_of_engineMove hs (completeTurn_engineMove hturn)
  · exact inputStep_latchInv (s := { s with inputs := rest }) hs hinput

end Sys2Proof.Machine
end

section
/-! ### The memory's form and the parser under way (R80, R81, R276, R333)

Every operation on memory keeps its canonical form, and leaves unspecified ranges of draws already taken only. What a
command stores lies in the ranges its checks have passed: ENCODE's samples fill its input range and its container fits
the output range; a DECODE stores the channels of a parser that fits the output range. -/

namespace Sys2Proof.Machine

/-! #### Memory -/

/-- The canonical form, with every unspecified range of a draw before `n`. -/
structure Memory.formedBelow (m : Memory) (n : Nat) : Prop where
  wf : m.wf
  draws : ∀ f ∈ m.free, f.draw < n

theorem State.memInv.formed {s : State} (hs : s.memInv) : s.mem.formedBelow s.draws := ⟨hs.wf, hs.draws⟩

theorem Memory.formedBelow.mono {m : Memory} {n n' : Nat} (h : m.formedBelow n) (hn : n ≤ n') : m.formedBelow n' :=
  ⟨h.wf, fun f hf => (h.draws f hf).trans_le hn⟩

theorem writeBytes_formedBelow {m : Memory} {a n : Nat} {bs : List Byte} (h : m.formedBelow n)
    (hspace : a + bs.length ≤ Config.addrTop) : (m.writeBytes a bs).formedBelow n :=
  ⟨writeBytes_wf m a bs h.wf hspace, h.draws⟩

/-- Ranges that become unspecified by new draws keep the form below any draw past these. -/
theorem havocAll_formedBelow {m : Memory} {d n : Nat} {sps : List Span} (h : m.formedBelow d)
    (hn : d + sps.length ≤ n) : (m.havocAll d sps).formedBelow n :=
  ⟨havocAll_wf m d sps h.wf h.draws, havocAll_draws m d n sps (h.mono (by omega)).draws hn⟩

/-- At most two ranges become unspecified when a command is abandoned (R372). -/
theorem looseSpans_length_le (l : Latched) : l.looseSpans.length ≤ 2 := by
  unfold Latched.looseSpans
  split_ifs <;> simp

theorem resetMemory_formedBelow {s : State} (h : s.mem.formedBelow s.draws) :
    (resetMemory s).formedBelow (s.draws + 2) := by
  unfold resetMemory
  cases s.phase with
  | idle => exact h.mono (by omega)
  | busy l work => exact havocAll_formedBelow h (by have := looseSpans_length_le l; omega)

/-! #### What the commands store -/

/-- The samples of an ENCODE's input all lie in its input range, so the dither write-back does (R172). -/
theorem encodeDithered_formedBelow {l : Latched} {m : Memory} {n : Nat} (hl : l.encodable) (h : m.formedBelow n) :
    (encodeDithered l m).formedBelow n := by
  refine ⟨ditherStoreAll_wf m l.layout 0 _ _ h.wf fun j hj i hi => ?_, by simpa [encodeDithered] using h.draws⟩
  have hi : i < l.samples := by rwa [encodeInput_whole l m _ (List.getElem_mem hj)] at hi
  have hj : j < l.channels.toNat := by rwa [encodeInput_length] at hj
  have hend : l.layout.base + l.samples * l.layout.channels * bps l.layout.depth ≤ Config.addrTop := by
    have hfill := encodable_samples hl
    have hsource := hl.source
    simp only [Latched.layout, hfill]
    exact hsource
  exact addr_le_end hi (by rwa [Nat.zero_add]) hend

theorem encodeEffect_formedBelow {l : Latched} {m : Memory} {n : Nat} (hl : l.encodable) (h : m.formedBelow n) :
    (encodeEffect l m).mem.formedBelow n := by
  simp only [encodeEffect]
  split_ifs with hfit
  · exact encodeDithered_formedBelow hl h
  · have htarget := hl.target
    exact writeBytes_formedBelow (encodeDithered_formedBelow hl h) (by simp only [Config.addrTop]; omega)

/-- The channels of a parser that fits the output range are stored inside it (R281). -/
theorem storeChannels_formedBelow {l : Latched} {p : Parse} {m : Memory} {n : Nat} (hl : l.decodable)
    (hp : p.inHeader ∨ p.sound l.cap.toNat) (h : m.formedBelow n) :
    (storeChannels m (p.layout l) 0 p.pcm).formedBelow n := by
  rcases hp with ⟨-, hpcm, -⟩ | hp
  · rwa [hpcm]
  · refine ⟨storeChannels_wf m _ 0 _ h.wf fun j hj i hi => ?_, by simpa using h.draws⟩
    have hi : i < p.samples := by rwa [hp.whole _ (List.getElem_mem hj)] at hi
    have hj : j < p.channels := by have := hp.count; have := hp.chan; omega
    have hend : (p.layout l).base + p.samples * (p.layout l).channels * bps (p.layout l).depth ≤ Config.addrTop := by
      have hfits := hp.fits
      have htarget := hl.target
      simp only [Parse.layout, Config.addrTop]
      omega
    exact addr_le_end hi (by rwa [Nat.zero_add]) hend

theorem decodeEffect_formedBelow {l : Latched} {m : Memory} {n known : Nat} {r : Except Err Parse} (hl : l.decodable)
    (hr : ∀ p, r = .ok p → p.inHeader ∨ p.sound l.cap.toNat) (h : m.formedBelow n) :
    (decodeEffect l m known r).mem.formedBelow n := by
  cases r with
  | ok p => exact storeChannels_formedBelow hl (hr p rfl) h
  | error e => exact h

/-! #### The engine -/

/-- An idle engine has no parser under way. -/
theorem memInv_of_idle {t : State} (hidle : t.phase = .idle) (h : t.mem.formedBelow t.draws) : t.memInv :=
  ⟨h.wf, h.draws, fun l p hbusy => by cases hidle.symm.trans hbusy⟩

theorem raise_memInv {s : State} (hs : s.memInv) (e : Err) : (raise e s).memInv := memInv_of_idle rfl hs.formed

/-- Completion keeps the form where the memory it leaves has it: what becomes unspecified has this completion's draws. -/
theorem settle_memInv {s : State} {l : Latched} {f : Effect} (hs : s.memInv) (hf : f.mem.formedBelow s.draws) :
    (settle l f s).memInv := by
  refine memInv_of_idle (settle_phase l f s) ?_
  rw [settle_draws]
  rcases settle_cases l f s with ⟨-, h⟩ | ⟨v, -, h⟩ | ⟨e, -, h⟩ <;> rw [h]
  · exact havocAll_formedBelow (sps := [l.inSpan, l.outSpan]) hs.formed le_rfl
  · exact hf.mono (by omega)
  · exact havocAll_formedBelow (sps := [l.outSpan]) (hf.mono (by omega)) le_rfl

theorem completeEncode_memInv {s : State} (hs : s.memInv) (l : Latched) : (completeEncode l s).memInv := by
  rcases completeEncode_cases l s with ⟨e, -, h⟩ | ⟨hcheck, h⟩ <;> rw [h]
  · exact raise_memInv hs e
  · exact settle_memInv hs (encodeEffect_formedBelow ((encodeCheck_none_iff l).mp hcheck) hs.formed)

/-- The parser a DECODE goes on with is the one under way, or stands at the start of the header (R56). -/
theorem parserAt_sound {s : State} {l : Latched} {work : Option Parse} (hs : s.memInv)
    (hbusy : s.phase = .busy l work) : (parserAt work).inHeader ∨ (parserAt work).sound l.cap.toNat := by
  cases work with
  | none => exact .inl start_inHeader
  | some p => exact hs.work l p hbusy

theorem completeDecode_memInv {s : State} {l : Latched} {work : Option Parse} (hs : s.memInv)
    (hbusy : s.phase = .busy l work) : (completeDecode l work s).memInv := by
  rcases completeDecode_cases l work s with ⟨e, -, h⟩ | ⟨hcheck, h⟩ <;> rw [h]
  · exact raise_memInv hs e
  · exact settle_memInv hs (decodeEffect_formedBelow ((rangeCheck_none_iff l).mp hcheck)
      (fun p hp => parseAll_sound hp (parserAt_sound hs hbusy)) hs.formed)

/-- A parser that moves on keeps the invariant where its unit gives one that is in the header or sound. -/
theorem decodeMove_memInv {s : State} {l : Latched} {p : Parse} {r : Except Err Parse} (hs : s.memInv)
    (hr : ∀ p', r = .ok p' → p'.inHeader ∨ p'.sound l.cap.toNat) : (decodeMove l p r s).memInv := by
  rcases decodeMove_cases l p r s with ⟨p', hp', h⟩ | ⟨e, -, h⟩ <;> rw [h]
  · refine ⟨hs.wf, hs.draws, fun l' q hbusy => ?_⟩
    cases hbusy
    exact hr p' hp'
  · exact settle_memInv hs hs.formed

/-- The command decoder answers commands only, never a tag (R111). -/
theorem decodeCommand_command {w : Word} {i : Instr} (h : decodeCommand w = .ok i) :
    i = .nop ∨ i = .encode ∨ i = .decode := by
  have hrows : ∀ r ∈ cmdRows, r.instr = .nop ∨ r.instr = .encode ∨ r.instr = .decode := by decide
  unfold decodeCommand at h
  split at h
  · next i' hlookup =>
    cases h
    obtain ⟨r, hmem, -, rfl⟩ := exists_row_of_lookupRow hlookup
    exact hrows r hmem
  · cases h

theorem exec_command_memInv {i : Instr} {s t : State} (hi : i = .nop ∨ i = .encode ∨ i = .decode) (hs : s.memInv)
    (h : exec i s = .next t) : t.memInv := by
  rcases hi with rfl | rfl | rfl <;> rcases whileBusy_cases h with ⟨-, rfl⟩ | ⟨l, work, hbusy, rfl⟩
  · exact hs
  · exact memInv_of_idle rfl hs.formed
  · exact hs
  · exact completeEncode_memInv hs l
  · exact hs
  · exact completeDecode_memInv hs hbusy

theorem completeTurn_memInv {s t : State} (hs : s.memInv) (h : takeTurn (completeTurn s) s = .next t) : t.memInv := by
  rcases completeTurn_cases s with ⟨-, hturn⟩ | ⟨l, -, -, ⟨i, hdecode, hturn⟩ | ⟨e, -, hturn⟩⟩ <;> rw [hturn] at h
  · cases h; exact hs
  · exact exec_command_memInv (decodeCommand_command hdecode) hs h
  · cases h; exact raise_memInv hs _

/-- What a turn of progress can do: nothing, where no DECODE runs; else the error of the range checks, the parser's
start, one unit of the parser, or the completion (R56). -/
theorem advanceTurn_cases {s t : State} (h : takeTurn (advanceTurn s) s = .next t) :
    t = s ∨ ∃ l work, s.phase = .busy l work ∧
      ((∃ e, t = raise e s) ∨ t = { s with phase := .busy l (some Parse.start) } ∨
        (∃ p, work = some p ∧ t = decodeMove l p (parseUnit (l.source s.mem) l.cap.toNat p) s) ∨
        t = completeDecode l work s) := by
  cases hp : s.phase with
  | idle =>
    simp only [advanceTurn, hp, takeTurn] at h
    cases h
    exact .inl rfl
  | busy l work =>
    by_cases hop : l.op = opDecode
    swap
    · simp only [advanceTurn, hp, if_neg hop, takeTurn] at h
      cases h
      exact .inl rfl
    refine .inr ⟨l, work, rfl, ?_⟩
    cases hcheck : rangeCheck l with
    | some e =>
      simp only [advanceTurn, hp, if_pos hop, hcheck, takeTurn] at h
      cases h
      exact .inl ⟨e, rfl⟩
    | none =>
      cases work with
      | none =>
        simp only [advanceTurn, hp, if_pos hop, hcheck, takeTurn] at h
        cases h
        exact .inr (.inl rfl)
      | some p =>
        by_cases hstage : p.stage = .done
        · simp only [advanceTurn, hp, if_pos hop, hcheck, hstage, takeTurn, exec_decode_busy hp] at h
          cases h
          exact .inr (.inr (.inr rfl))
        · cases (takeTurn_advanceTurn hp hop hcheck hstage).symm.trans h
          exact .inr (.inr (.inl ⟨p, rfl, rfl⟩))

theorem advanceTurn_memInv {s t : State} (hs : s.memInv) (h : takeTurn (advanceTurn s) s = .next t) : t.memInv := by
  rcases advanceTurn_cases h with rfl | ⟨l, work, hbusy, ⟨e, rfl⟩ | rfl | ⟨p, rfl, rfl⟩ | rfl⟩
  · exact hs
  · exact raise_memInv hs e
  · refine ⟨hs.wf, hs.draws, fun l' p hbusy' => ?_⟩
    cases hbusy'
    exact .inl start_inHeader
  · exact decodeMove_memInv hs fun p' hunit => parseUnit_sound hunit (hs.work l p hbusy)
  · exact completeDecode_memInv hs hbusy

/-! #### The host -/

theorem writeReg_memInv {s : State} (hs : s.memInv) (v : Word) (r : Reg) : (writeReg s v r).memInv := by
  rcases writeReg_cases s v r with ⟨regs, h⟩ | ⟨-, -, h⟩ <;> rw [h]
  · exact ⟨hs.wf, hs.draws, hs.work⟩
  · exact ⟨hs.wf, hs.draws, fun l p hbusy => by cases hbusy⟩

theorem offsetWrite_memInv {s : State} (hs : s.memInv) (off : Nat) (v : Word) : (offsetWrite s off v).memInv := by
  rcases offsetWrite_cases s off v with h | ⟨-, r, -, h⟩ <;> rw [h]
  · exact hs
  · exact writeReg_memInv hs v r

theorem inputStep_memInv {i : Input} {s t : State} (hs : s.memInv) (h : inputStep i s = .next t) : t.memInv := by
  cases i with
  | regWrite addr size v =>
    rcases busWrite_next h with ⟨-, rfl⟩ | ⟨-, -, -, rfl⟩
    · exact hs
    · exact offsetWrite_memInv hs _ v
  | regRead addr size => rcases busRead_next h with ⟨-, rfl⟩ | ⟨-, -, -, rfl⟩ <;> exact ⟨hs.wf, hs.draws, hs.work⟩
  | memWrite addr bytes =>
    obtain ⟨hspace, -, rfl⟩ := hostMemWrite_next h
    have hmem := writeBytes_formedBelow hs.formed hspace
    exact ⟨hmem.wf, hmem.draws, hs.work⟩
  | memRead addr len =>
    obtain ⟨-, rfl⟩ := hostMemRead_next h
    exact ⟨hs.wf, (hs.formed.mono (Nat.le_succ _)).draws, hs.work⟩
  | resetOn => cases h; exact memInv_of_idle rfl (resetMemory_formedBelow hs.formed)
  | resetOff => cases h; exact ⟨hs.wf, hs.draws, hs.work⟩
  | advance => exact advanceTurn_memInv hs h
  | complete => exact completeTurn_memInv hs h

/-- Settles O43: the invariant holds after every input and every turn of the engine. -/
theorem memoryKeepsItsForm : Obligations.MemoryKeepsItsForm := by
  intro s t hs h
  rcases step_cases h with ⟨-, hturn⟩ | ⟨i, rest, -, hinput⟩
  · exact completeTurn_memInv hs hturn
  · exact inputStep_memInv (s := { s with inputs := rest }) ⟨hs.wf, hs.draws, hs.work⟩ hinput

end Sys2Proof.Machine
end

section
/-! ### The host's memory accesses (R80, R91, R92)

Outside the address space an access faults; inside it a read always answers, and a write answers unless it meets a
range the running command owns. Which ranges these are the latched opcode says: an ENCODE's or DECODE's two, and none
of any other. -/

namespace Sys2Proof.Machine

/-! #### The ranges of the running command -/

/-- A test of the ranges a command owns is a test of its two ranges, for an ENCODE or a DECODE only (R91). -/
theorem spans_any (l : Latched) (f : Span → Bool) :
    l.spans.any f = ((l.op == opEncode || l.op == opDecode) && (f l.inSpan || f l.outSpan)) := by
  have hcommand : (l.op == opEncode || l.op == opDecode) = decide (l.op = opEncode ∨ l.op = opDecode) := by
    simp [beq_eq_decide]
  rw [hcommand, Latched.spans]
  split_ifs with hop <;> simp [hop]

/-- A byte the host cannot rely on is one of the output range of an ENCODE or a DECODE, or of the input range of an
ENCODE that dithers (R92). -/
theorem looseSpans_any_has_iff (l : Latched) (a : Nat) :
    l.looseSpans.any (fun o => o.has a) = true ↔
      ((l.op = opEncode ∨ l.op = opDecode) ∧ l.outSpan.has a) ∨ (l.op = opEncode ∧ l.dither ∧ l.inSpan.has a) := by
  unfold Latched.looseSpans
  split_ifs with hencode hdither hdecode
  · simp [hencode, hdither, or_comm]
  · simp [hencode, hdither]
  · have hne : opDecode ≠ opEncode := by decide
    simp [hdecode, hne]
  · simp [hencode, hdecode]

/-! #### Writes -/

theorem hostMemWrite_outside {addr : Word} {bytes : List Byte} (s : State)
    (h : Config.addrTop < addr.toNat + bytes.length) :
    hostMemWrite addr bytes s = .fault (.noSuchAddress (addr.toNat + bytes.length - 1)) :=
  if_pos h

theorem hostMemWrite_owned {s : State} {addr : Word} {bytes : List Byte}
    (hspace : addr.toNat + bytes.length ≤ Config.addrTop)
    (h : (ownedSpans s).any (fun o => o.overlaps ⟨addr.toNat, bytes.length⟩) = true) :
    hostMemWrite addr bytes s = .refused (.busyRangeWrite addr) :=
  (if_neg (Nat.not_lt.mpr hspace)).trans (if_pos h)

theorem hostMemWrite_free {s : State} {addr : Word} {bytes : List Byte}
    (hspace : addr.toNat + bytes.length ≤ Config.addrTop)
    (h : (ownedSpans s).any (fun o => o.overlaps ⟨addr.toNat, bytes.length⟩) = false) :
    hostMemWrite addr bytes s = .next { s with mem := s.mem.writeBytes addr.toNat bytes } :=
  (if_neg (Nat.not_lt.mpr hspace)).trans (if_neg (by simp [h]))

/-- Settles O17: whether the write meets a range the command owns decides between the refusal and the write. -/
theorem hostWriteIntoRunningRangeIsRefused : Obligations.HostWriteIntoRunningRangeIsRefused := by
  intro s addr bytes rest meets hspace hinputs hmeets
  have howned : (ownedSpans { s with inputs := rest }).any
      (fun o => o.overlaps ⟨addr.toNat, bytes.length⟩) = meets := by
    rw [hmeets]
    cases hp : s.phase with
    | idle => rfl
    | busy l work => exact spans_any l _
  rw [step_pending hinputs, inputStep]
  cases meets with
  | true => exact hostMemWrite_owned hspace howned
  | false =>
    exact ⟨_, hostMemWrite_free hspace howned, rfl, fun i hi => read_writeBytes_of_inside s.mem _ bytes i hi,
      fun a ha => read_writeBytes_of_outside s.mem _ bytes a ha⟩

/-! #### Reads -/

theorem hostMemRead_outside {addr : Word} {len : Nat} (s : State) (h : Config.addrTop < addr.toNat + len) :
    hostMemRead addr len s = .fault (.noSuchAddress (addr.toNat + len - 1)) :=
  if_pos h

theorem hostMemRead_inside {addr : Word} {len : Nat} (s : State) (h : addr.toNat + len ≤ Config.addrTop) :
    hostMemRead addr len s =
      .next { s with response := .mem (hostBytes s addr.toNat len), draws := s.draws + 1 } :=
  if_neg (Nat.not_lt.mpr h)

theorem hostByte_inputs (s : State) (rest : List Input) (a : Nat) :
    hostByte { s with inputs := rest } a = hostByte s a :=
  rfl

theorem hostByte_idle {s : State} (h : s.phase = .idle) (a : Nat) : hostByte s a = s.mem.read a := by
  simp [hostByte, looseSpans, h]

theorem hostByte_busy {s : State} {l : Latched} {work : Option Parse} (h : s.phase = .busy l work) (a : Nat) :
    hostByte s a =
      if ((l.op = opEncode ∨ l.op = opDecode) ∧ l.outSpan.has a) ∨ (l.op = opEncode ∧ l.dither ∧ l.inSpan.has a) then
        Config.freeByte s.draws a
      else s.mem.read a := by
  simp only [hostByte, looseSpans, h, looseSpans_any_has_iff]

/-- Settles O18: each byte is the one the host reads there, and the read takes one draw. -/
theorem hostReadWhileRunning : Obligations.HostReadWhileRunning := by
  intro s addr len rest hspace hinputs
  rw [step_pending hinputs, inputStep]
  refine ⟨_, _, hostMemRead_inside _ hspace, rfl, Nat.lt_succ_self _, hostBytes_length _ _ _, fun i hi => ?_⟩
  rw [hostBytes_getElem, hostByte_inputs]
  cases hp : s.phase with
  | idle => exact hostByte_idle hp _
  | busy l work => exact hostByte_busy hp _

/-- Settles O19: the address space is checked before anything else. -/
theorem hostAccessOutsideTheSpaceFaults : Obligations.HostAccessOutsideTheSpaceFaults := by
  intro s addr bytes len rest
  refine ⟨fun hspace hinputs => ?_, fun hspace hinputs => ?_⟩
  · rw [step_pending hinputs]
    exact hostMemWrite_outside _ hspace
  · rw [step_pending hinputs]
    exact hostMemRead_outside _ hspace

end Sys2Proof.Machine
end

section
/-! ### Command words, and the bytes of every instruction (R82, R110 to R113)

A command word is read by its low byte alone. No tag's low byte is an opcode, so a word that begins with one is a
command, whatever its ignored bits. -/

namespace Sys2Proof

/-! #### Words and their bytes -/

/-- A word's four bytes, lowest first, make the word again (R82). -/
theorem wordOfBytes_extract (w : Word) :
    wordOfBytes (w.extractLsb' 0 8) (w.extractLsb' 8 8) (w.extractLsb' 16 8) (w.extractLsb' 24 8) = w := by
  have h24 : w.extractLsb' 24 8 ++ w.extractLsb' 16 8 = w.extractLsb' 16 16 :=
    BitVec.extractLsb'_append_extractLsb'_eq_extractLsb' rfl
  have h16 : w.extractLsb' 16 16 ++ w.extractLsb' 8 8 = w.extractLsb' 8 24 :=
    BitVec.extractLsb'_append_extractLsb'_eq_extractLsb' rfl
  have h8 : w.extractLsb' 8 24 ++ w.extractLsb' 0 8 = w.extractLsb' 0 32 :=
    BitVec.extractLsb'_append_extractLsb'_eq_extractLsb' rfl
  rw [wordOfBytes, h24, h16, h8, BitVec.extractLsb'_eq_self]

/-- The first byte in memory order is the low byte of the word (R82). -/
theorem lowByte_wordOfBytes (b0 b1 b2 b3 : Byte) : (wordOfBytes b0 b1 b2 b3).extractLsb' 0 8 = b0 :=
  BitVec.extractLsb'_append_eq_right

/-- An opcode is the low byte of the word it widens to. -/
theorem lowByte_setWidth (op : Byte) : (op.setWidth 32).extractLsb' 0 8 = op := by
  rw [BitVec.extractLsb'_setWidth_of_le (by decide), BitVec.extractLsb'_eq_self]

/-- The decoder reads the four bytes of a word as that word, whatever follows them. -/
theorem decodeBytes_bytesOfWord_append (w : Word) (rest : List Byte) :
    decodeBytes (bytesOfWord w ++ rest) = decodeWord w :=
  congrArg decodeWord (wordOfBytes_extract w)

/-! #### The command table -/

/-- The opcode mask keeps the low byte (R110). -/
theorem and_opcodeMask (w : Word) : w &&& 0x000000FF#32 = (w.extractLsb' 0 8).setWidth 32 := by
  have hmod : w.toNat &&& 0xFF = w.toNat % 2 ^ 8 := Nat.and_two_pow_sub_one_eq_mod _ 8
  have hlt : w.toNat % 2 ^ 8 < 2 ^ 32 := by omega
  apply BitVec.eq_of_toNat_eq
  rw [← BitVec.setWidth_eq_extractLsb' (by decide), BitVec.toNat_and, BitVec.toNat_setWidth, BitVec.toNat_setWidth,
    Nat.mod_eq_of_lt hlt]
  exact hmod

/-- A row with the opcode mask and an opcode as pattern holds of the words with that low byte. -/
theorem Row.holds_opcode_iff (op : Byte) (i : Instr) (w : Word) :
    Row.holds ⟨0x000000FF#32, op.setWidth 32, i⟩ w = true ↔ w.extractLsb' 0 8 = op := by
  rw [Row.holds, and_opcodeMask, beq_iff_eq]
  exact ⟨fun h => by rw [← lowByte_setWidth (w.extractLsb' 0 8), h, lowByte_setWidth], congrArg _⟩

theorem lookupRow_cons (r : Row) (rows : List Row) (w : Word) :
    lookupRow (r :: rows) w = if r.holds w then some r.instr else lookupRow rows w := by
  unfold lookupRow
  cases h : r.holds w <;> simp [h]

/-- The command table, row by row, as a test of the low byte (R110, R111). -/
theorem lookupRow_cmdRows (w : Word) :
    lookupRow cmdRows w =
      if w.extractLsb' 0 8 = 0x00#8 then some .nop
      else if w.extractLsb' 0 8 = 0x01#8 then some .encode
      else if w.extractLsb' 0 8 = 0x02#8 then some .decode
      else none := by
  have hrows : cmdRows =
      [⟨0x000000FF#32, (0x00#8).setWidth 32, .nop⟩, ⟨0x000000FF#32, (0x01#8).setWidth 32, .encode⟩,
        ⟨0x000000FF#32, (0x02#8).setWidth 32, .decode⟩] := rfl
  simp only [hrows, lookupRow_cons, Row.holds_opcode_iff]
  rfl

/-- What the command decoder answers, by the low byte (R110 to R112). -/
theorem decodeCommand_eq (w : Word) :
    decodeCommand w =
      if w.extractLsb' 0 8 = 0x00#8 then .ok .nop
      else if w.extractLsb' 0 8 = 0x01#8 then .ok .encode
      else if w.extractLsb' 0 8 = 0x02#8 then .ok .decode
      else .error (.illegalOpcode (w.extractLsb' 0 8)) := by
  rw [decodeCommand, lookupRow_cmdRows]
  split_ifs <;> rfl

/-- Words with the same low byte are the same command (R110). -/
theorem decodeCommand_congr {w w' : Word} (h : w.extractLsb' 0 8 = w'.extractLsb' 0 8) :
    decodeCommand w = decodeCommand w' := by
  rw [decodeCommand_eq, decodeCommand_eq, h]

/-- Settles O5: every row of the command table masks all but the low byte. -/
theorem commandDecodingReadsTheLowByte : Obligations.CommandDecodingReadsTheLowByte := by
  refine ⟨decodeCommand_eq, fun w => decodeCommand_congr ?_, rfl, rfl⟩
  rw [and_opcodeMask, lowByte_setWidth]

/-! #### Commands among the words of both tables -/

/-- The low byte of a tag's word is an ASCII letter, above every opcode (R15, R111). -/
theorem lt_lowByte_of_tag {i : Instr} (h : (tagOf i).isSome = true) : 0x02#8 < (encode i).extractLsb' 0 8 := by
  cases i with
  | nop | encode | decode => cases h
  | tagSSAF | tagChan | tagZre | tagRice | tagData => decide

/-- A word whose low byte is an opcode is a command and no tag, whatever its ignored bits (R111). -/
theorem decodeWord_of_opcode {w : Word} (hop : w.extractLsb' 0 8 ≤ 0x02#8) : decodeWord w = decodeCommand w := by
  unfold decodeWord
  cases htag : decodeTag w with
  | error e => rfl
  | ok i =>
    obtain ⟨hi, rfl⟩ := decodeTag_sound htag
    exact absurd (lt_lowByte_of_tag hi) (BitVec.not_lt.mpr hop)

theorem decodeWord_of_tag {w : Word} {i : Instr} (h : decodeTag w = .ok i) : decodeWord w = .ok i := by
  rw [decodeWord, h]

/-- Four bytes of which the first is an opcode are that command, whatever the others (R110, R111). -/
theorem decodeBytes_of_opcode {op : Byte} (hop : op ≤ 0x02#8) (b1 b2 b3 : Byte) (rest : List Byte) :
    decodeBytes (op :: b1 :: b2 :: b3 :: rest) = decodeCommand (op.setWidth 32) := by
  have hlow : (wordOfBytes op b1 b2 b3).extractLsb' 0 8 = op := lowByte_wordOfBytes op b1 b2 b3
  calc decodeBytes (op :: b1 :: b2 :: b3 :: rest)
    _ = decodeWord (wordOfBytes op b1 b2 b3) := rfl
    _ = decodeCommand (wordOfBytes op b1 b2 b3) := decodeWord_of_opcode (hlow.symm ▸ hop)
    _ = decodeCommand (op.setWidth 32) := decodeCommand_congr (hlow.trans (lowByte_setWidth op).symm)

/-- The word of every instruction decodes to it, tag or command. -/
theorem decodeWord_encode (i : Instr) : decodeWord (encode i) = .ok i := by
  cases i with
  | nop | encode | decode => exact decodeWord_of_opcode (by decide)
  | tagSSAF | tagChan | tagZre | tagRice | tagData => exact decodeWord_of_tag (decodeTag_encode rfl)

/-- Settles O4: the bytes make the instruction's word again, and its word decodes to it. -/
theorem decodeInvertsEncode : Obligations.DecodeInvertsEncode := by
  intro i rest _
  rw [encodeBytes, decodeBytes_bytesOfWord_append, decodeWord_encode]

/-- Settles O7: the three command words by their first byte, the two tags as their instructions' bytes. -/
theorem writtenWordsDecode : Obligations.WrittenWordsDecode :=
  ⟨decodeBytes_of_opcode (by decide) _ _ _ _, decodeBytes_of_opcode (by decide) _ _ _ _,
    decodeBytes_of_opcode (by decide) _ _ _ _, decodeInvertsEncode .tagSSAF [] rfl,
    decodeInvertsEncode .tagZre [] rfl⟩

end Sys2Proof
end

section
/-! ### The bytes of a container (R116 to R120, R250, R270 to R275)

The length of each part of the container is said once, and the container's length is their sum. -/

namespace Sys2Proof.Machine

/-- Digit `i` to base 256 of a number is byte `i` of its little-endian bytes (R82, R270). -/
theorem leBytes_eq_map_range (w v : Nat) :
    leBytes w v = (List.range w).map (fun i => BitVec.ofNat 8 (v / 256 ^ i)) := by
  induction w generalizing v with
  | zero => rfl
  | succ w ih =>
    have hdigit : ∀ i, v / 256 / 256 ^ i = v / 256 ^ (i + 1) := fun i => by
      rw [Nat.div_div_eq_div_mul, pow_succ']
    simp [leBytes, ih, hdigit, List.range_succ_eq_map, Function.comp_def]

/-! #### Lengths -/

/-- With `k` bits gathered, the packer fills the bytes that these and the bits to come take (R250). -/
theorem packFrom_length (bits : List Bool) {k : Nat} (hk : k < 8) (acc : Nat) :
    (packFrom k acc bits).length = (k + bits.length + 7) / 8 := by
  induction bits generalizing k acc with
  | nil =>
    by_cases h0 : k = 0
    · simp [packFrom, h0]
    · simp [packFrom, h0]; omega
  | cons b bits ih =>
    by_cases h7 : k = 7
    · simp [packFrom, h7, ih]; omega
    · simp [packFrom, h7, ih (show k + 1 < 8 by omega)]; omega

@[simp] theorem pack_length (bits : List Bool) : (pack bits).length = (bits.length + 7) / 8 := by
  rw [pack, packFrom_length bits (by decide), Nat.zero_add]

@[simp] theorem tagBytes_length (t : Tag) : (tagBytes t).length = 4 := by
  cases t <;> rfl

@[simp] theorem runBytes_length (d : Run) : (runBytes d).length = 8 := by simp [runBytes]

@[simp] theorem headerBytes_length (rate d n c : Nat) : (headerBytes rate d n c).length = 15 := by simp [headerBytes]

@[simp] theorem chanChunk_length (n : Nat) : (chanChunk n).length = 8 := by simp [chanChunk]

@[simp] theorem zreChunk_length (ds : List Run) : (zreChunk ds).length = 8 + 8 * ds.length := by
  simp [zreChunk, List.length_flatMap]; omega

@[simp] theorem riceChunk_length (ks : List Nat) : (riceChunk ks).length = 8 + 4 * ks.length := by
  simp [riceChunk, List.length_flatMap]; omega

@[simp] theorem dataChunk_length (bits : List Bool) : (dataChunk bits).length = 4 + (bits.length + 7) / 8 := by
  simp [dataChunk]

/-- One parameter for each block of 4096 values, the last block perhaps shorter (R220, R225). -/
@[simp] theorem riceParams_length (q : List Int) : (riceParams q).length = (q.length + 4095) / 4096 := by
  simp [riceParams, blocksOf, blockCount, ceilDiv, Config.block]

/-- The four chunks of a channel take 28 bytes besides descriptors, parameters and data (R117 to R120). -/
theorem channelBytes_length (x : List Int) :
    (channelBytes x).length =
      28 + 8 * (zreEnc (predEnc x)).2.length + 4 * (((zreEnc (predEnc x)).1.length + 4095) / 4096) +
        ((riceBits (zreEnc (predEnc x)).1).length + 7) / 8 := by
  simp [channelBytes]; omega

theorem containerBytes_length (xs : List (List Int)) (rate d c n : Nat) :
    (containerBytes xs rate d c n).length = 15 + (xs.map (fun x => (channelBytes x).length)).sum := by
  simp [containerBytes, List.length_flatMap]

/-! #### Contents -/

/-- The header field by field (R116, R271). -/
theorem headerBytes_eq (rate d n c : Nat) :
    headerBytes rate d n c =
      [0x53#8, 0x53#8, 0x41#8, 0x46#8] ++ leBytes 4 rate ++ leBytes 1 d ++ leBytes 4 n ++ leBytes 2 c := by
  simp only [headerBytes, tagBytes, List.append_assoc]

/-- The four chunks of a channel field by field (R117 to R120, R272 to R275). -/
theorem channelBytes_eq (x : List Int) :
    channelBytes x =
      [0x63#8, 0x68#8, 0x61#8, 0x6E#8] ++ leBytes 4 (zreEnc (predEnc x)).1.length ++
      [0x7A#8, 0x72#8, 0x65#8, 0x20#8] ++ leBytes 4 (zreEnc (predEnc x)).2.length ++
      ((zreEnc (predEnc x)).2.map (fun r => leBytes 4 r.start ++ leBytes 4 r.len)).flatten ++
      [0x72#8, 0x69#8, 0x63#8, 0x65#8] ++ leBytes 4 (riceParams (zreEnc (predEnc x)).1).length ++
      ((riceParams (zreEnc (predEnc x)).1).map (leBytes 4)).flatten ++
      [0x64#8, 0x61#8, 0x74#8, 0x61#8] ++ pack (riceBits (zreEnc (predEnc x)).1) := by
  have hruns : runBytes = fun r => leBytes 4 r.start ++ leBytes 4 r.len := funext fun _ => rfl
  simp only [channelBytes, chanChunk, zreChunk, riceChunk, dataChunk, tagBytes, hruns, List.flatMap_def,
    List.append_assoc]

/-- Settles O57: the length is the header's and the channels'; the bytes are theirs, field by field. -/
theorem containerLength : Obligations.ContainerLength := by
  refine ⟨fun xs rate d n => ?_, fun xs rate d c n => ?_, leBytes_eq_map_range⟩
  · simp only [containerBytes_length, channelBytes_length]
  · rw [containerBytes, headerBytes_eq, List.flatMap_def, funext channelBytes_eq]

end Sys2Proof.Machine
end

section
/-! ### Sample access (R13, R82, R150, R151, R153, R154)

A sample is stored as its residue modulo 2^depth. `sext` is the balanced residue, so it finds again every value of
the depth's signed range. -/

namespace Sys2Proof.Machine

/-! #### Numbers in memory -/

/-- The byte at the lowest address is the lowest digit to base 256 (R13, R82). -/
theorem readNat_succ (m : Memory) (a w : Nat) :
    m.readNat a (w + 1) = (m.read a).toNat + 256 * m.readNat (a + 1) w := rfl

/-- A number in memory is the sum of its bytes times powers of 256, the lowest address first (R13, R82). -/
theorem readNat_eq_sum (m : Memory) (a w : Nat) :
    m.readNat a w = ((List.range w).map (fun i => (m.read (a + i)).toNat * 256 ^ i)).sum := by
  induction w generalizing a with
  | zero => rfl
  | succ w ih =>
    have hdigit : ∀ i, (m.read (a + (i + 1))).toNat * 256 ^ (i + 1) =
        256 * ((m.read (a + 1 + i)).toNat * 256 ^ i) := fun i => by
      rw [Nat.add_right_comm, Nat.add_assoc, pow_succ', Nat.mul_left_comm]
    simp [readNat_succ, ih, List.range_succ_eq_map, Function.comp_def, hdigit, List.sum_map_mul_left]

/-! #### Two's complement -/

/-- Sign extension is the balanced residue modulo 2^n (R11). -/
theorem sext_eq_bmod {n : Nat} (hn : 0 < n) (v : Int) : sext n v = Int.bmod v (2 ^ n) := by
  obtain ⟨k, rfl⟩ := Nat.exists_eq_add_one_of_ne_zero hn.ne'
  simp only [sext, Int.bmod, Nat.add_sub_cancel, pow_succ, Nat.cast_mul, Nat.cast_pow, Nat.cast_ofNat]
  split <;> split <;> omega

theorem sampleFits_iff (d : Nat) (v : Int) :
    sampleFits d v = true ↔ -(2 : Int) ^ (d - 1) ≤ v ∧ v ≤ (2 : Int) ^ (d - 1) - 1 := by
  simp only [sampleFits, Bool.and_eq_true, decide_eq_true_eq, Int.le_sub_one_iff]

/-- A value of the depth's signed range is found again from its residue (R153, R154). -/
theorem sext_emod_of_sampleFits {d : Nat} (hd : 0 < d) {v : Int} (hv : sampleFits d v = true) :
    sext d (v % (2 : Int) ^ d) = v := by
  obtain ⟨hlo, hhi⟩ := (sampleFits_iff d v).mp hv
  have hpow : ((2 ^ d : Nat) : Int) = 2 * (2 : Int) ^ (d - 1) := by
    rw [mul_pow_sub_one hd.ne', Nat.cast_pow, Nat.cast_ofNat]
  calc sext d (v % (2 : Int) ^ d)
    _ = Int.bmod (v % ((2 ^ d : Nat) : Int)) (2 ^ d) := by rw [sext_eq_bmod hd, Nat.cast_pow, Nat.cast_ofNat]
    _ = Int.bmod v (2 ^ d) := Int.emod_bmod v (2 ^ d)
    _ = v := Int.bmod_eq_of_le_mul_two (by omega) (by omega)

/-! #### One sample -/

/-- A sample of a supported depth fills its bytes exactly (R150). -/
theorem pow_bps_of_supported {d : Nat} (hd : d ∈ [8, 16, 24, 32]) : 256 ^ bps d = 2 ^ d := by
  have hdvd : ∀ d ∈ [8, 16, 24, 32], 8 * bps d = d := by decide
  rw [show 256 = 2 ^ 8 from rfl, ← pow_mul, hdvd d hd]

/-- The number a stored sample leaves at its place is its two's complement pattern (R154). -/
theorem readNat_storeSample (m : Memory) {y : Layout} (hd : y.depth ∈ [8, 16, 24, 32]) (s c : Nat) (v : Int) :
    ((storeSample m y s c v).readNat (y.addr s c) (bps y.depth) : Int) = v % (2 : Int) ^ y.depth := by
  have hpos : (0 : Int) < 2 ^ y.depth := by positivity
  have hcast : ((v % (2 : Int) ^ y.depth).toNat : Int) = v % (2 : Int) ^ y.depth :=
    Int.toNat_of_nonneg (Int.emod_nonneg v hpos.ne')
  rw [storeSample, sampleBytes, readNat_writeBytes_leBytes, pow_bps_of_supported hd, Int.natCast_emod, hcast,
    Nat.cast_pow, Nat.cast_ofNat, Int.emod_emod]

/-- A stored sample in the depth's range reads back (R153, R154; at depth 24 by R153's pseudocode, log entry 23). -/
theorem readSample_storeSample_same (m : Memory) {y : Layout} (hd : y.depth ∈ [8, 16, 24, 32]) (s c : Nat) {v : Int}
    (hv : sampleFits y.depth v = true) : readSample (storeSample m y s c v) y s c = v := by
  have hpos : ∀ d ∈ [8, 16, 24, 32], 0 < d := by decide
  rw [readSample, readNat_storeSample m hd, sext_emod_of_sampleFits (hpos _ hd) hv]

theorem writeSample_of_fits (m : Memory) (y : Layout) (s c : Nat) {v : Int} (hv : sampleFits y.depth v = true) :
    writeSample m y s c v = .ok (storeSample m y s c v) := if_pos hv

theorem writeSample_of_misfit (m : Memory) (y : Layout) (s c : Nat) {v : Int} (hv : ¬ sampleFits y.depth v = true) :
    writeSample m y s c v = .error (errRange s c) := if_neg hv

/-- Settles O59: a value that fits is stored as its residue, of which `sext` finds it again; one that does not fit
raises RANGE with nothing stored. -/
theorem sampleWriteThenRead : Obligations.SampleWriteThenRead := by
  refine ⟨fun m y n c v hd => ⟨fun hin => ?_, fun hout => ?_⟩, fun _ _ _ => rfl, readNat_eq_sum⟩
  · have hv : sampleFits y.depth v = true := (sampleFits_iff _ _).mpr hin
    exact ⟨storeSample m y n c v, writeSample_of_fits m y n c hv, readSample_storeSample_same m hd n c hv,
      readNat_storeSample m hd n c v, read_storeSample_of_outside m y n c v⟩
  · have hv : ¬ sampleFits y.depth v = true := by
      rw [sampleFits_iff]
      omega
    exact writeSample_of_misfit m y n c hv

end Sys2Proof.Machine
end

section
/-! ### The dither filter (R170, R173)

Zeroing a sample keeps it near-silent, and the filter looks at a left neighbour only to ask whether it is near-silent.
So the pass may as well look at the sequence as it was, and the first-two rule is the interior rule after a silent
sample. -/

namespace Sys2Proof.Machine

/-- Sequences of one length that agree at every index, read with a default, are equal. -/
theorem ext_getD {x z : List Int} (hlen : x.length = z.length) (h : ∀ i < x.length, x.getD i 0 = z.getD i 0) :
    x = z := by
  refine List.ext_getElem hlen fun i hx hz => ?_
  rw [← List.getD_eq_getElem x 0 hx, ← List.getD_eq_getElem z 0 hz, h i hx]

@[simp] theorem nearSilent_zero : nearSilent 0 = true := rfl

theorem nearSilent_iff (v : Int) : nearSilent v = true ↔ v.natAbs < 4 := decide_eq_true_iff

/-- What a left neighbour is, beyond near-silent or not, makes no difference. -/
theorem ditherFrom_congr_left {left left' : Int} (h : nearSilent left = nearSilent left') (x : List Int) :
    ditherFrom left x = ditherFrom left' x := by
  match x with
  | [] => rfl
  | [_] => rfl
  | _ :: _ :: _ => simp only [ditherFrom, h]

/-- The interior rule at its first sample, the rest judged by that sample as it was (R173). -/
theorem ditherFrom_cons_cons (left cur right : Int) (rest : List Int) :
    ditherFrom left (cur :: right :: rest) =
      (if nearSilent left ∧ nearSilent cur ∧ nearSilent right then 0 else cur) ::
        ditherFrom cur (right :: rest) := by
  simp only [ditherFrom]
  by_cases hquiet : nearSilent left ∧ nearSilent cur ∧ nearSilent right
  · by_cases hcur : cur = 0
    · simp [hcur]
    · have ⟨_, hcurQuiet, _⟩ := hquiet
      have hkeep : nearSilent 0 = nearSilent cur := hcurQuiet.symm
      rw [if_pos ⟨hcur, hquiet⟩, if_pos hquiet, ditherFrom_congr_left hkeep]
  · rw [if_neg fun h => hquiet h.2, if_neg hquiet]

/-- The first-two rule is the interior rule after a silent sample. -/
theorem ditherChannel_eq_ditherFrom (x : List Int) : ditherChannel x = ditherFrom 0 x := by
  match x with
  | [] => rfl
  | [_] => rfl
  | x0 :: x1 :: rest =>
    have htail : ditherFrom (if nearSilent x0 ∧ nearSilent x1 then 0 else x0) (x1 :: rest) =
        ditherFrom x0 (x1 :: rest) := by
      apply ditherFrom_congr_left
      split_ifs with h
      · exact h.1.symm
      · rfl
    simp only [ditherChannel, htail, ditherFrom_cons_cons, nearSilent_zero, true_and]

/-- The condition under which the filter leaves 0 at index `i`, on the sequence as it was: not the last sample, and it
and both neighbours near-silent (R173). -/
def quietAt (left : Int) (x : List Int) (i : Nat) : Bool :=
  decide (i + 1 < x.length) && nearSilent ((left :: x).getD i 0) && nearSilent (x.getD i 0) &&
    nearSilent (x.getD (i + 1) 0)

theorem quietAt_iff (left : Int) (x : List Int) (i : Nat) :
    quietAt left x i = true ↔ i + 1 < x.length ∧ ((left :: x).getD i 0).natAbs < 4 ∧ (x.getD i 0).natAbs < 4 ∧
      (x.getD (i + 1) 0).natAbs < 4 := by
  simp only [quietAt, Bool.and_eq_true, decide_eq_true_eq, nearSilent_iff, and_assoc]

/-- The filter index by index, on the sequence as it was (R173). -/
theorem ditherFrom_getD (left : Int) (x : List Int) (i : Nat) :
    (ditherFrom left x).getD i 0 = if quietAt left x i then 0 else x.getD i 0 := by
  induction x generalizing left i with
  | nil => simp [ditherFrom]
  | cons cur xs ih =>
    cases xs with
    | nil => simp [ditherFrom, quietAt]
    | cons right rest =>
      rw [ditherFrom_cons_cons]
      cases i with
      | zero => simp [quietAt, and_assoc]
      | succ i =>
        have hshift : quietAt left (cur :: right :: rest) (i + 1) = quietAt cur (right :: rest) i := by
          simp [quietAt]
        rw [hshift, List.getD_cons_succ, List.getD_cons_succ, ih]

theorem ditherChannel_getD (x : List Int) (i : Nat) :
    (ditherChannel x).getD i 0 = if quietAt 0 x i then 0 else x.getD i 0 := by
  rw [ditherChannel_eq_ditherFrom, ditherFrom_getD]

/-- The filter keeps each sample near-silent or not. -/
theorem nearSilent_ditherChannel_getD (x : List Int) (i : Nat) :
    nearSilent ((ditherChannel x).getD i 0) = nearSilent (x.getD i 0) := by
  rw [ditherChannel_getD]
  split_ifs with h
  · obtain ⟨-, -, hquiet, -⟩ := (quietAt_iff 0 x i).mp h
    rw [nearSilent_zero, (nearSilent_iff _).mpr hquiet]
  · rfl

/-- So the condition reads the same on the filtered sequence. -/
theorem quietAt_ditherChannel (x : List Int) (i : Nat) : quietAt 0 (ditherChannel x) i = quietAt 0 x i := by
  cases i with
  | zero => simp only [quietAt, ditherChannel_length, nearSilent_ditherChannel_getD, List.getD_cons_zero]
  | succ i => simp only [quietAt, ditherChannel_length, nearSilent_ditherChannel_getD, List.getD_cons_succ]

theorem ditherChannel_idempotent (x : List Int) : ditherChannel (ditherChannel x) = ditherChannel x := by
  refine ext_getD (by simp) fun i _ => ?_
  rw [ditherChannel_getD, quietAt_ditherChannel, ditherChannel_getD]
  split_ifs <;> rfl

/-- Settles O46, by the filter index by index: at index 0 the left neighbour is the silent one. -/
theorem ditherOrderIndependence : Obligations.DitherOrderIndependence := by
  refine fun x => ⟨ditherChannel_length x, fun i hi => ?_, ditherChannel_idempotent x⟩
  simp only [ditherChannel_getD, quietAt_iff]
  cases i with
  | zero =>
    have htwo : 0 + 1 < x.length ↔ 2 ≤ x.length := Iff.rfl
    simp only [htwo, List.getD_cons_zero, Int.natAbs_zero, Nat.zero_lt_succ, true_and, Nat.zero_add, if_true]
  | succ i =>
    have hthree : i + 1 + 1 < x.length ↔ i + 1 + 2 ≤ x.length := Iff.rfl
    simp only [hthree, List.getD_cons_succ, Nat.add_sub_cancel, Nat.succ_ne_zero, if_false]
    by_cases hinterior : i + 1 + 2 ≤ x.length
    · by_cases hzero : x.getD (i + 1) 0 = 0
      · simp only [hzero, ite_self, true_or]
      · simp only [hinterior, hzero, true_and, false_or, if_true]
    · simp only [hinterior, false_and, if_false]

end Sys2Proof.Machine
end

section
/-! ### The dither write-back (R171, R172)

Two samples of a buffer share no byte, so a byte of a sample is decided by that sample's own turn of the write-back,
and that turn stores nothing where the filter changed nothing. What it stores else is 0, which every depth holds. -/

namespace Sys2Proof.Machine

/-! #### One sample's turn -/

/-- The memory after the write-back's turn at one sample: `a` as read, `b` as the filter left it (R172). -/
def storeChanged (m : Memory) (y : Layout) (s c : Nat) (a b : Int) : Memory :=
  if a = b then m else storeSample m y s c b

theorem ditherStore_cons (m : Memory) (y : Layout) (c s : Nat) (a b : Int) (as bs : List Int) :
    ditherStore m y c s (a :: as) (b :: bs) = ditherStore (storeChanged m y s c a b) y c (s + 1) as bs := rfl

@[simp] theorem storeChanged_self (m : Memory) (y : Layout) (s c : Nat) (a : Int) : storeChanged m y s c a a = m :=
  if_pos rfl

theorem read_storeChanged_of_outside (m : Memory) (y : Layout) (s c : Nat) (a b : Int) (x : Nat)
    (h : x < y.addr s c ∨ y.addr s c + bps y.depth ≤ x) : (storeChanged m y s c a b).read x = m.read x := by
  unfold storeChanged
  split_ifs
  · rfl
  · exact read_storeSample_of_outside m y s c b x h

/-- What a stored sample's bytes are does not depend on the memory it is stored to. -/
theorem read_storeChanged_congr {m m' : Memory} {y : Layout} {s c k : Nat} (a b : Int) (hk : k < bps y.depth)
    (h : m.read (y.addr s c + k) = m'.read (y.addr s c + k)) :
    (storeChanged m y s c a b).read (y.addr s c + k) = (storeChanged m' y s c a b).read (y.addr s c + k) := by
  have hlen : k < (sampleBytes y.depth b).length := by rwa [sampleBytes_length]
  unfold storeChanged
  split_ifs
  · exact h
  · rw [storeSample, storeSample, read_writeBytes_of_inside m _ _ k hlen, read_writeBytes_of_inside m' _ _ k hlen]

/-- A sample is decided by its own bytes. -/
theorem readSample_congr {m m' : Memory} {y : Layout} {s c : Nat}
    (h : ∀ k < bps y.depth, m.read (y.addr s c + k) = m'.read (y.addr s c + k)) :
    readSample m y s c = readSample m' y s c := by
  rw [readSample, readSample, readNat_congr m m' _ _ h]

/-- A changed sample reads as the filter left it, an unchanged one as before. -/
theorem readSample_storeChanged (m : Memory) {y : Layout} (hd : y.depth ∈ [8, 16, 24, 32]) (s c : Nat) {b : Int}
    (hb : readSample m y s c ≠ b → sampleFits y.depth b = true) :
    readSample (storeChanged m y s c (readSample m y s c) b) y s c = b := by
  unfold storeChanged
  split_ifs with hkept
  · exact hkept
  · exact readSample_storeSample_same m hd s c (hb hkept)

theorem sampleFits_zero (d : Nat) : sampleFits d 0 = true := by
  have hpos : (0 : Int) < 2 ^ (d - 1) := by positivity
  rw [sampleFits_iff]
  omega

theorem ditherChannel_getD_of_changed {x : List Int} {i : Nat} (h : x.getD i 0 ≠ (ditherChannel x).getD i 0) :
    (ditherChannel x).getD i 0 = 0 := by
  rw [ditherChannel_getD] at h ⊢
  split_ifs at h ⊢
  · rfl
  · exact absurd rfl h

/-! #### Every sample's turn -/

/-- A byte of one sample lies outside every other sample of the buffer (R151). -/
theorem addr_add_outside {y : Layout} {s c s' c' k : Nat} (hc : c < y.channels) (hc' : c' < y.channels)
    (hne : s ≠ s' ∨ c ≠ c') (hk : k < bps y.depth) :
    y.addr s c + k < y.addr s' c' ∨ y.addr s' c' + bps y.depth ≤ y.addr s c + k := by
  rcases Nat.lt_or_gt_of_ne (place_ne hc hc' hne) with hlt | hgt
  · have := addr_le_of_before y s c s' c' hlt
    omega
  · have := addr_le_of_before y s' c' s c hgt
    omega

/-- A byte of one of a channel's samples, after the channel's write-back, is what that sample's turn makes of it. -/
theorem read_ditherStore_sample (m : Memory) {y : Layout} {c k : Nat} (hc : c < y.channels) (hk : k < bps y.depth)
    (s : Nat) {x z : List Int} (hlen : x.length = z.length) {i : Nat} (hi : i < x.length) :
    (ditherStore m y c s x z).read (y.addr (s + i) c + k) =
      (storeChanged m y (s + i) c (x.getD i 0) (z.getD i 0)).read (y.addr (s + i) c + k) := by
  induction x generalizing m s z i with
  | nil => simp at hi
  | cons a as ih =>
    cases z with
    | nil => simp at hlen
    | cons b bs =>
      rw [ditherStore_cons]
      cases i with
      | zero => exact read_ditherStore_of_outside _ y c _ as bs _ fun j _ => addr_add_outside hc hc (by omega) hk
      | succ i =>
        rw [show s + (i + 1) = s + 1 + i by omega, List.getD_cons_succ, List.getD_cons_succ,
          ih _ (s + 1) (by simpa using hlen) (by simpa using hi)]
        refine read_storeChanged_congr _ _ hk (read_storeChanged_of_outside m y s c a b _ ?_)
        exact addr_add_outside hc hc (by omega) hk

/-- The write-back of all channels leaves every byte that is in none of their samples. -/
theorem read_ditherStoreAll_of_outside (m : Memory) (y : Layout) (c : Nat) (xs zs : List (List Int)) (a : Nat)
    (h : ∀ j < xs.length, ∀ i < (xs.getD j []).length,
      a < y.addr i (c + j) ∨ y.addr i (c + j) + bps y.depth ≤ a) :
    (ditherStoreAll m y c xs zs).read a = m.read a := by
  induction xs generalizing m c zs with
  | nil => rfl
  | cons x xs ih =>
    cases zs with
    | nil => rfl
    | cons z zs =>
      rw [ditherStoreAll, ih]
      · exact read_ditherStore_of_outside m y c 0 x z a fun i hi => by simpa using h 0 (by simp) i hi
      · intro j hj i hi
        have := h (j + 1) (by simpa using hj) i (by simpa using hi)
        rwa [show c + 1 + j = c + (j + 1) by omega]

/-- A byte of a sample, after the write-back of all channels, is what that sample's turn makes of it. -/
theorem read_ditherStoreAll_sample (m : Memory) {y : Layout} {c k : Nat} {xs : List (List Int)}
    (hcs : c + xs.length ≤ y.channels) (hk : k < bps y.depth) {j i : Nat} (hj : j < xs.length)
    (hi : i < (xs.getD j []).length) :
    (ditherStoreAll m y c xs (xs.map ditherChannel)).read (y.addr i (c + j) + k) =
      (storeChanged m y i (c + j) ((xs.getD j []).getD i 0) ((ditherChannel (xs.getD j [])).getD i 0)).read
        (y.addr i (c + j) + k) := by
  induction xs generalizing m c j with
  | nil => simp at hj
  | cons x xs ih =>
    rw [List.length_cons] at hcs
    rw [List.map_cons, ditherStoreAll]
    cases j with
    | zero =>
      rw [read_ditherStoreAll_of_outside]
      · simpa using read_ditherStore_sample m (by omega) hk 0 (ditherChannel_length x).symm hi
      · exact fun j hj i' _ => addr_add_outside (by omega) (by omega) (by omega) hk
    | succ j =>
      rw [List.length_cons] at hj
      rw [show c + (j + 1) = c + 1 + j by omega, List.getD_cons_succ, ih _ (by omega) (by omega) hi]
      refine read_storeChanged_congr _ _ hk (read_ditherStore_of_outside m y c 0 x _ _ fun i' _ => ?_)
      exact addr_add_outside (by omega) (by omega) (by omega) hk

/-! #### The write-back of an ENCODE -/

theorem readChannel_getD (m : Memory) (y : Layout) (c : Nat) {n i : Nat} (hi : i < n) :
    (readChannel m y n c).getD i 0 = readSample m y i c := by
  have hlen : i < (readChannel m y n c).length := by rwa [readChannel_length]
  rw [List.getD_eq_getElem _ _ hlen]
  simp only [readChannel, readChannelFrom_getElem, Nat.zero_add]

theorem encodeInput_getD {l : Latched} (m : Memory) {c : Nat} (hc : c < l.channels.toNat) :
    (encodeInput l m).getD c [] = readChannel m l.layout l.samples c := by
  have hlen : c < (encodeInput l m).length := by rwa [encodeInput_length]
  rw [List.getD_eq_getElem _ _ hlen]
  simp [encodeInput, readChannels]

/-- Every sample of a legal configuration lies in the input range (R81, R151). -/
theorem encodable_addr_mem_inSpan {l : Latched} (hl : l.encodable) {s c : Nat} (hs : s < l.samples)
    (hc : c < l.channels.toNat) :
    l.inSpan.lo ≤ l.layout.addr s c ∧
      l.layout.addr s c + bps l.layout.depth ≤ l.inSpan.lo + l.inSpan.len := by
  refine ⟨Nat.le_add_right _ _, addr_le_end hs hc ?_⟩
  exact (congrArg (l.src.toNat + ·) (encodable_samples hl)).le

/-- A byte outside the input range is as before (R86). -/
theorem read_encodeDithered_of_outside {l : Latched} (hl : l.encodable) (m : Memory) {a : Nat}
    (ha : l.inSpan.has a = false) : (encodeDithered l m).read a = m.read a := by
  refine read_ditherStoreAll_of_outside m _ 0 _ _ a fun j hj i hi => ?_
  rw [encodeInput_length] at hj
  rw [encodeInput_getD m hj, readChannel_length] at hi
  obtain ⟨hlo, hhi⟩ := encodable_addr_mem_inSpan hl hi hj
  rw [← Bool.not_eq_true, Span.has_iff] at ha
  rw [Nat.zero_add]
  omega

/-- A byte of a sample of the input is what that sample's turn makes of it (R172). -/
theorem read_encodeDithered_sample {l : Latched} (hdither : l.dither = true) (m : Memory) {s c k : Nat}
    (hs : s < l.samples) (hc : c < l.channels.toNat) (hk : k < bps l.depth.toNat) :
    (encodeDithered l m).read (l.layout.addr s c + k) =
      (storeChanged m l.layout s c (readSample m l.layout s c)
        ((ditherChannel (readChannel m l.layout l.samples c)).getD s 0)).read (l.layout.addr s c + k) := by
  have hsample := read_ditherStoreAll_sample m (y := l.layout) (c := 0) (xs := encodeInput l m) (j := c) (i := s)
    (by simp [Latched.layout]) hk (by rwa [encodeInput_length])
    (by rwa [encodeInput_getD m hc, readChannel_length])
  rw [Nat.zero_add, encodeInput_getD m hc, readChannel_getD m _ _ hs] at hsample
  rw [encodeDithered, encodeSamples, if_pos hdither, hsample]

/-- After the write-back each channel reads as its dithered sequence (R172). -/
theorem readChannel_encodeDithered {l : Latched} (hl : l.encodable) (hdither : l.dither = true) (m : Memory) {c : Nat}
    (hc : c < l.channels.toNat) :
    readChannel (encodeDithered l m) l.layout l.samples c =
      ditherChannel (readChannel m l.layout l.samples c) := by
  refine ext_getD (by simp) fun s hs => ?_
  rw [readChannel_length] at hs
  rw [readChannel_getD _ _ _ hs]
  calc readSample (encodeDithered l m) l.layout s c
    _ = readSample (storeChanged m l.layout s c (readSample m l.layout s c)
          ((ditherChannel (readChannel m l.layout l.samples c)).getD s 0)) l.layout s c :=
        readSample_congr fun k hk => read_encodeDithered_sample hdither m hs hc hk
    _ = (ditherChannel (readChannel m l.layout l.samples c)).getD s 0 := by
        refine readSample_storeChanged m hl.depth s c fun hchanged => ?_
        rw [← readChannel_getD m _ _ hs] at hchanged
        rw [ditherChannel_getD_of_changed hchanged]
        exact sampleFits_zero _

/-- Settles O27, each byte by the turn of the sample it belongs to. -/
theorem ditherWritesBackOnlyChangedSamples : Obligations.DitherWritesBackOnlyChangedSamples := by
  refine fun l m hl hdither => ⟨?_, fun a ha => read_encodeDithered_of_outside hl m ha, ?_⟩
  · simp only [readChannels, List.map_map]
    exact List.map_congr_left fun c hc => readChannel_encodeDithered hl hdither m (List.mem_range.mp hc)
  · intro s c k hs hc hk hkept
    rw [read_encodeDithered_sample hdither m hs hc hk, hkept, storeChanged_self]

end Sys2Proof.Machine
end

section
/-! ### The predictor (R180 to R182)

Truncation depends on its argument modulo 2^16 only. So the decoder, fed the encoder's residuals, need only hold two
samples congruent to the encoder's: the prediction cancels, and what is left is the sample's own truncation. -/

namespace Sys2Proof.Machine

/-! #### Truncation -/

/-- Truncation keeps a value modulo 2^16 (R11). -/
theorem trunc16_modEq (v : Int) : trunc16 v ≡ v [ZMOD 65536] := by
  rw [trunc16_eq_bmod]
  exact Int.bmod_emod

/-- Truncation depends on the value modulo 2^16 only (R183). -/
theorem trunc16_congr {a b : Int} (h : a ≡ b [ZMOD 65536]) : trunc16 a = trunc16 b := by
  rw [trunc16_eq_bmod, trunc16_eq_bmod, ← Int.emod_bmod a, ← Int.emod_bmod b]
  exact congrArg (Int.bmod · 65536) h

theorem trunc16_of_fits16 {v : Int} (h : fits16 v) : trunc16 v = v := by
  obtain ⟨hlo, hhi⟩ := h
  rw [trunc16_eq_bmod]
  exact Int.bmod_eq_of_le_mul_two (by omega) (by omega)

/-! #### Residuals and reconstruction, index by index -/

/-- The residuals after the first two, each from the sample and the two before it (R180). -/
theorem predEncFrom_getD (older newer : Int) {x : List Int} {i : Nat} (hi : i < x.length) :
    (predEncFrom older newer x).getD i 0 =
      trunc16 (x.getD i 0 - predict ((older :: newer :: x).getD i 0) ((newer :: x).getD i 0)) := by
  induction x generalizing older newer i with
  | nil => simp at hi
  | cons v vs ih =>
    cases i with
    | zero => rfl
    | succ i => exact ih newer v (Nat.lt_of_succ_lt_succ hi)

/-- The samples reconstructed after the first two, each from its residual and the two before it (R181). -/
theorem predDecFrom_getD (older newer : Int) {r : List Int} {i : Nat} (hi : i < r.length) :
    (predDecFrom older newer r).getD i 0 =
      trunc16 (predict ((older :: newer :: predDecFrom older newer r).getD i 0)
        ((newer :: predDecFrom older newer r).getD i 0) + r.getD i 0) := by
  induction r generalizing older newer i with
  | nil => simp at hi
  | cons v vs ih =>
    cases i with
    | zero => rfl
    | succ i => exact ih newer _ (Nat.lt_of_succ_lt_succ hi)

/-- R180 at every index. -/
theorem predEnc_getD {x : List Int} {i : Nat} (hi : i < x.length) :
    (predEnc x).getD i 0 = if i < 2 then x.getD i 0 else
      trunc16 (x.getD i 0 - predict (x.getD (i - 2) 0) (x.getD (i - 1) 0)) := by
  match x, i with
  | [_], 0 | _ :: _ :: _, 0 | _ :: _ :: _, 1 => rfl
  | x0 :: x1 :: rest, i + 2 =>
    exact predEncFrom_getD x0 x1 (Nat.lt_of_add_lt_add_right hi)

/-- R181 at every index. -/
theorem predDec_getD {r : List Int} {i : Nat} (hi : i < r.length) :
    (predDec r).getD i 0 = if i < 2 then r.getD i 0 else
      trunc16 (predict ((predDec r).getD (i - 2) 0) ((predDec r).getD (i - 1) 0) + r.getD i 0) := by
  match r, i with
  | [_], 0 | _ :: _ :: _, 0 | _ :: _ :: _, 1 => rfl
  | r0 :: r1 :: rest, i + 2 =>
    exact predDecFrom_getD r0 r1 (Nat.lt_of_add_lt_add_right hi)

/-! #### The inverse law -/

/-- One sample: predicted from congruent samples, the residual gives the sample's truncation. -/
theorem trunc16_predict_add_residual {older newer older' newer' : Int} (holder : older' ≡ older [ZMOD 65536])
    (hnewer : newer' ≡ newer [ZMOD 65536]) (v : Int) :
    trunc16 (predict older' newer' + trunc16 (v - predict older newer)) = trunc16 v := by
  have hpredict : predict older' newer' ≡ predict older newer [ZMOD 65536] := (hnewer.mul_left 2).sub holder
  apply trunc16_congr
  calc predict older' newer' + trunc16 (v - predict older newer)
    _ ≡ predict older newer + (v - predict older newer) [ZMOD 65536] := hpredict.add (trunc16_modEq _)
    _ = v := add_sub_cancel _ _

/-- Decoding the residuals from samples congruent to the encoder's truncates every sample. -/
theorem predDecFrom_predEncFrom {older newer older' newer' : Int} (holder : older' ≡ older [ZMOD 65536])
    (hnewer : newer' ≡ newer [ZMOD 65536]) (x : List Int) :
    predDecFrom older' newer' (predEncFrom older newer x) = x.map trunc16 := by
  induction x generalizing older newer older' newer' with
  | nil => rfl
  | cons v vs ih =>
    simp only [predEncFrom, predDecFrom, List.map_cons, trunc16_predict_add_residual holder hnewer,
      ih hnewer (trunc16_modEq v)]

/-- R182 at every index. -/
theorem predDec_predEnc_getD (x : List Int) (i : Nat) :
    (predDec (predEnc x)).getD i 0 = if i < 2 then x.getD i 0 else trunc16 (x.getD i 0) := by
  match x, i with
  | [], 0 | [], 1 | [], _ + 2 | [_], 0 | [_], 1 | [_], _ + 2 | _ :: _ :: _, 0 | _ :: _ :: _, 1 => rfl
  | x0 :: x1 :: rest, i + 2 =>
    calc (predDecFrom x0 x1 (predEncFrom x0 x1 rest)).getD i 0
      _ = (rest.map trunc16).getD i (trunc16 0) := by
        rw [predDecFrom_predEncFrom (Int.ModEq.refl x0) (Int.ModEq.refl x1)]; rfl
      _ = trunc16 (rest.getD i 0) := List.getD_map rest 0 trunc16

/-- Where the samples from index 2 on are 16-bit, decoding inverts encoding (R182). -/
theorem predDec_predEnc {x : List Int} (hfits : ∀ i, 2 ≤ i → i < x.length → fits16 (x.getD i 0)) :
    predDec (predEnc x) = x := by
  refine ext_getD (by simp) fun i hi => ?_
  rw [predDec_length, predEnc_length] at hi
  rw [predDec_predEnc_getD]
  split_ifs with hfirst
  · rfl
  · exact trunc16_of_fits16 (hfits i (Nat.le_of_not_lt hfirst) hi)

/-- Settles O47, each part index by index, with truncation as the signed representative modulo 2^16. -/
theorem predictorInverse : Obligations.PredictorInverse := by
  intro x
  simp only [← trunc16_eq_bmod]
  exact ⟨by simp, fun i _ => predDec_predEnc_getD x i, predDec_predEnc, fun _ => predEnc_getD, fun _ => predDec_getD⟩

end Sys2Proof.Machine
end

section
/-! ### The zero-run detector and its inverse (R200 to R204)

A sequence is a run of zeros, or a run of zeros, a non-zero value and a rest. The encoder answers each form by one
equation, the rest's descriptors shifted past what precedes them; its properties follow by induction on the form. The
decoder is followed from its first descriptor to any later one, which the checks before it let it reach. -/

namespace Sys2Proof.Machine

/-! #### The encoder, run by run -/

/-- The descriptor of the same run with `k` more values before it. -/
def Run.shift (k : Nat) (d : Run) : Run := ⟨d.start + k, d.len⟩

@[simp] theorem Run.shift_start (k : Nat) (d : Run) : (d.shift k).start = d.start + k := rfl
@[simp] theorem Run.shift_len (k : Nat) (d : Run) : (d.shift k).len = d.len := rfl

theorem Run.map_shift_zero (ds : List Run) : ds.map (shift 0) = ds := List.map_id ds

theorem Run.map_shift_shift (j k : Nat) (ds : List Run) :
    (ds.map (shift j)).map (shift k) = ds.map (shift (j + k)) := by
  rw [List.map_map]
  exact List.map_congr_left fun d _ => congrArg (Run.mk · d.len) (Nat.add_assoc _ _ _)

theorem flushRun_of_lt {run : Nat} (h : run < 10) (start : Nat) : flushRun run start = (List.replicate run 0, []) :=
  if_neg (Nat.not_le_of_lt h)

theorem flushRun_of_le {run : Nat} (h : 10 ≤ run) (start : Nat) : flushRun run start = ([], [⟨start, run⟩]) :=
  if_pos h

theorem flushRun_zero (start : Nat) : flushRun 0 start = ([], []) := flushRun_of_lt (by decide) start

theorem flushRun_shift (run start k : Nat) :
    flushRun run (start + k) = ((flushRun run start).1, (flushRun run start).2.map (Run.shift k)) := by
  rcases Nat.lt_or_ge run 10 with h | h
  · simp only [flushRun_of_lt h, List.map_nil]
  · simp only [flushRun_of_le h, List.map_cons, List.map_nil, Run.shift]

theorem zreScan_nil (i run start : Nat) : zreScan i run start [] = flushRun run start := rfl

theorem zreScan_zero (i run start : Nat) (r : List Int) :
    zreScan i run start (0 :: r) = zreScan (i + 1) (run + 1) (if run = 0 then i else start) r := if_pos rfl

/-- Outside a run the scan does not look at where a run began. -/
theorem zreScan_no_run (i start start' : Nat) (r : List Int) : zreScan i 0 start r = zreScan i 0 start' r := by
  induction r generalizing i start start' with
  | nil => rfl
  | cons v r ih =>
    by_cases hv : v = 0
    · subst hv
      rw [zreScan_zero, zreScan_zero, if_pos rfl, if_pos rfl]
    · simp only [zreScan, if_neg hv, ih (i + 1) start start', flushRun_zero]

theorem zreScan_value (i run start : Nat) {v : Int} (hv : v ≠ 0) (r : List Int) :
    zreScan i run start (v :: r) = ((flushRun run start).1 ++ v :: (zreScan (i + 1) 0 0 r).1,
      (flushRun run start).2 ++ (zreScan (i + 1) 0 0 r).2) := by
  rw [zreScan, if_neg hv, zreScan_no_run _ start 0]

/-- Zeros lengthen the run in hand. -/
theorem zreScan_zeros {i run start : Nat} (hrun : run ≠ 0) (n : Nat) (r : List Int) :
    zreScan i run start (List.replicate n 0 ++ r) = zreScan (i + n) (run + n) start r := by
  induction n generalizing i run with
  | zero => rfl
  | succ n ih =>
    rw [List.replicate_succ, List.cons_append, zreScan_zero, if_neg hrun, ih (Nat.succ_ne_zero run),
      Nat.add_right_comm, Nat.succ_add_eq_add_succ]
    rfl

/-- Zeros outside a run begin one. -/
theorem zreScan_zeros_no_run (i n : Nat) (r : List Int) :
    zreScan i 0 0 (List.replicate n 0 ++ r) = zreScan (i + n) n i r := by
  cases n with
  | zero => exact zreScan_no_run i 0 i r
  | succ n =>
    rw [List.replicate_succ, List.cons_append, zreScan_zero, if_pos rfl, zreScan_zeros Nat.one_ne_zero,
      Nat.add_right_comm, Nat.add_comm 1 n]
    rfl

/-- Scanning from `k` further on shifts every descriptor by `k`. -/
theorem zreScan_shift (i run start k : Nat) (r : List Int) : zreScan (i + k) run (start + k) r =
    ((zreScan i run start r).1, (zreScan i run start r).2.map (Run.shift k)) := by
  induction r generalizing i run start with
  | nil => exact flushRun_shift run start k
  | cons v r ih =>
    by_cases hv : v = 0
    · subst hv
      rw [zreScan_zero, zreScan_zero, ← ih, Nat.add_right_comm i k 1]
      split_ifs <;> rfl
    · simp only [zreScan_value _ _ _ hv, Nat.add_right_comm i k 1, zreScan_no_run _ 0 (0 + k), ih, flushRun_shift,
        List.map_append]

/-- R200 on zeros alone. -/
theorem zreEnc_zeros (n : Nat) : zreEnc (List.replicate n 0) = flushRun n 0 := by
  rw [zreEnc, ← List.append_nil (List.replicate n 0), zreScan_zeros_no_run, zreScan_nil]

/-- R200 at the first non-zero value: the zeros before it are flushed, and the rest is encoded on its own. -/
theorem zreEnc_zeros_value (n : Nat) {v : Int} (hv : v ≠ 0) (r : List Int) :
    zreEnc (List.replicate n 0 ++ v :: r) = ((flushRun n 0).1 ++ v :: (zreEnc r).1,
      (flushRun n 0).2 ++ (zreEnc r).2.map (Run.shift (n + 1))) := by
  have hrest : zreScan (n + 1) 0 0 r = ((zreEnc r).1, (zreEnc r).2.map (Run.shift (n + 1))) := by
    rw [zreEnc, ← zreScan_shift, Nat.zero_add, zreScan_no_run]
  rw [zreEnc, zreScan_zeros_no_run, Nat.zero_add, zreScan_value _ _ _ hv, hrest]

/-- A non-zero value first in the sequence is emitted literally. -/
theorem zreEnc_value {v : Int} (hv : v ≠ 0) (r : List Int) :
    zreEnc (v :: r) = (v :: (zreEnc r).1, (zreEnc r).2.map (Run.shift 1)) :=
  zreEnc_zeros_value 0 hv r

/-- Induction on a sequence by its runs of zeros. -/
theorem zeroRun_induction {P : List Int → Prop} (zeros : ∀ n, P (List.replicate n 0))
    (value : ∀ n v r, v ≠ 0 → P r → P (List.replicate n 0 ++ v :: r)) (r : List Int) : P r := by
  have hall : ∀ n, P (List.replicate n 0 ++ r) := by
    induction r with
    | nil => simpa using zeros
    | cons v r ih =>
      intro n
      by_cases hv : v = 0
      · simpa [hv, List.replicate_succ'] using ih (n + 1)
      · exact value n v r hv (ih 0)
  exact hall 0

/-! #### The threshold (R201) -/

theorem zreEnc_of_forall_ne_zero {w : List Int} (hw : ∀ v ∈ w, v ≠ 0) : zreEnc w = (w, []) := by
  induction w with
  | nil => rfl
  | cons v w ih =>
    obtain ⟨hv, hw⟩ := List.forall_mem_cons.mp hw
    rw [zreEnc_value hv, ih hw, List.map_nil]

/-- A run before non-zero values is what is flushed. -/
theorem zreEnc_zeros_append (n : Nat) {w : List Int} (hw : ∀ v ∈ w, v ≠ 0) :
    zreEnc (List.replicate n 0 ++ w) = ((flushRun n 0).1 ++ w, (flushRun n 0).2) := by
  cases w with
  | nil => rw [List.append_nil, List.append_nil, zreEnc_zeros]
  | cons v w =>
    obtain ⟨hv, hw⟩ := List.forall_mem_cons.mp hw
    rw [zreEnc_zeros_value n hv, zreEnc_of_forall_ne_zero hw, List.map_nil, List.append_nil]

/-- Non-zero values are emitted literally, and what follows them is encoded on its own. -/
theorem zreEnc_append_of_forall_ne_zero {u : List Int} (hu : ∀ v ∈ u, v ≠ 0) (r : List Int) :
    zreEnc (u ++ r) = (u ++ (zreEnc r).1, (zreEnc r).2.map (Run.shift u.length)) := by
  induction u with
  | nil => rw [List.nil_append, List.nil_append, List.length_nil, Run.map_shift_zero]
  | cons v u ih =>
    obtain ⟨hv, hu⟩ := List.forall_mem_cons.mp hu
    rw [List.cons_append, zreEnc_value hv, ih hu, Run.map_shift_shift, List.length_cons, List.cons_append]

/-- Settles O50: the values before the run, then the run, are taken off in turn. -/
theorem zeroRunThreshold : Obligations.ZeroRunThreshold := by
  intro u w n hvalues
  obtain ⟨hu, hw⟩ := List.forall_mem_append.mp hvalues
  rw [zreEnc_append_of_forall_ne_zero hu, zreEnc_zeros_append n hw]
  split_ifs with hn
  · rw [flushRun_of_lt (Nat.lt_succ_of_le hn), List.map_nil]
  · simp [flushRun_of_le (Nat.lt_of_not_le hn), Run.shift]

/-! #### The encoder's output (R202) -/

/-- R202 (a): at least ten zeros of the sequence, with no zero beside them. -/
def Run.maximalIn (r : List Int) (d : Run) : Prop :=
  10 ≤ d.len ∧ d.start + d.len ≤ r.length ∧ (∀ i, d.start ≤ i → i < d.start + d.len → r.getD i 1 = 0) ∧
    (0 < d.start → r.getD (d.start - 1) 0 ≠ 0) ∧ (d.start + d.len < r.length → r.getD (d.start + d.len) 0 ≠ 0)

theorem mem_flushRun {run start : Nat} {d : Run} (h : d ∈ (flushRun run start).2) : 10 ≤ run ∧ d = ⟨start, run⟩ := by
  rcases Nat.lt_or_ge run 10 with hlt | hle
  · simp [flushRun_of_lt hlt] at h
  · exact ⟨hle, by simpa [flushRun_of_le hle] using h⟩

/-- What precedes a value and the value itself, skipped. -/
theorem getD_zeros_value (n : Nat) (v x : Int) (r : List Int) (i : Nat) :
    (List.replicate n 0 ++ v :: r).getD (i + (n + 1)) x = r.getD i x := by
  rw [List.getD_append_right _ _ _ _ (by simp only [List.length_replicate]; omega), List.length_replicate,
    show i + (n + 1) - n = i + 1 by omega, List.getD_cons_succ]

theorem getD_zeros_value_last (n : Nat) (v x : Int) (r : List Int) :
    (List.replicate n 0 ++ v :: r).getD n x = v := by
  rw [List.getD_append_right _ _ _ _ (by simp), List.length_replicate, Nat.sub_self, List.getD_cons_zero]

theorem maximalIn_zeros {n : Nat} (hn : 10 ≤ n) : Run.maximalIn (List.replicate n 0) ⟨0, n⟩ := by
  refine ⟨hn, by simp, fun i _ hi => ?_, fun h => absurd h (Nat.lt_irrefl 0), fun h => ?_⟩
  · exact List.getD_replicate _ (by simpa using hi)
  · simp at h

theorem maximalIn_zeros_value {n : Nat} (hn : 10 ≤ n) {v : Int} (hv : v ≠ 0) (r : List Int) :
    Run.maximalIn (List.replicate n 0 ++ v :: r) ⟨0, n⟩ := by
  refine ⟨hn, by simp, fun i _ hi => ?_, fun h => absurd h (Nat.lt_irrefl 0), fun _ => ?_⟩
  · rw [Nat.zero_add] at hi
    rw [List.getD_append _ _ _ _ (by simpa using hi), List.getD_replicate _ hi]
  · rwa [Nat.zero_add, getD_zeros_value_last]

/-- A maximal run stays maximal behind a non-zero value. -/
theorem Run.maximalIn.shift {r : List Int} {d : Run} (h : d.maximalIn r) (n : Nat) {v : Int} (hv : v ≠ 0) :
    (d.shift (n + 1)).maximalIn (List.replicate n 0 ++ v :: r) := by
  obtain ⟨hlen, hend, hzeros, hleft, hright⟩ := h
  have hstop : d.start + (n + 1) + d.len = d.start + d.len + (n + 1) := Nat.add_right_comm _ _ _
  simp only [Run.maximalIn, Run.shift_start, Run.shift_len, hstop, getD_zeros_value, List.length_append,
    List.length_replicate, List.length_cons]
  refine ⟨hlen, by omega, fun i hlo hhi => ?_, fun _ => ?_, fun hi => hright (by omega)⟩
  · obtain ⟨k, rfl⟩ := Nat.exists_eq_add_of_le' (Nat.le_of_add_left_le hlo)
    rw [getD_zeros_value]
    exact hzeros k (by omega) (by omega)
  · rcases Nat.eq_zero_or_pos d.start with h0 | hpos
    · rwa [h0, Nat.zero_add, Nat.add_sub_cancel, getD_zeros_value_last]
    · rw [show d.start + (n + 1) - 1 = d.start - 1 + (n + 1) by omega, getD_zeros_value]
      exact hleft hpos

theorem zreEnc_maximalIn (r : List Int) : ∀ d ∈ (zreEnc r).2, d.maximalIn r := by
  induction r using zeroRun_induction with
  | zeros n =>
    intro d hd
    rw [zreEnc_zeros] at hd
    obtain ⟨hn, rfl⟩ := mem_flushRun hd
    exact maximalIn_zeros hn
  | value n v r hv ih =>
    intro d hd
    rw [zreEnc_zeros_value n hv] at hd
    rcases List.mem_append.mp hd with hd | hd
    · obtain ⟨hn, rfl⟩ := mem_flushRun hd
      exact maximalIn_zeros_value hn hv r
    · obtain ⟨d', hd', rfl⟩ := List.mem_map.mp hd
      exact (ih d' hd').shift n hv

/-- R202 (b). -/
theorem zreEnc_pairwise (r : List Int) : (zreEnc r).2.Pairwise (fun x y => x.start + x.len < y.start) := by
  have hflush : ∀ n, (flushRun n 0).2.Pairwise (fun x y => x.start + x.len < y.start) := by
    intro n
    rcases Nat.lt_or_ge n 10 with h | h
    · simp [flushRun_of_lt h]
    · simp [flushRun_of_le h]
  induction r using zeroRun_induction with
  | zeros n => rw [zreEnc_zeros]; exact hflush n
  | value n v r hv ih =>
    rw [zreEnc_zeros_value n hv]
    refine List.pairwise_append.mpr ⟨hflush n, List.pairwise_map.mpr (ih.imp fun h => ?_), fun x hx y hy => ?_⟩
    · simp only [Run.shift_start, Run.shift_len]
      omega
    · obtain ⟨_, rfl⟩ := mem_flushRun hx
      obtain ⟨d, _, rfl⟩ := List.mem_map.mp hy
      simp only [Run.shift_start]
      omega

/-- A consecutive part that does not hold the value `v`, and is longer than what precedes one `v`, lies behind it. -/
theorem infix_of_infix_append_cons {l a t : List Int} {v : Int} (hv : v ∉ l) (hlen : a.length < l.length)
    (h : l <:+: a ++ v :: t) : l <:+: t := by
  have hnot : ∀ b : List Int, b.length < l.length → ¬ l <+: b ++ v :: t := by
    intro b hb hpre
    have hshort : b ++ [v] <+: l :=
      List.prefix_of_prefix_length_le (l₃ := b ++ v :: t) ⟨t, by simp⟩ hpre (by simpa using hb)
    exact hv (hshort.subset (by simp))
  induction a with
  | nil => exact (List.infix_cons_iff.mp h).resolve_left (hnot [] hlen)
  | cons x a ih =>
    exact ih (Nat.lt_of_succ_lt hlen) ((List.infix_cons_iff.mp h).resolve_left (hnot (x :: a) hlen))

theorem flushRun_length_lt (run start : Nat) : (flushRun run start).1.length < 10 := by
  rcases Nat.lt_or_ge run 10 with h | h
  · simpa [flushRun_of_lt h] using h
  · simp [flushRun_of_le h]

/-- R202 (c). -/
theorem zreEnc_no_ten_zeros (r : List Int) : ¬ List.replicate 10 (0 : Int) <:+: (zreEnc r).1 := by
  induction r using zeroRun_induction with
  | zeros n =>
    rw [zreEnc_zeros]
    exact fun h => absurd h.length_le (Nat.not_le_of_lt (by simpa using flushRun_length_lt n 0))
  | value n v r hv ih =>
    rw [zreEnc_zeros_value n hv]
    exact fun h => ih (infix_of_infix_append_cons (fun hmem => hv (List.eq_of_mem_replicate hmem))
      (by simpa using flushRun_length_lt n 0) h)

theorem flushRun_length_sum (run start : Nat) :
    (flushRun run start).1.length + ((flushRun run start).2.map (·.len)).sum = run := by
  rcases Nat.lt_or_ge run 10 with h | h
  · simp [flushRun_of_lt h]
  · simp [flushRun_of_le h]

theorem Run.map_len_shift (k : Nat) (ds : List Run) : (ds.map (shift k)).map (·.len) = ds.map (·.len) := by
  simp

/-- R202 (d). -/
theorem zreEnc_length_sum (r : List Int) : (zreEnc r).1.length + ((zreEnc r).2.map (·.len)).sum = r.length := by
  induction r using zeroRun_induction with
  | zeros n => rw [zreEnc_zeros, flushRun_length_sum, List.length_replicate]
  | value n v r hv ih =>
    have hflush := flushRun_length_sum n 0
    simp only [zreEnc_zeros_value n hv, List.map_append, Run.map_len_shift, List.sum_append, List.length_append,
      List.length_cons, List.length_replicate]
    omega

theorem flushRun_count (run start : Nat) : 11 * (flushRun run start).2.length ≤ run + 1 := by
  rcases Nat.lt_or_ge run 10 with h | h
  · simp [flushRun_of_lt h]
  · simpa [flushRun_of_le h] using h

/-- R202 (e): each descriptor takes ten zeros and, but for the last, the value behind them. -/
theorem zreEnc_count (r : List Int) : 11 * (zreEnc r).2.length ≤ r.length + 1 := by
  induction r using zeroRun_induction with
  | zeros n => rw [zreEnc_zeros, List.length_replicate]; exact flushRun_count n 0
  | value n v r hv ih =>
    have hflush := flushRun_count n 0
    simp only [zreEnc_zeros_value n hv, List.length_append, List.length_map, List.length_replicate, List.length_cons]
    omega

/-- Settles O48, each of R202's properties by induction on the sequence's runs. -/
theorem zeroRunOutputProperties : Obligations.ZeroRunOutputProperties := by
  intro r
  have hsum := zreEnc_length_sum r
  have hcount := zreEnc_count r
  refine ⟨zreEnc_maximalIn r, zreEnc_pairwise r, zreEnc_no_ten_zeros r, hsum, by omega, fun hr => ⟨by omega, ?_⟩⟩
  intro d hd
  obtain ⟨-, hend, -⟩ := zreEnc_maximalIn r d hd
  omega

/-! #### The decoder on the encoder's output (R204) -/

/-- A descriptor in place, as what it puts before the output of the descriptors behind it. -/
theorem zreFill_cons_map {c n j len : Nat} {q : List Int} {d : Run} {ds : List Run} (h1 : len ≤ d.start)
    (h2 : d.start ≤ q.length + len) (h3 : d.start + d.len ≤ n) :
    zreFill c n j len q (d :: ds) =
      (zreFill c n (j + 1) (d.start + d.len) (q.drop (d.start - len)) ds).map
        (fun out => q.take (d.start - len) ++ (List.replicate d.len 0 ++ out)) := by
  rw [zreFill_cons h1 h2 h3]
  cases zreFill c n (j + 1) (d.start + d.len) (q.drop (d.start - len)) ds <;> rfl

/-- Compacted values that lie before every descriptor are put out as they are. -/
theorem zreFill_literal {c n j len : Nat} (a q : List Int) {ds : List Run}
    (hds : ∀ d ∈ ds, len + a.length ≤ d.start) :
    zreFill c n j len (a ++ q) ds = (zreFill c n j (len + a.length) q ds).map (a ++ ·) := by
  cases ds with
  | nil =>
    simp only [zreFill, List.length_append, ← Nat.add_assoc]
    split_ifs <;> rfl
  | cons d ds =>
    obtain ⟨k, hk⟩ := Nat.exists_eq_add_of_le (hds d List.mem_cons_self)
    have hneed : d.start - len = a.length + k := by omega
    have hneed' : d.start - (len + a.length) = k := by omega
    have hordered : ¬ d.start < len := by omega
    have hordered' : ¬ d.start < len + a.length := by omega
    simp only [zreFill, if_neg hordered, if_neg hordered', hneed, hneed', List.length_append, Nat.add_lt_add_iff_left,
      List.take_length_add_append, List.drop_length_add_append]
    split_ifs
    · rfl
    · rfl
    · split
      · rfl
      · simp only [Except.map, List.append_assoc]

/-- The decoder undoes a flush: the run's zeros come out, by its descriptor or as they are. -/
theorem zreFill_flushRun {c n j len run : Nat} (q : List Int) {ds : List Run} (hfit : len + run ≤ n)
    (hds : ∀ d ∈ ds, len + run ≤ d.start) :
    zreFill c n j len ((flushRun run 0).1 ++ q) ((flushRun run 0).2.map (Run.shift len) ++ ds) =
      (zreFill c n (j + (flushRun run 0).2.length) (len + run) q ds).map (List.replicate run 0 ++ ·) := by
  rcases Nat.lt_or_ge run 10 with h | h
  · rw [flushRun_of_lt h]
    simpa using zreFill_literal (j := j) (List.replicate run 0) q (by simpa using hds)
  · rw [flushRun_of_le h]
    simpa [Run.shift] using zreFill_cons_map (d := ⟨len, run⟩) (Nat.le_refl len) (Nat.le_add_left len q.length) hfit

/-- R204, with `len` values already out. -/
theorem zreFill_zreEnc (c j len : Nat) (r : List Int) :
    zreFill c (len + r.length) j len (zreEnc r).1 ((zreEnc r).2.map (Run.shift len)) = .ok r := by
  induction r using zeroRun_induction generalizing j len with
  | zeros n =>
    have hflush := zreFill_flushRun (c := c) (n := len + n) (j := j) (len := len) (run := n) [] (ds := [])
      (Nat.le_refl _) (by simp)
    simp only [List.append_nil] at hflush
    rw [zreEnc_zeros, List.length_replicate, hflush]
    simp [zreFill, Except.map]
  | value n v r hv ih =>
    have hlen : len + (List.replicate n 0 ++ v :: r).length = len + n + 1 + r.length := by
      simp only [List.length_append, List.length_replicate, List.length_cons]
      omega
    have hds : ∀ d ∈ (zreEnc r).2.map (Run.shift (n + 1 + len)), len + n + 1 ≤ d.start := by
      intro d hd
      obtain ⟨d', -, rfl⟩ := List.mem_map.mp hd
      simp only [Run.shift_start]
      omega
    rw [hlen, zreEnc_zeros_value n hv, List.map_append, Run.map_shift_shift,
      zreFill_flushRun _ (by omega) fun d hd => Nat.le_of_succ_le (hds d hd),
      ← List.singleton_append (x := v) (l := (zreEnc r).1), zreFill_literal [v] _ hds, List.length_singleton,
      show n + 1 + len = len + n + 1 by omega, ih]
    rfl

theorem zreDec_zreEnc (r : List Int) (c : Nat) : zreDec c r.length (zreEnc r).1 (zreEnc r).2 = .ok r := by
  simpa [zreDec, Run.map_shift_zero] using zreFill_zreEnc c 0 0 r

/-! #### The decoder on any input (R203) -/

section

variable {q : List Int} {ds : List Run} {n j : Nat}

/-- The compacted values used when descriptor `j` is met. -/
def valuesUsed (ds : List Run) (j : Nat) : Nat := runsEnd ds j - runsTotal ds j

/-- The compacted values put out between the run before descriptor `j` and its own run. -/
def valuesBefore (ds : List Run) (q : List Int) (j : Nat) : List Int :=
  (q.drop (valuesUsed ds j)).take ((runAt ds j).start - runsEnd ds j)

/-- What is out when descriptor `j` is met: each earlier descriptor's compacted values, then its zeros. -/
def filledBefore (ds : List Run) (q : List Int) : Nat → List Int
  | 0 => []
  | j + 1 => filledBefore ds q j ++ (valuesBefore ds q j ++ List.replicate (runAt ds j).len 0)

theorem runsEnd_succ (ds : List Run) (j : Nat) : runsEnd ds (j + 1) = (runAt ds j).start + (runAt ds j).len := rfl

theorem runsTotal_succ (ds : List Run) (j : Nat) : runsTotal ds (j + 1) = runsTotal ds j + (runAt ds j).len := by
  rw [runsTotal, runsTotal, runAt, List.getD_eq_getElem?_getD, List.take_add_one, List.map_append, List.sum_append]
  cases ds[j]? <;> simp

theorem drop_eq_runAt_cons (h : j < ds.length) : ds.drop j = runAt ds j :: ds.drop (j + 1) := by
  rw [List.drop_eq_getElem_cons h, runAt, List.getD_eq_getElem _ _ h]

/-- The checks before descriptor `j` bound the length put out from below and above. -/
theorem runsEnd_bounds (h : ∀ i, i < j → runPlaced ds q.length n i) :
    runsTotal ds j ≤ runsEnd ds j ∧ runsEnd ds j ≤ q.length + runsTotal ds j := by
  induction j with
  | zero => exact ⟨Nat.le_refl 0, Nat.zero_le _⟩
  | succ j ih =>
    obtain ⟨hlow, -⟩ := ih fun i hi => h i (Nat.lt_succ_of_lt hi)
    obtain ⟨hstart, hvalues, -⟩ := h j (Nat.lt_succ_self j)
    rw [runsTotal_succ, runsEnd_succ]
    omega

theorem valuesBefore_length (h : ∀ i, i < j + 1 → runPlaced ds q.length n i) :
    (valuesBefore ds q j).length = (runAt ds j).start - runsEnd ds j := by
  obtain ⟨hlow, hhigh⟩ := runsEnd_bounds fun i hi => h i (Nat.lt_succ_of_lt hi)
  obtain ⟨hstart, hvalues, -⟩ := h j (Nat.lt_succ_self j)
  simp only [valuesBefore, valuesUsed, List.length_take, List.length_drop]
  omega

theorem filledBefore_length (h : ∀ i, i < j → runPlaced ds q.length n i) :
    (filledBefore ds q j).length = runsEnd ds j := by
  induction j with
  | zero => rfl
  | succ j ih =>
    obtain ⟨hstart, -, -⟩ := h j (Nat.lt_succ_self j)
    simp only [filledBefore, runsEnd_succ, List.length_append, List.length_replicate, valuesBefore_length h,
      ih fun i hi => h i (Nat.lt_succ_of_lt hi)]
    omega

/-- Descriptors in place are passed: the decoder stands at the next one, with their values and zeros out. -/
theorem zreDec_reaches (c : Nat) (hj : j ≤ ds.length) (h : ∀ i, i < j → runPlaced ds q.length n i) :
    zreDec c n q ds = (zreFill c n j (runsEnd ds j) (q.drop (valuesUsed ds j)) (ds.drop j)).map
      (filledBefore ds q j ++ ·) := by
  induction j with
  | zero =>
    change zreFill c n 0 0 q ds = (zreFill c n 0 0 q ds).map ([] ++ ·)
    cases zreFill c n 0 0 q ds <;> rfl
  | succ j ih =>
    have hbefore : ∀ i, i < j → runPlaced ds q.length n i := fun i hi => h i (Nat.lt_succ_of_lt hi)
    obtain ⟨hlow, hhigh⟩ := runsEnd_bounds hbefore
    obtain ⟨hstart, hvalues, hend⟩ := h j (Nat.lt_succ_self j)
    have hused : valuesUsed ds (j + 1) = valuesUsed ds j + ((runAt ds j).start - runsEnd ds j) := by
      simp only [valuesUsed, runsTotal_succ, runsEnd_succ]
      omega
    have henough : (runAt ds j).start ≤ (q.drop (valuesUsed ds j)).length + runsEnd ds j := by
      simp only [valuesUsed, List.length_drop]
      omega
    rw [ih (Nat.le_of_succ_le hj) hbefore, drop_eq_runAt_cons hj, zreFill_cons_map hstart henough hend,
      List.drop_drop, ← hused]
    change _ = (zreFill c n (j + 1) ((runAt ds j).start + (runAt ds j).len) _ _).map _
    cases zreFill c n (j + 1) ((runAt ds j).start + (runAt ds j).len) (q.drop (valuesUsed ds (j + 1)))
        (ds.drop (j + 1)) with
    | error e => rfl
    | ok out => simp only [Except.map, filledBefore, valuesBefore, List.append_assoc]

/-- The first descriptor out of place raises what its first failing check raises. -/
theorem zreDec_out_of_place (c : Nat) (hj : j < ds.length) (h : ∀ i, i < j → runPlaced ds q.length n i) :
    ((runAt ds j).start < runsEnd ds j → zreDec c n q ds = .error ⟨.inconsistent, 2, j, c, 0⟩) ∧
    (runsEnd ds j ≤ (runAt ds j).start → q.length + runsTotal ds j < (runAt ds j).start →
      zreDec c n q ds = .error ⟨.inconsistent, 3, j, c, 0⟩) ∧
    (runsEnd ds j ≤ (runAt ds j).start → (runAt ds j).start ≤ q.length + runsTotal ds j →
      n < (runAt ds j).start + (runAt ds j).len → zreDec c n q ds = .error ⟨.inconsistent, 4, j, c, 0⟩) := by
  obtain ⟨hlow, hhigh⟩ := runsEnd_bounds h
  rw [zreDec_reaches c hj.le h, drop_eq_runAt_cons hj]
  simp only [zreFill, List.length_drop, valuesUsed]
  refine ⟨fun hstart => ?_, fun hstart hvalues => ?_, fun hstart hvalues hend => ?_⟩
  · rw [if_pos hstart]
    rfl
  · rw [if_neg (by omega), if_pos (by omega)]
    rfl
  · rw [if_neg (by omega), if_neg (by omega), if_pos hend]
    rfl

/-- Descriptors in place leave the check of the total (R203's last). -/
theorem zreDec_in_place (c : Nat) (h : ∀ i, i < ds.length → runPlaced ds q.length n i) :
    zreDec c n q ds = if q.length + runsTotal ds ds.length = n then
        .ok (filledBefore ds q ds.length ++ q.drop (valuesUsed ds ds.length))
      else .error ⟨.inconsistent, 4, ds.length, c, 0⟩ := by
  obtain ⟨hlow, hhigh⟩ := runsEnd_bounds h
  have htotal : runsEnd ds ds.length + (q.length - valuesUsed ds ds.length) = q.length + runsTotal ds ds.length := by
    simp only [valuesUsed]
    omega
  rw [zreDec_reaches c le_rfl h, List.drop_length, zreFill, List.length_drop, htotal, ite_not]
  split_ifs <;> rfl

/-- What is out when a descriptor is met stays in the answer. -/
theorem filledBefore_prefix (ds : List Run) (q : List Int) {j m : Nat} (hjm : j ≤ m) :
    filledBefore ds q j <+: filledBefore ds q m := by
  induction hjm with
  | refl => exact List.prefix_rfl
  | step _ ih => exact ih.trans (List.prefix_append _ _)

/-- The answer around descriptor `j`: what was out, the values before its run, its zeros, and what comes later. -/
theorem filledBefore_append_split {m : Nat} (hjm : j < m) (rest : List Int) : ∃ later, filledBefore ds q m ++ rest =
    filledBefore ds q j ++ (valuesBefore ds q j ++ (List.replicate (runAt ds j).len 0 ++ later)) := by
  obtain ⟨later, hlater⟩ := filledBefore_prefix ds q (Nat.succ_le_of_lt hjm)
  exact ⟨later ++ rest, by simp only [← hlater, filledBefore, List.append_assoc]⟩

/-- The compacted values not yet used when descriptor `j` is met, by their index in the answer. -/
theorem getD_drop_valuesUsed {i : Nat} (h : ∀ i, i < j → runPlaced ds q.length n i) (hi : runsEnd ds j ≤ i) :
    (q.drop (valuesUsed ds j)).getD (i - runsEnd ds j) 0 = q.getD (i - runsTotal ds j) 0 := by
  obtain ⟨hlow, -⟩ := runsEnd_bounds h
  have hindex : valuesUsed ds j + (i - runsEnd ds j) = i - runsTotal ds j := by
    simp only [valuesUsed]
    omega
  rw [List.getD_eq_getElem?_getD, List.getElem?_drop, hindex, List.getD_eq_getElem?_getD]

/-- The answer is zero in the run of a descriptor that is passed. -/
theorem filledBefore_getD_run {i m : Nat} (hjm : j < m) (h : ∀ i, i < j + 1 → runPlaced ds q.length n i)
    (rest : List Int) (hlo : (runAt ds j).start ≤ i) (hhi : i < (runAt ds j).start + (runAt ds j).len) :
    (filledBefore ds q m ++ rest).getD i 1 = 0 := by
  obtain ⟨later, hsplit⟩ := filledBefore_append_split hjm rest
  have hout := filledBefore_length fun i hi => h i (Nat.lt_succ_of_lt hi)
  have hvalues := valuesBefore_length h
  obtain ⟨hstart, -, -⟩ := h j (Nat.lt_succ_self j)
  rw [hsplit, List.getD_append_right _ _ _ _ (by omega), List.getD_append_right _ _ _ _ (by omega),
    List.getD_append _ _ _ _ (by rw [List.length_replicate]; omega), List.getD_replicate _ (by omega)]

/-- The answer holds the compacted values in order before the run of a descriptor that is passed. -/
theorem filledBefore_getD_values {i m : Nat} (hjm : j < m) (h : ∀ i, i < j + 1 → runPlaced ds q.length n i)
    (rest : List Int) (hlo : runsEnd ds j ≤ i) (hhi : i < (runAt ds j).start) :
    (filledBefore ds q m ++ rest).getD i 0 = q.getD (i - runsTotal ds j) 0 := by
  obtain ⟨later, hsplit⟩ := filledBefore_append_split hjm rest
  have hbefore : ∀ i, i < j → runPlaced ds q.length n i := fun i hi => h i (Nat.lt_succ_of_lt hi)
  have hout := filledBefore_length hbefore
  have hvalues := valuesBefore_length h
  rw [hsplit, List.getD_append_right _ _ _ _ (by omega), hout, List.getD_append _ _ _ _ (by omega),
    ← getD_drop_valuesUsed hbefore hlo, valuesBefore, List.getD_eq_getElem?_getD,
    List.getElem?_take_of_lt (by omega), List.getD_eq_getElem?_getD]

/-- The compacted values left after the last descriptor end the answer. -/
theorem filledBefore_getD_last {i : Nat} (h : ∀ i, i < j → runPlaced ds q.length n i) (hlo : runsEnd ds j ≤ i) :
    (filledBefore ds q j ++ q.drop (valuesUsed ds j)).getD i 0 = q.getD (i - runsTotal ds j) 0 := by
  have hout := filledBefore_length h
  rw [List.getD_append_right _ _ _ _ (by omega), hout, getD_drop_valuesUsed h hlo]

end

/-- Settles O49: the inverse law run by run, the errors and the answer at the descriptor the decoder reaches. -/
theorem zeroRunInverse : Obligations.ZeroRunInverse := by
  refine ⟨zreDec_zreEnc, fun c n q ds => ⟨fun j => zreDec_out_of_place c, fun h => ⟨fun hne => ?_, fun heq => ?_⟩⟩⟩
  · rw [zreDec_in_place c h, if_neg hne]
  · have hout := (zreDec_in_place c h).trans (if_pos heq)
    have hplaced : ∀ {j}, j < ds.length → ∀ i, i < j + 1 → runPlaced ds q.length n i :=
      fun hj i hi => h i (Nat.lt_of_lt_of_le hi hj)
    refine ⟨_, hout, zreDec_length hout, fun j i hj hlo hhi => ?_, fun j i hj hlo hhi => ?_⟩
    · exact filledBefore_getD_run hj (hplaced hj) _ hlo hhi
    · rcases Nat.lt_or_eq_of_le hj with hlt | rfl
      · rw [if_pos hlt] at hhi
        exact filledBefore_getD_values hlt (hplaced hlt) _ hlo hhi
      · exact filledBefore_getD_last h hlo

end Sys2Proof.Machine
end

section
/-! ### The Rice coder: zig-zag map, parameter, code length (R220 to R225)

The zig-zag map doubles a value and exclusive-ors it with the word of its sign, which is 0 or all ones just where the
value fits 16 bits. Every other law of the coder is the arithmetic of division by `2 ^ k`. -/

namespace Sys2Proof.Machine

/-! #### The zig-zag map (R221, R222) -/

/-- The inverse map as arithmetic: half the number, or the negative odd half less one. -/
theorem unzigzag_eq {z : Nat} (hz : z < 2 ^ 32) :
    unzigzag z = if z % 2 = 0 then (z / 2 : Int) else -(z / 2 : Int) - 1 := by
  have hlow : BitVec.ofNat 32 z &&& 1#32 = BitVec.ofNat 32 (z % 2) :=
    BitVec.eq_of_toNat_eq (by simp; omega)
  have hhalf : (BitVec.ofNat 32 z >>> 1).toNat = z / 2 := by
    rw [BitVec.toNat_ushiftRight, BitVec.toNat_ofNat, Nat.mod_eq_of_lt hz, Nat.shiftRight_eq_div_pow, pow_one]
  rcases Nat.mod_two_eq_zero_or_one z with heven | hodd
  · simp only [unzigzag, hlow, heven, BitVec.neg_zero, BitVec.xor_zero]
    rw [BitVec.toInt_eq_toNat_of_lt (by omega), hhalf, if_pos trivial, Int.natCast_ediv, Nat.cast_ofNat]
  · simp only [unzigzag, hlow, hodd, BitVec.neg_one_eq_allOnes, BitVec.xor_allOnes]
    rw [BitVec.toInt_eq_toNat_cond, BitVec.toNat_not, hhalf, if_neg (by omega), if_neg (by decide)]
    omega

/-- A 32-bit value shifted left by one is doubled modulo 2^32. -/
theorem ofInt_shiftLeft_one_toNat (v : Int) : ((BitVec.ofInt 32 v <<< 1).toNat : Int) = 2 * v % 2 ^ 32 := by
  simp only [BitVec.toNat_shiftLeft, BitVec.toNat_ofInt, Nat.shiftLeft_eq]
  omega

/-- The shift right by ZZ_SHIFT is a floor division by 2^15. -/
theorem ofInt_sshiftRight_toInt {v : Int} (hlo : -2147483648 ≤ v) (hhi : v ≤ 2147483647) :
    ((BitVec.ofInt 32 v).sshiftRight Config.zzShift).toInt = v / 32768 := by
  rw [BitVec.toInt_sshiftRight, BitVec.toInt_ofInt_eq_self (by decide) (by omega) (by omega),
    Int.shiftRight_eq_div_pow]
  rfl

/-- The map only doubles where the value is a 16-bit one that is not negative. -/
theorem zigzag_eq_double_iff {v : Int} (hlo : -2147483648 ≤ v) (hhi : v ≤ 2147483647) :
    (zigzag v : Int) = 2 * v % 2 ^ 32 ↔ 0 ≤ v ∧ v ≤ 32767 := by
  have hshift := ofInt_sshiftRight_toInt hlo hhi
  calc (zigzag v : Int) = 2 * v % 2 ^ 32
    _ ↔ zigzag v = (BitVec.ofInt 32 v <<< 1).toNat := by rw [← ofInt_shiftLeft_one_toNat, Nat.cast_inj]
    _ ↔ (BitVec.ofInt 32 v).sshiftRight Config.zzShift = 0#32 := by
      rw [zigzag, BitVec.toNat_inj, ← BitVec.xor_right_inj (y := 0#32) (BitVec.ofInt 32 v <<< 1), BitVec.xor_zero]
    _ ↔ v / 32768 = 0 := by rw [← BitVec.toInt_inj, hshift, BitVec.toInt_zero]
    _ ↔ 0 ≤ v ∧ v ≤ 32767 := by omega

/-- The map doubles and complements where the value is a negative 16-bit one. -/
theorem zigzag_eq_not_double_iff {v : Int} (hlo : -2147483648 ≤ v) (hhi : v ≤ 2147483647) :
    (zigzag v : Int) = 2 ^ 32 - 1 - 2 * v % 2 ^ 32 ↔ -32768 ≤ v ∧ v < 0 := by
  have hshift := ofInt_sshiftRight_toInt hlo hhi
  have hnot : ((~~~(BitVec.ofInt 32 v <<< 1)).toNat : Int) = 2 ^ 32 - 1 - 2 * v % 2 ^ 32 := by
    rw [BitVec.toNat_not, ← ofInt_shiftLeft_one_toNat]
    omega
  calc (zigzag v : Int) = 2 ^ 32 - 1 - 2 * v % 2 ^ 32
    _ ↔ zigzag v = (~~~(BitVec.ofInt 32 v <<< 1)).toNat := by rw [← hnot, Nat.cast_inj]
    _ ↔ (BitVec.ofInt 32 v).sshiftRight Config.zzShift = BitVec.allOnes 32 := by
      rw [zigzag, BitVec.toNat_inj, ← BitVec.xor_allOnes, BitVec.xor_right_inj]
    _ ↔ v / 32768 = -1 := by rw [← BitVec.toInt_inj, hshift, BitVec.toInt_allOnes, if_pos (by decide)]
    _ ↔ -32768 ≤ v ∧ v < 0 := by omega

theorem zigzag_of_nonneg {v : Int} (hlo : 0 ≤ v) (hhi : v ≤ 32767) : (zigzag v : Int) = 2 * v := by
  rw [(zigzag_eq_double_iff (by omega) (by omega)).mpr ⟨hlo, hhi⟩]
  omega

theorem zigzag_of_neg {v : Int} (hlo : -32768 ≤ v) (hhi : v < 0) : (zigzag v : Int) = -2 * v - 1 := by
  rw [(zigzag_eq_not_double_iff (by omega) (by omega)).mpr ⟨hlo, hhi⟩]
  omega

/-- The map's value is a 32-bit word. -/
theorem zigzag_lt (v : Int) : zigzag v < 2 ^ 32 := BitVec.isLt _

theorem zigzag_of_fits16 {v : Int} (h : fits16 v) : (zigzag v : Int) = if 0 ≤ v then 2 * v else -2 * v - 1 := by
  obtain ⟨hlo, hhi⟩ := h
  split_ifs with hv
  · exact zigzag_of_nonneg hv hhi
  · exact zigzag_of_neg hlo (Int.not_le.mp hv)

theorem unzigzag_zigzag_of_fits16 {v : Int} (h : fits16 v) : unzigzag (zigzag v) = v := by
  have hmap := zigzag_of_fits16 h
  rw [unzigzag_eq (zigzag_lt v)]
  split_ifs at hmap ⊢ <;> omega

/-- A 32-bit value that comes back fits 16 bits: its parity says which of the two forms the map took. -/
theorem fits16_of_unzigzag_zigzag {v : Int} (hlo : -2147483648 ≤ v) (hhi : v ≤ 2147483647)
    (h : unzigzag (zigzag v) = v) : fits16 v := by
  have hlt := zigzag_lt v
  rw [unzigzag_eq hlt] at h
  split_ifs at h with heven
  · obtain ⟨-, hv⟩ := (zigzag_eq_double_iff hlo hhi).mp (by omega)
    exact ⟨by omega, hv⟩
  · obtain ⟨hv, -⟩ := (zigzag_eq_not_double_iff hlo hhi).mp (by omega)
    exact ⟨hv, by omega⟩

theorem fits16_unzigzag {z : Nat} (hz : z ≤ 65535) : fits16 (unzigzag z) := by
  rw [unzigzag_eq (by omega)]
  split_ifs <;> constructor <;> omega

theorem zigzag_unzigzag {z : Nat} (hz : z ≤ 65535) : zigzag (unzigzag z) = z := by
  have hmap := zigzag_of_fits16 (fits16_unzigzag hz)
  rw [unzigzag_eq (by omega)] at hmap ⊢
  split_ifs at hmap ⊢ <;> omega

/-- Settles O51: both directions on the 16-bit values by the two forms of each map, and no others. -/
theorem zigzagInverse : Obligations.ZigzagInverse := by
  refine ⟨fun v hv => ⟨unzigzag_zigzag_of_fits16 hv, ?_, zigzag_of_fits16 hv⟩,
    fun z hz => ⟨fits16_unzigzag hz, zigzag_unzigzag hz⟩,
    fun v hlo hhi hwide h => hwide (fits16_of_unzigzag_zigzag hlo hhi h)⟩
  have hmap := zigzag_of_fits16 hv
  obtain ⟨hlo, hhi⟩ := hv
  split_ifs at hmap <;> omega

/-! #### The parameter selector (R223) -/

theorem kSel_eq_log2 (zs : List Nat) : kSel zs = Nat.log2 (zs.sum / zs.length + 1) := by
  rw [kSel, bitlen, if_neg (Nat.succ_ne_zero _), Nat.add_sub_cancel]

/-- The floored mean plus one is the floor of the real mean plus one. -/
theorem mean_succ {zs : List Nat} (h : zs ≠ []) :
    zs.sum / zs.length + 1 = (zs.sum + zs.length) / zs.length :=
  (Nat.add_div_right _ (List.length_pos_iff.mpr h)).symm

theorem pow_kSel_mul_le {zs : List Nat} (h : zs ≠ []) : 2 ^ kSel zs * zs.length ≤ zs.sum + zs.length := by
  rw [← Nat.le_div_iff_mul_le (List.length_pos_iff.mpr h), ← mean_succ h, kSel_eq_log2]
  exact Nat.log2_self_le (Nat.succ_ne_zero _)

theorem lt_pow_kSel_succ_mul {zs : List Nat} (h : zs ≠ []) :
    zs.sum + zs.length < 2 ^ (kSel zs + 1) * zs.length := by
  rw [← Nat.div_lt_iff_lt_mul (List.length_pos_iff.mpr h), ← mean_succ h, kSel_eq_log2]
  exact Nat.lt_log2_self

/-- Values below `2 ^ b` have a parameter of at most `b`. -/
theorem kSel_le {zs : List Nat} {b : Nat} (h : ∀ z ∈ zs, z < 2 ^ b) : kSel zs ≤ b := by
  by_cases hnil : zs = []
  · subst hnil
    exact Nat.zero_le b
  have hpow : 2 ^ kSel zs * zs.length ≤ 2 ^ b * zs.length := calc
    2 ^ kSel zs * zs.length ≤ zs.sum + zs.length := pow_kSel_mul_le hnil
    _ ≤ zs.length * (2 ^ b - 1) + zs.length :=
      Nat.add_le_add_right (List.sum_le_card_nsmul zs _ fun z hz => Nat.le_sub_one_of_lt (h z hz)) _
    _ = 2 ^ b * zs.length := by
      rw [← Nat.mul_succ, Nat.succ_eq_add_one, Nat.sub_add_cancel (Nat.one_le_two_pow), Nat.mul_comm]
  exact (Nat.pow_le_pow_iff_right (by decide)).mp (Nat.le_of_mul_le_mul_right hpow (List.length_pos_iff.mpr hnil))

/-- Settles O52: the floored mean plus one lies between the two powers, and bounded values bound it. -/
theorem parameterIsFloorLog : Obligations.ParameterIsFloorLog := fun _ hnil =>
  ⟨pow_kSel_mul_le hnil, lt_pow_kSel_succ_mul hnil, kSel_le, fun h => kSel_le fun z hz => Nat.lt_succ_of_le (h z hz)⟩

/-! #### The length of the code (R220, R224, R225) -/

@[simp] theorem msbBits_length (u k : Nat) : (msbBits u k).length = k := by
  induction k with
  | zero => rfl
  | succ k ih => rw [msbBits, List.length_cons, ih]

@[simp] theorem emit_length (k z : Nat) : (emit k z).length = z / 2 ^ k + 1 + k := by
  simp [emit, Nat.shiftRight_eq_div_pow]
  omega

theorem blockBits_length (b : List Int) :
    (blockBits b).length = ((b.map zigzag).map (fun z => z / 2 ^ blockParam b + 1 + blockParam b)).sum := by
  simp only [blockBits, List.length_flatMap, emit_length]

/-- The quotients of a sum's terms are no more than the quotient of the sum. -/
theorem mul_sum_map_div_le (zs : List Nat) (d : Nat) : d * (zs.map (· / d)).sum ≤ zs.sum := by
  rw [← List.sum_map_mul_left]
  exact (List.sum_le_sum fun z _ => Nat.mul_div_le z d).trans_eq (by rw [List.map_id'])

/-- The quotients under the selected parameter sum to less than two a value. -/
theorem sum_quotients_lt {zs : List Nat} (h : zs ≠ []) :
    (zs.map (· / 2 ^ kSel zs)).sum < 2 * zs.length := by
  have hpow : 2 ^ kSel zs * (zs.map (· / 2 ^ kSel zs)).sum < 2 ^ kSel zs * (2 * zs.length) := calc
    _ ≤ zs.sum := mul_sum_map_div_le zs _
    _ ≤ zs.sum + zs.length := Nat.le_add_right _ _
    _ < 2 ^ (kSel zs + 1) * zs.length := lt_pow_kSel_succ_mul h
    _ = 2 ^ kSel zs * (2 * zs.length) := by rw [pow_succ, Nat.mul_assoc]
  exact Nat.lt_of_mul_lt_mul_left hpow

theorem blockBits_length_lt {b : List Int} (h : b ≠ []) : (blockBits b).length < b.length * (blockParam b + 3) := by
  have hquot : ((b.map zigzag).map (· / 2 ^ blockParam b)).sum < 2 * (b.map zigzag).length :=
    sum_quotients_lt (by simpa using h)
  have hsum : (blockBits b).length =
      ((b.map zigzag).map (· / 2 ^ blockParam b)).sum + b.length * (1 + blockParam b) := by
    simp only [blockBits_length, Nat.add_assoc, List.sum_map_add, List.map_const', List.sum_replicate,
      List.length_map, smul_eq_mul]
  rw [List.length_map] at hquot
  rw [hsum]
  linarith

theorem blocksOf_length (q : List Int) : (blocksOf q).length = (q.length + 4095) / 4096 := by
  rw [← riceParams_length, riceParams, List.length_map]

theorem blocksOf_getElem? (q : List Int) {j : Nat} (hj : j < (q.length + 4095) / 4096) :
    (blocksOf q)[j]? = some ((q.drop (4096 * j)).take 4096) := by
  rw [← blocksOf_length] at hj
  rw [List.getElem?_eq_getElem hj]
  simp only [blocksOf, List.getElem_map, List.getElem_range]
  rfl

/-- Settles O53: a codeword's length summed over the block, and the blocks by their places. -/
theorem codeLengthBound : Obligations.CodeLengthBound := by
  refine ⟨fun b hb => ⟨blockBits_length b, ?_, blockBits_length_lt hb⟩,
    fun q => ⟨List.length_flatMap, blocksOf_length q, fun j hj => ⟨?_, ?_⟩⟩⟩
  · exact (sum_quotients_lt (by simpa using hb)).trans_eq (by rw [List.length_map])
  · rw [List.getD_eq_getElem?_getD, blocksOf_getElem? q hj, Option.getD_some]
  · rw [List.getD_eq_getElem?_getD, riceParams, List.getElem?_map, blocksOf_getElem? q hj]
    rfl

end Sys2Proof.Machine
end

section
/-! ### The Rice decoder (R227, R251)

A block's values are read one after another and blocks in order, so what the decoder gives for the values before any
index is where it stands when it comes to that index: with the whole blocks done, and part of the next. The inverse law
is followed codeword by codeword, value by value, and block by block. -/

namespace Sys2Proof.Machine

section

variable {e : Source} {c p0 : Nat}

/-! #### Bits that the reader meets -/

/-- From bit `t` on, a reader meets these bits. -/
def holdsBits (e : Source) (c p0 t : Nat) (bits : List Bool) : Prop :=
  ∀ i, (h : i < bits.length) → readBit e c p0 (t + i) = .ok bits[i]

theorem holdsBits_append {t : Nat} {as bs : List Bool} :
    holdsBits e c p0 t (as ++ bs) ↔ holdsBits e c p0 t as ∧ holdsBits e c p0 (t + as.length) bs := by
  refine ⟨fun h => ⟨fun i hi => ?_, fun i hi => ?_⟩, fun ⟨ha, hb⟩ i hi => ?_⟩
  · rw [h i (by rw [List.length_append]; omega), List.getElem_append_left hi]
  · rw [Nat.add_assoc, h (as.length + i) (by rw [List.length_append]; omega),
      List.getElem_append_right (Nat.le_add_right _ _)]
    simp only [Nat.add_sub_cancel_left]
  · by_cases hlt : i < as.length
    · rw [ha i hlt, List.getElem_append_left hlt]
    · have hright := hb (i - as.length) (by rw [List.length_append] at hi; omega)
      rw [Nat.add_assoc, Nat.add_sub_cancel' (Nat.not_lt.mp hlt)] at hright
      rw [hright, List.getElem_append_right (Nat.not_lt.mp hlt)]

theorem holdsBits_cons {t : Nat} {b : Bool} {bs : List Bool} :
    holdsBits e c p0 t (b :: bs) ↔ readBit e c p0 t = .ok b ∧ holdsBits e c p0 (t + 1) bs := by
  have hsingle : holdsBits e c p0 t [b] ↔ readBit e c p0 t = .ok b := by
    simp [holdsBits]
  rw [← hsingle]
  exact holdsBits_append (as := [b])

theorem holdsBits_replicate_true {t u : Nat} :
    holdsBits e c p0 t (List.replicate u true) ↔ ∀ x, x < u → readBit e c p0 (t + x) = .ok true := by
  simp [holdsBits]

/-! #### One codeword -/

section

variable {t u : Nat} (hones : ∀ x, x < u → readBit e c p0 (t + x) = .ok true)

include hones

/-- A bit missing in the quotient stops the value. -/
theorem readValue_quotient_error {x : Err} (k : Nat) (hx : readBit e c p0 (t + u) = .error x) :
    readValue e c p0 k t = .error x := by
  rw [readValue, readUnary_error _ 0 t (lt_bitsLeft hones) hones hx]

/-- After its quotient a value is what its remainder gives. -/
theorem readValue_of_quotient (k : Nat) (hzero : readBit e c p0 (t + u) = .ok false) :
    readValue e c p0 k t =
      (readBinary e c p0 k 0 (t + u + 1)).map fun r => (unzigzag ((u * 2 ^ k + r.1) % 2 ^ 32), r.2) := by
  simp only [readValue, readUnary_ok _ 0 t (lt_bitsLeft hones) hones hzero, Nat.zero_add]
  cases readBinary e c p0 k 0 (t + u + 1) <;> rfl

/-- A bit missing in the remainder stops the value. -/
theorem readValue_remainder_error {x : Err} {k : Nat} {bs : List Bool}
    (hzero : readBit e c p0 (t + u) = .ok false) (hbits : holdsBits e c p0 (t + u + 1) bs) (hk : bs.length < k)
    (hx : readBit e c p0 (t + u + 1 + bs.length) = .error x) : readValue e c p0 k t = .error x := by
  rw [readValue_of_quotient hones k hzero, readBinary_error k 0 _ hk hbits hx]
  rfl

/-- The value of a whole codeword. -/
theorem readValue_ok {bs : List Bool} (hzero : readBit e c p0 (t + u) = .ok false)
    (hbits : holdsBits e c p0 (t + u + 1) bs) :
    readValue e c p0 bs.length t =
      .ok (unzigzag ((u * 2 ^ bs.length + bs.foldl (fun r b => 2 * r + b.toNat) 0) % 2 ^ 32),
        t + u + 1 + bs.length) := by
  rw [readValue_of_quotient hones _ hzero, readBinary_ok 0 _ hbits]
  rfl

end

/-- The low `k` bits, gathered most significant first, are the number modulo `2 ^ k` (R12). -/
theorem foldl_msbBits (u k r : Nat) :
    (msbBits u k).foldl (fun r b => 2 * r + b.toNat) r = r * 2 ^ k + u % 2 ^ k := by
  induction k generalizing r with
  | zero => simp [msbBits, Nat.mod_one]
  | succ k ih =>
    rw [msbBits, List.foldl_cons, ih, Nat.toNat_testBit, Nat.mod_pow_succ]
    ring

/-- The codeword of a 32-bit number is read back as the inverse zig-zag of the number (R224). -/
theorem readValue_emit {k z t : Nat} (hz : z < 2 ^ 32) (h : holdsBits e c p0 t (emit k z)) :
    readValue e c p0 k t = .ok (unzigzag z, t + (emit k z).length) := by
  rw [emit, holdsBits_append, holdsBits_cons, List.length_replicate, holdsBits_replicate_true] at h
  obtain ⟨hones, hzero, hbits⟩ := h
  have hread := readValue_ok hones hzero hbits
  rw [msbBits_length, foldl_msbBits, Nat.zero_mul, Nat.zero_add, Nat.mod_mod, Nat.shiftRight_eq_div_pow,
    Nat.div_add_mod', Nat.mod_eq_of_lt hz] at hread
  rw [hread, emit_length, Nat.add_assoc t, Nat.add_assoc t]

/-- The codewords of a list are read back one after another. -/
theorem readValues_emit {k t : Nat} {zs : List Nat} (hz : ∀ z ∈ zs, z < 2 ^ 32)
    (h : holdsBits e c p0 t (zs.flatMap (emit k))) :
    readValues e c p0 k zs.length t = .ok (zs.map unzigzag, t + (zs.flatMap (emit k)).length) := by
  induction zs generalizing t with
  | nil => rfl
  | cons z zs ih =>
    obtain ⟨hz, hzs⟩ := List.forall_mem_cons.mp hz
    rw [List.flatMap_cons, holdsBits_append] at h
    obtain ⟨hfirst, hrest⟩ := h
    rw [List.length_cons, readValues, readValue_emit hz hfirst]
    simp only [ih hzs hrest, List.flatMap_cons, List.length_append, List.map_cons, Nat.add_assoc]

/-! #### Blocks -/

/-- A result with values put before it. -/
def prepend (vs : List Int) (r : List Int × Nat) : List Int × Nat := (vs ++ r.1, r.2)

/-- How many values block `j` of `n` holds, with the parameters after its own (R227). -/
def blockLen (n j : Nat) (rest : List Int) : Nat := if rest.isEmpty then n - 4096 * j else 4096

theorem blockLen_nil (n j : Nat) : blockLen n j [] = n - 4096 * j := rfl

theorem blockLen_of_ne_nil (n j : Nat) {rest : List Int} (h : rest ≠ []) : blockLen n j rest = 4096 :=
  if_neg (by simpa using h)

/-- A parameter out of range stops at its block. -/
theorem readBlocks_bad_param {n j t : Nat} {k : Int} (h : k < 0 ∨ 32 < k) (ks : List Int) :
    readBlocks e c p0 n j (k :: ks) t = .error ⟨.inconsistent, 1, j, c, 0⟩ := if_pos h

/-- A block's values, then the blocks after it. -/
theorem readBlocks_cons {n j t : Nat} {k : Int} (h : ¬(k < 0 ∨ 32 < k)) (ks : List Int) :
    readBlocks e c p0 n j (k :: ks) t =
      (readValues e c p0 k.toNat (blockLen n j ks) t).bind fun r =>
        (readBlocks e c p0 n (j + 1) ks r.2).map (prepend r.1) := by
  have hlen : (if ks.isEmpty then n - Config.block * j else Config.block) = blockLen n j ks := rfl
  simp only [readBlocks, Config.maxParam, Nat.cast_ofNat, if_neg h, hlen]
  rcases readValues e c p0 k.toNat (blockLen n j ks) t with x | ⟨vs, t1⟩
  · rfl
  · simp only [Except.bind]
    cases readBlocks e c p0 n (j + 1) ks t1 <;> rfl

/-- A single block of an accepted parameter is its values. -/
theorem readBlocks_singleton {n j t : Nat} {k : Int} (h : ¬(k < 0 ∨ 32 < k)) :
    readBlocks e c p0 n j [k] t = readValues e c p0 k.toNat (n - 4096 * j) t := by
  rw [readBlocks_cons h, blockLen_nil]
  rcases readValues e c p0 k.toNat (n - 4096 * j) t with x | ⟨vs, t1⟩
  · rfl
  · simp only [Except.bind, Except.map, readBlocks, prepend, List.append_nil]

/-- Blocks before the last are whole, whatever the count: they are read first, as if there were no more. -/
theorem readBlocks_append (n j t : Nat) (as : List Int) {bs : List Int} (hbs : bs ≠ []) :
    readBlocks e c p0 n j (as ++ bs) t =
      (readBlocks e c p0 (4096 * (j + as.length)) j as t).bind fun r =>
        (readBlocks e c p0 n (j + as.length) bs r.2).map (prepend r.1) := by
  induction as generalizing j t with
  | nil =>
    simp only [readBlocks, List.nil_append, List.length_nil, Nat.add_zero, Except.bind]
    cases readBlocks e c p0 n j bs t <;> rfl
  | cons k as ih =>
    by_cases hk : k < 0 ∨ 32 < k
    · rw [List.cons_append, readBlocks_bad_param hk, readBlocks_bad_param hk]
      rfl
    · have hwhole : blockLen (4096 * (j + (k :: as).length)) j as = 4096 := by
        cases as with
        | nil => rw [blockLen_nil, List.length_singleton]; omega
        | cons k' as => exact blockLen_of_ne_nil _ _ (List.cons_ne_nil _ _)
      rw [List.cons_append, readBlocks_cons hk, readBlocks_cons hk, hwhole, blockLen_of_ne_nil _ _ (by simp [hbs])]
      rw [List.length_cons, Nat.add_comm as.length 1, ← Nat.add_assoc]
      rcases readValues e c p0 k.toNat 4096 t with x | ⟨vs, t1⟩
      · rfl
      · simp only [Except.bind, ih]
        rcases readBlocks e c p0 (4096 * (j + 1 + as.length)) (j + 1) as t1 with x | ⟨ws, t2⟩
        · rfl
        · simp only [Except.map, prepend]
          rcases readBlocks e c p0 n (j + 1 + as.length) bs t2 with x | r
          · rfl
          · simp only [List.append_assoc]

/-! #### The sequence value by value -/

theorem riceDec_of_length {n : Nat} {ks : List Int} (h : ks.length = (n + 4095) / 4096) :
    riceDec e c p0 n ks = readBlocks e c p0 n 0 ks 0 := if_neg (not_not.mpr h)

theorem riceDec_of_length_ne {n : Nat} {ks : List Int} (h : ks.length ≠ (n + 4095) / 4096) :
    riceDec e c p0 n ks = .error ⟨.inconsistent, 0, ks.length, c, 0⟩ := if_pos h

/-- The blocks before block `j` are decoded as a sequence of their own, and the rest follows. -/
theorem riceDec_split {n j : Nat} {ks : List Int} {k : Int} (hlen : ks.length = (n + 4095) / 4096)
    (hk : ks[j]? = some k) :
    riceDec e c p0 n ks =
      (riceDec e c p0 (4096 * j) (ks.take j)).bind fun r =>
        (readBlocks e c p0 n j (k :: ks.drop (j + 1)) r.2).map (prepend r.1) := by
  obtain ⟨hj, rfl⟩ := List.getElem?_eq_some_iff.mp hk
  have htake : (ks.take j).length = j := List.length_take_of_le hj.le
  have hblocks : readBlocks e c p0 n 0 ks 0 = readBlocks e c p0 n 0 (ks.take j ++ ks[j] :: ks.drop (j + 1)) 0 := by
    rw [← List.drop_eq_getElem_cons hj, List.take_append_drop]
  rw [riceDec_of_length hlen, riceDec_of_length (by rw [htake]; omega), hblocks,
    readBlocks_append _ _ _ _ (List.cons_ne_nil _ _), htake, Nat.zero_add]

/-- As many values as end in block `j` are the whole blocks before it and the values of its own. -/
theorem riceDec_within {n j : Nat} {ks : List Int} {k : Int} (hlo : 4096 * j < n) (hhi : n ≤ 4096 * (j + 1))
    (hk : ks[j]? = some k) :
    riceDec e c p0 n (ks.take (j + 1)) =
      (riceDec e c p0 (4096 * j) (ks.take j)).bind fun r =>
        (readBlocks e c p0 n j [k] r.2).map (prepend r.1) := by
  obtain ⟨hj, -⟩ := List.getElem?_eq_some_iff.mp hk
  have hlen : (ks.take (j + 1)).length = (n + 4095) / 4096 := by
    rw [List.length_take]
    omega
  rw [riceDec_split hlen (by rwa [List.getElem?_take_of_lt (Nat.lt_succ_self j)]), List.take_take,
    min_eq_left (Nat.le_succ j), List.drop_take_self]

section

variable {i t : Nat} {q ks : List Int} {k : Int} (hk : ks[i / 4096]? = some k)
  (hdone : riceDec e c p0 i (ks.take ((i + 4095) / 4096)) = .ok (q, t))

include hk hdone

/-- With the values before index `i` decoded, the whole blocks before it are, and the values before it in its own
block. -/
theorem riceDec_reached : ∃ qa ta qb,
    riceDec e c p0 (4096 * (i / 4096)) (ks.take (i / 4096)) = .ok (qa, ta) ∧
    readValues e c p0 k.toNat (i % 4096) ta = .ok (qb, t) ∧ q = qa ++ qb := by
  by_cases hstart : i % 4096 = 0
  · rw [show (i + 4095) / 4096 = i / 4096 by omega] at hdone
    refine ⟨q, t, [], ?_, by rw [hstart]; rfl, (List.append_nil q).symm⟩
    rwa [show 4096 * (i / 4096) = i by omega]
  · rw [show (i + 4095) / 4096 = i / 4096 + 1 by omega, riceDec_within (by omega) (by omega) hk] at hdone
    rcases hwhole : riceDec e c p0 (4096 * (i / 4096)) (ks.take (i / 4096)) with x | ⟨qa, ta⟩
    · rw [hwhole] at hdone
      cases hdone
    by_cases hbad : k < 0 ∨ 32 < k
    · rw [hwhole, Except.bind, readBlocks_bad_param hbad] at hdone
      cases hdone
    rw [hwhole, Except.bind, readBlocks_singleton hbad, show i - 4096 * (i / 4096) = i % 4096 by omega] at hdone
    rcases hpart : readValues e c p0 k.toNat (i % 4096) ta with x | ⟨qb, tb⟩
    · rw [hpart] at hdone
      cases hdone
    · rw [hpart] at hdone
      cases hdone
      exact ⟨qa, ta, qb, rfl, hpart, rfl⟩

/-- A parameter out of range stops at its block's first value, and at any later one. -/
theorem riceDec_param_error {n : Nat} (hlen : ks.length = (n + 4095) / 4096) (hbad : k < 0 ∨ 32 < k) :
    riceDec e c p0 n ks = .error ⟨.inconsistent, 1, i / 4096, c, 0⟩ := by
  obtain ⟨qa, ta, qb, hwhole, -, -⟩ := riceDec_reached hk hdone
  rw [riceDec_split hlen hk, hwhole, Except.bind, readBlocks_bad_param hbad]
  rfl

variable (hgood : ¬(k < 0 ∨ 32 < k))

include hgood

/-- A value that cannot be read stops the sequence with the reader's error. -/
theorem riceDec_value_error {n : Nat} {x : Err} (hlen : ks.length = (n + 4095) / 4096) (hi : i < n)
    (hx : readValue e c p0 k.toNat t = .error x) : riceDec e c p0 n ks = .error x := by
  obtain ⟨qa, ta, qb, hwhole, hpart, -⟩ := riceDec_reached hk hdone
  have hmore : i % 4096 < blockLen n (i / 4096) (ks.drop (i / 4096 + 1)) := by
    by_cases hlast : ks.drop (i / 4096 + 1) = []
    · rw [hlast, blockLen_nil]
      omega
    · rw [blockLen_of_ne_nil _ _ hlast]
      omega
  rw [riceDec_split hlen hk, hwhole, Except.bind, readBlocks_cons hgood, readValues_error hpart hx hmore]
  rfl

/-- A value that can be read is the sequence's next. -/
theorem riceDec_succ {v : Int} {t' : Nat} (hv : readValue e c p0 k.toNat t = .ok (v, t')) :
    riceDec e c p0 (i + 1) (ks.take (i / 4096 + 1)) = .ok (q ++ [v], t') := by
  obtain ⟨qa, ta, qb, hwhole, hpart, rfl⟩ := riceDec_reached hk hdone
  rw [riceDec_within (by omega) (by omega) hk, hwhole, Except.bind, readBlocks_singleton hgood,
    show i + 1 - 4096 * (i / 4096) = i % 4096 + 1 by omega, readValues_snoc hpart hv]
  simp only [Except.map, prepend, List.append_assoc]

end

/-! #### The inverse law -/

/-- The first 4096 values are the first block, and the blocks of the rest follow (R220). -/
theorem blocksOf_eq_cons {q : List Int} (hq : q ≠ []) : blocksOf q = q.take 4096 :: blocksOf (q.drop 4096) := by
  have hpos := List.length_pos_iff.mpr hq
  have hcount : blockCount q.length = blockCount (q.drop 4096).length + 1 := by
    simp only [blockCount, ceilDiv, Config.block, List.length_drop]
    omega
  have hshift : blockAt q ∘ Nat.succ = blockAt (q.drop 4096) := by
    funext j
    simp only [Function.comp_apply, blockAt, Config.block, List.drop_drop]
    congr 2
    omega
  rw [blocksOf, hcount, List.range_succ_eq_map, List.map_cons, List.map_map, hshift]
  rfl

/-- Induction block by block. -/
theorem blocks_induction {P : List Int → Prop} (nil : P []) (block : ∀ q, q ≠ [] → P (q.drop 4096) → P q)
    (q : List Int) : P q := by
  induction hn : q.length using Nat.strong_induction_on generalizing q with
  | _ n ih =>
    by_cases hq : q = []
    · exact hq ▸ nil
    · have hpos := List.length_pos_iff.mpr hq
      exact block q hq (ih _ (by rw [List.length_drop]; omega) _ rfl)

theorem riceBits_eq_append {q : List Int} (hq : q ≠ []) :
    riceBits q = blockBits (q.take 4096) ++ riceBits (q.drop 4096) := by
  rw [riceBits, blocksOf_eq_cons hq]
  rfl

theorem riceParams_eq_cons {q : List Int} (hq : q ≠ []) :
    riceParams q = blockParam (q.take 4096) :: riceParams (q.drop 4096) := by
  rw [riceParams, blocksOf_eq_cons hq]
  rfl

theorem riceParams_drop_eq_nil_iff (q : List Int) : riceParams (q.drop 4096) = [] ↔ q.length ≤ 4096 := by
  rw [← List.length_eq_zero_iff, riceParams_length, List.length_drop]
  omega

/-- The first block holds what its place among the parameters says. -/
theorem blockLen_riceParams {q : List Int} {n j : Nat} (hn : n = 4096 * j + q.length) :
    blockLen n j ((riceParams (q.drop 4096)).map Int.ofNat) = (q.take 4096).length := by
  have hlast := riceParams_drop_eq_nil_iff q
  rw [List.length_take]
  by_cases hshort : q.length ≤ 4096
  · rw [hlast.mpr hshort, List.map_nil, blockLen_nil]
    omega
  · rw [blockLen_of_ne_nil _ _ (by rwa [ne_eq, List.map_eq_nil_iff, hlast])]
    omega

theorem zigzag_words (b : List Int) : ∀ z ∈ b.map zigzag, z < 2 ^ 32 :=
  List.forall_mem_map.mpr fun v _ => zigzag_lt v

/-- The encoder selects a parameter that the decoder accepts. -/
theorem blockParam_le (b : List Int) : blockParam b ≤ 32 := kSel_le (zigzag_words b)

/-- The bits of one block are read back as the block. -/
theorem readValues_blockBits {b : List Int} {t : Nat} (h : holdsBits e c p0 t (blockBits b)) :
    readValues e c p0 (blockParam b) b.length t =
      .ok (b.map (fun v => unzigzag (zigzag v)), t + (blockBits b).length) := by
  have hread := readValues_emit (zigzag_words b) h
  rwa [List.length_map, List.map_map] at hread

/-- The bits of the blocks of `q` are read back as `q`, from any block on. -/
theorem readBlocks_riceBits (q : List Int) {n j t : Nat} (hn : q ≠ [] → n = 4096 * j + q.length)
    (h : holdsBits e c p0 t (riceBits q)) :
    readBlocks e c p0 n j ((riceParams q).map Int.ofNat) t =
      .ok (q.map (fun v => unzigzag (zigzag v)), t + (riceBits q).length) := by
  induction q using blocks_induction generalizing j t with
  | nil => rfl
  | block q hq ih =>
    have hparam := blockParam_le (q.take 4096)
    have hrest : q.drop 4096 ≠ [] → n = 4096 * (j + 1) + (q.drop 4096).length := fun hdrop => by
      have hpos := List.length_pos_iff.mpr hdrop
      rw [List.length_drop] at hpos ⊢
      rw [hn hq]
      omega
    rw [riceBits_eq_append hq, holdsBits_append] at h
    obtain ⟨hfirst, hlater⟩ := h
    rw [riceParams_eq_cons hq, List.map_cons, readBlocks_cons (by rw [Int.ofNat_eq_natCast]; omega),
      blockLen_riceParams (hn hq), Int.ofNat_eq_natCast, Int.toNat_natCast, readValues_blockBits hfirst]
    simp only [Except.bind, ih hrest hlater, Except.map, prepend]
    rw [← List.map_append, List.take_append_drop, riceBits_eq_append hq, List.length_append, Nat.add_assoc]

theorem riceDec_riceBits {q : List Int} (h : holdsBits e c p0 0 (riceBits q)) :
    riceDec e c p0 q.length ((riceParams q).map Int.ofNat) =
      .ok (q.map (fun v => unzigzag (zigzag v)), (riceBits q).length) := by
  rw [riceDec_of_length (by rw [List.length_map, riceParams_length]),
    readBlocks_riceBits q (fun _ => by omega) h, Nat.zero_add]

end

theorem map_unzigzag_zigzag {q : List Int} (h : ∀ v ∈ q, fits16 v) :
    q.map (fun v => unzigzag (zigzag v)) = q :=
  (List.map_congr_left fun v hv => unzigzag_zigzag_of_fits16 (h v hv)).trans (List.map_id' q)

/-- Settles O54: the inverse law block by block, the reader bit by bit, and any input at the value it reaches. -/
theorem riceInverse : Obligations.RiceInverse := by
  refine ⟨fun q e c p0 hbits => ⟨riceDec_riceBits fun i hi => ?_, map_unzigzag_zigzag⟩, fun _ _ _ _ => rfl,
    fun e c p0 n ks => ⟨riceDec_of_length_ne, ?_, fun i t q k hlen hi hdone hk => ⟨?_, ?_⟩⟩⟩
  · rw [Nat.zero_add, hbits i hi]
  · rintro rfl rfl
    rfl
  · exact riceDec_param_error hk hdone hlen
  · intro hlo hhi u hones
    have hgood : ¬(k < 0 ∨ 32 < k) := by omega
    have hstop : ∀ {x}, readValue e c p0 k.toNat t = .error x → riceDec e c p0 n ks = .error x :=
      riceDec_value_error hk hdone hgood hlen hi
    refine ⟨fun x hx => hstop (readValue_quotient_error hones _ hx), fun hzero bs hbits => ⟨fun hlt x hx => ?_,
      fun heq => riceDec_succ hk hdone hgood ?_⟩⟩
    · exact hstop (readValue_remainder_error hones hzero hbits (by omega) hx)
    · rw [← heq, Int.toNat_natCast]
      exact readValue_ok hones hzero hbits

end Sys2Proof.Machine
end

section
/-! ### The bit packer and its padding (R250 to R253)

The packer is followed bit by bit, the gathered bits being those of its accumulator. A reader that succeeds has met a
string of bits, and answers the same over every input that holds that string where the reader began. -/

namespace Sys2Proof.Machine

/-! #### The bits of the packed bytes (R250) -/

theorem testBit_double_add (acc : Nat) (b : Bool) (i : Nat) :
    (2 * acc + b.toNat).testBit i = if i = 0 then b else acc.testBit (i - 1) := by
  rw [← Nat.bit_val]
  cases i with
  | zero => exact Nat.testBit_bit_zero b acc
  | succ i => exact Nat.testBit_bit_succ i b acc

/-- With `k` bits gathered, the packed bits are these and then the bits to come, 0 past the last. -/
theorem packFrom_bit (bits : List Bool) {k : Nat} (hk : k < 8) (acc m : Nat) {t : Nat} (ht : t < 8) :
    ((packFrom k acc bits).getD m 0#8).getLsbD (7 - t) =
      if 8 * m + t < k then acc.testBit (k - 1 - (8 * m + t)) else bits.getD (8 * m + t - k) false := by
  induction bits generalizing k acc m with
  | nil =>
    by_cases h0 : k = 0
    · simp [packFrom, h0]
    · cases m with
      | zero =>
        rw [packFrom, if_neg h0, List.getD_cons_zero, BitVec.getLsbD_ofNat, Nat.testBit_mul_two_pow]
        by_cases hgathered : t < k
        · simp [hgathered, show 7 - t < 8 by omega, show 8 - k ≤ 7 - t by omega,
            show 7 - t - (8 - k) = k - 1 - t by omega]
        · simp [hgathered, show ¬ 8 - k ≤ 7 - t by omega]
      | succ m => simp [packFrom, h0, show ¬ 8 * (m + 1) + t < k by omega]
  | cons b bits ih =>
    by_cases h7 : k = 7
    · subst h7
      rw [packFrom, if_pos rfl]
      cases m with
      | zero =>
        rw [List.getD_cons_zero, BitVec.getLsbD_ofNat, testBit_double_add]
        by_cases hlast : t = 7
        · simp [hlast]
        · simp [show ¬ 7 - t = 0 by omega, show t < 7 by omega, show 7 - t - 1 = 6 - t by omega,
            show 7 - t < 8 by omega]
      | succ m =>
        rw [List.getD_cons_succ, ih (by decide), if_neg (by omega), if_neg (by omega),
          show 8 * (m + 1) + t - 7 = 8 * m + t - 0 + 1 by omega, List.getD_cons_succ]
    · rw [packFrom, if_neg h7, ih (by omega), testBit_double_add]
      rcases Nat.lt_trichotomy (8 * m + t) k with hlt | heq | hgt
      · rw [if_pos (by omega), if_neg (by omega), if_pos hlt,
          show k + 1 - 1 - (8 * m + t) - 1 = k - 1 - (8 * m + t) by omega]
      · simp [heq]
      · rw [if_neg (by omega), if_neg (by omega), show 8 * m + t - k = 8 * m + t - (k + 1) + 1 by omega,
          List.getD_cons_succ]

/-- Also past the last byte, where both sides are 0. -/
theorem pack_bit (bits : List Bool) (m : Nat) {t : Nat} (ht : t < 8) :
    ((pack bits).getD m 0#8).getLsbD (7 - t) = bits.getD (8 * m + t) false := by
  rw [pack, packFrom_bit bits (by decide) 0 m ht, if_neg (Nat.not_lt_zero _), Nat.sub_zero]

/-- Settles O55: the bits of the packer by induction on the bits to come, from an empty accumulator. -/
theorem packedBitsAreMsbFirst : Obligations.PackedBitsAreMsbFirst := fun bits =>
  ⟨pack_length bits, fun m _ _ ht => pack_bit bits m ht⟩

/-! #### The bits a reader depends on (R251, R253) -/

/-- Whatever the reader answers from bit `t` on, it answers over every input that holds the bits it read. -/
def dependsOnBitsRead {α : Type} (c p0 t : Nat) (read : Source → Except Err (α × Nat)) : Prop :=
  ∀ e r t', read e = .ok (r, t') → ∃ bits, holdsBits e c p0 t bits ∧ t' = t + bits.length ∧
    ∀ e', holdsBits e' c p0 t bits → read e' = .ok (r, t')

section

variable {e : Source} {c p0 t : Nat}

theorem dependsOnBitsRead_ok {α : Type} (r : α) : dependsOnBitsRead c p0 t (fun _ => .ok (r, t)) := by
  intro e r' t' h
  cases h
  exact ⟨[], fun _ hi => absurd hi (Nat.not_lt_zero _), rfl, fun _ _ => rfl⟩

theorem dependsOnBitsRead_error {α : Type} (x : Err) :
    dependsOnBitsRead (α := α) c p0 t (fun _ => .error x) := fun _ _ _ h => nomatch h

/-- One reader after another, their answers put together. -/
theorem dependsOnBitsRead_seq {α β γ : Type} {f : Source → Except Err (α × Nat)}
    {g : Nat → Source → Except Err (β × Nat)} (join : α → β → γ) (hf : dependsOnBitsRead c p0 t f)
    (hg : ∀ t1, dependsOnBitsRead c p0 t1 (g t1)) :
    dependsOnBitsRead c p0 t (fun e => (f e).bind fun r => (g r.2 e).map fun s => (join r.1 s.1, s.2)) := by
  intro e r t' h
  rcases hfirst : f e with x | ⟨a, t1⟩
  · simp [hfirst, Except.bind] at h
  rcases hsecond : g t1 e with x | ⟨b, t2⟩
  · simp [hfirst, hsecond, Except.bind, Except.map] at h
  obtain ⟨as, hmeets, rfl, hagain⟩ := hf e a t1 hfirst
  obtain ⟨bs, hmeets', rfl, hagain'⟩ := hg _ e b t2 hsecond
  refine ⟨as ++ bs, holdsBits_append.mpr ⟨hmeets, hmeets'⟩, ?_, fun e' hholds => ?_⟩
  · simp only [hfirst, hsecond, Except.bind, Except.map, Except.ok.injEq, Prod.mk.injEq] at h
    rw [← h.2, List.length_append, Nat.add_assoc]
  · obtain ⟨has, hbs⟩ := holdsBits_append.mp hholds
    simp only [← h, hfirst, hagain e' has, Except.bind, hsecond, hagain' e' hbs]

/-- Bits that an input holds, every input holds that agrees with it there. -/
theorem holdsBits_congr {e' : Source} {bits : List Bool}
    (hagree : ∀ i, i < t + bits.length → readBit e' c p0 i = readBit e c p0 i)
    (h : holdsBits e c p0 t bits) : holdsBits e' c p0 t bits := fun i hi => by
  rw [hagree _ (Nat.add_lt_add_left hi t), h i hi]

/-- A quotient that was read is ones up to a zero. -/
theorem ones_zero_of_readUnary_ok {fuel v : Nat} {r : Nat × Nat}
    (h : readUnary e c p0 fuel v t = .ok r) :
    ∃ u, (∀ x, x < u → readBit e c p0 (t + x) = .ok true) ∧ readBit e c p0 (t + u) = .ok false := by
  induction fuel generalizing v t with
  | zero => cases h
  | succ fuel ih =>
    rw [readUnary] at h
    split at h
    · cases h
    next hone =>
      obtain ⟨u, hones, hzero⟩ := ih h
      refine ⟨u + 1, fun x hx => ?_, by rwa [← Nat.add_assoc, Nat.add_right_comm]⟩
      cases x with
      | zero => exact hone
      | succ x =>
        rw [← Nat.add_assoc, Nat.add_right_comm]
        exact hones x (by omega)
    next hzero => exact ⟨0, fun _ hx => absurd hx (Nat.not_lt_zero _), hzero⟩

/-- A remainder that was read is as many bits as were asked for. -/
theorem holdsBits_of_readBinary_ok {k v : Nat} {r : Nat × Nat} (h : readBinary e c p0 k v t = .ok r) :
    ∃ bs : List Bool, holdsBits e c p0 t bs ∧ bs.length = k := by
  induction k generalizing v t with
  | zero => exact ⟨[], fun _ hi => absurd hi (Nat.not_lt_zero _), rfl⟩
  | succ k ih =>
    rw [readBinary] at h
    split at h
    · cases h
    next b hbit =>
      obtain ⟨bs, hbits, rfl⟩ := ih h
      exact ⟨b :: bs, holdsBits_cons.mpr ⟨hbit, hbits⟩, rfl⟩

/-- A codeword is a quotient in ones, a zero and a remainder (R224). -/
theorem holdsBits_codeword {u : Nat} {bs : List Bool} :
    holdsBits e c p0 t (List.replicate u true ++ false :: bs) ↔
      (∀ x, x < u → readBit e c p0 (t + x) = .ok true) ∧
        readBit e c p0 (t + u) = .ok false ∧ holdsBits e c p0 (t + u + 1) bs := by
  rw [holdsBits_append, holdsBits_cons, List.length_replicate, holdsBits_replicate_true]

theorem codeword_of_readValue_ok {k : Nat} {r : Int × Nat} (h : readValue e c p0 k t = .ok r) :
    ∃ (u : Nat) (bs : List Bool), holdsBits e c p0 t (List.replicate u true ++ false :: bs) ∧ bs.length = k := by
  rcases hquotient : readUnary e c p0 (bitsLeft e p0 t + 1) 0 t with x | s
  · rw [readValue, hquotient] at h
    cases h
  obtain ⟨u, hones, hzero⟩ := ones_zero_of_readUnary_ok hquotient
  rw [readValue_of_quotient hones k hzero] at h
  rcases hremainder : readBinary e c p0 k 0 (t + u + 1) with x | s
  · rw [hremainder] at h
    cases h
  obtain ⟨bs, hbits, hlen⟩ := holdsBits_of_readBinary_ok hremainder
  exact ⟨u, bs, holdsBits_codeword.mpr ⟨hones, hzero, hbits⟩, hlen⟩

theorem readValue_dependsOnBitsRead (k : Nat) : dependsOnBitsRead c p0 t (fun e => readValue e c p0 k t) := by
  intro e v t' h
  obtain ⟨u, bs, hcodeword, rfl⟩ := codeword_of_readValue_ok h
  obtain ⟨hones, hzero, hbits⟩ := holdsBits_codeword.mp hcodeword
  cases (readValue_ok hones hzero hbits).symm.trans h
  refine ⟨_, hcodeword, ?_, fun e' hholds => ?_⟩
  · rw [List.length_append, List.length_replicate, List.length_cons]
    omega
  · obtain ⟨hones', hzero', hbits'⟩ := holdsBits_codeword.mp hholds
    exact readValue_ok hones' hzero' hbits'

theorem readValues_succ (k m : Nat) :
    readValues e c p0 k (m + 1) t =
      (readValue e c p0 k t).bind fun r => (readValues e c p0 k m r.2).map fun s => (r.1 :: s.1, s.2) := by
  rw [readValues]
  rcases readValue e c p0 k t with x | ⟨v, t1⟩
  · rfl
  · simp only [Except.bind]
    cases readValues e c p0 k m t1 <;> rfl

theorem readValues_dependsOnBitsRead (k m : Nat) :
    dependsOnBitsRead c p0 t (fun e => readValues e c p0 k m t) := by
  induction m generalizing t with
  | zero => exact dependsOnBitsRead_ok []
  | succ m ih =>
    simp only [readValues_succ]
    exact dependsOnBitsRead_seq List.cons (readValue_dependsOnBitsRead k) fun _ => ih

theorem readBlocks_dependsOnBitsRead (n j : Nat) (ks : List Int) :
    dependsOnBitsRead c p0 t (fun e => readBlocks e c p0 n j ks t) := by
  induction ks generalizing j t with
  | nil => exact dependsOnBitsRead_ok []
  | cons k ks ih =>
    by_cases hbad : k < 0 ∨ 32 < k
    · simp only [readBlocks_bad_param hbad]
      exact dependsOnBitsRead_error _
    · simp only [readBlocks_cons hbad]
      exact dependsOnBitsRead_seq (· ++ ·) (readValues_dependsOnBitsRead _ _) fun _ => ih (j + 1)

theorem riceDec_dependsOnBitsRead (n : Nat) (ks : List Int) :
    dependsOnBitsRead c p0 0 (fun e => riceDec e c p0 n ks) := by
  by_cases hlen : ks.length = (n + 4095) / 4096
  · simp only [riceDec_of_length hlen]
    exact readBlocks_dependsOnBitsRead n 0 ks
  · simp only [riceDec_of_length_ne hlen]
    exact dependsOnBitsRead_error _

end

/-- Settles O56: the decoder depends on the bits it read only, and a packed bit past the string's end is 0. -/
theorem paddingBitsAreIgnored : Obligations.PaddingBitsAreIgnored := by
  refine ⟨fun e e' c p0 n t ks q hdec hagree => ?_, fun bits m t _ ht hpast => ?_⟩
  · obtain ⟨bits, hholds, rfl, hagain⟩ := riceDec_dependsOnBitsRead n ks e q t hdec
    exact hagain e' (holdsBits_congr hagree hholds)
  · rw [pack_bit bits m ht, List.getD_eq_default _ _ hpast]

end Sys2Proof.Machine
end

section
/-! ### The tags the parser meets (R125, R276, R278, R334)

A tag's four bytes make its word, and a word gives its bytes back, so comparing words is comparing bytes: that is what
ExpectTag does. A tag instruction is the parser's comparison of the tag met with the one it expects. -/

namespace Sys2Proof

/-- The instruction whose word is a tag's four bytes (R125). -/
def Tag.instr : Tag → Instr
  | .ssaf => .tagSSAF
  | .chan => .tagChan
  | .zre => .tagZre
  | .rice => .tagRice
  | .data => .tagData

@[simp] theorem tagOf_instr (t : Tag) : tagOf t.instr = some t := by
  cases t <;> rfl

/-- Above its low byte a word's bytes are those of the word without it. -/
theorem extractLsb'_append_byte {v : Nat} (x : BitVec v) (b : Byte) (n : Nat) :
    (x ++ b).extractLsb' (n + 8) 8 = x.extractLsb' n 8 :=
  BitVec.extractLsb'_append_eq_of_le (Nat.le_add_left 8 n)

/-- Four bytes are found again in the word they make (R82). -/
theorem bytesOfWord_wordOfBytes (b0 b1 b2 b3 : Byte) : bytesOfWord (wordOfBytes b0 b1 b2 b3) = [b0, b1, b2, b3] := by
  have h1 : (wordOfBytes b0 b1 b2 b3).extractLsb' 8 8 = b1 :=
    (extractLsb'_append_byte _ b0 0).trans BitVec.extractLsb'_append_eq_right
  have h2 : (wordOfBytes b0 b1 b2 b3).extractLsb' 16 8 = b2 :=
    (extractLsb'_append_byte _ b0 8).trans
      ((extractLsb'_append_byte _ b1 0).trans BitVec.extractLsb'_append_eq_right)
  have h3 : (wordOfBytes b0 b1 b2 b3).extractLsb' 24 8 = b3 :=
    (extractLsb'_append_byte _ b0 16).trans
      ((extractLsb'_append_byte _ b1 8).trans (extractLsb'_append_byte b3 b2 0 |>.trans (BitVec.extractLsb'_eq_self)))
  rw [bytesOfWord, lowByte_wordOfBytes, h1, h2, h3]

theorem bytesOfWord_injective {w w' : Word} (h : bytesOfWord w = bytesOfWord w') : w = w' := by
  simp only [bytesOfWord, List.cons.injEq, and_true] at h
  obtain ⟨h0, h1, h2, h3⟩ := h
  rw [← wordOfBytes_extract w, h0, h1, h2, h3, wordOfBytes_extract]

end Sys2Proof

namespace Sys2Proof.Machine

/-! #### ExpectTag (R278) -/

/-- The word at a position is that of the four bytes there (R125). -/
theorem bytesOfWord_word (e : Source) (p : Nat) : bytesOfWord (e.word p) = e.mem.readBytes (e.base + p) 4 :=
  bytesOfWord_wordOfBytes _ _ _ _

/-- The tag decoder answers a tag where the four bytes are exactly that tag's (R278). -/
theorem decodeTag_word_iff (e : Source) (p : Nat) {i : Instr} {t : Tag} (hi : tagOf i = some t) :
    decodeTag (e.word p) = .ok i ↔ e.mem.readBytes (e.base + p) 4 = tagBytes t := by
  rw [← bytesOfWord_word, ← encodeBytes_of_tagOf hi, encodeBytes]
  constructor
  · intro h
    rw [(decodeTag_sound h).2]
  · intro h
    rw [bytesOfWord_injective h]
    exact decodeTag_encode (Option.isSome_of_eq_some hi)

/-- ExpectTag by the four bytes at the parser's position (R278). -/
theorem expectTag_eq (e : Source) (want : Tag) (p : Parse) :
    expectTag e want p =
      if e.len < p.pos + 4 then .error (errTruncated (truncSub want) p.pos (tagErrChan want p.chan))
      else if e.mem.readBytes (e.base + p.pos) 4 = tagBytes want then
        .ok { p with pos := p.pos + 4, stage := .body want }
      else .error (errFormat want p) := by
  rw [expectTag]
  by_cases hshort : e.len < p.pos + 4
  · rw [if_pos hshort, if_pos hshort]
  rw [if_neg hshort, if_neg hshort]
  by_cases hbytes : e.mem.readBytes (e.base + p.pos) 4 = tagBytes want
  · simp [if_pos hbytes, (decodeTag_word_iff e p.pos (tagOf_instr want)).mpr hbytes, meetTag]
  · rw [if_neg hbytes]
    cases hdecode : decodeTag (e.word p.pos) with
    | error _ => rfl
    | ok i =>
      obtain ⟨seen, hseen⟩ := Option.isSome_iff_exists.mp (decodeTag_sound hdecode).1
      have hother : seen ≠ want := by
        rintro rfl
        exact hbytes ((decodeTag_word_iff e p.pos hseen).mp hdecode)
      simp [hseen, meetTag, hother]

/-- Settles O35: the tag decoder compares the four bytes, and the error's fields are those of the expected tag. -/
theorem expectTagIsExact : Obligations.ExpectTagIsExact := by
  intro e want p
  rw [expectTag_eq]
  cases want <;> rfl

/-! #### The tag instructions (R276, R278) -/

/-- A tag instruction where the parser expects a tag is the parser's move (R278). -/
theorem exec_tag_expected {s : State} {l : Latched} {p : Parse} {i : Instr} {seen want : Tag}
    (hbusy : s.phase = .busy l (some p)) (hseen : tagOf i = some seen) (hstage : p.stage = .tag want) :
    exec i s = .next (decodeMove l p (meetTag want seen p) s) := by
  simp [exec_tag hseen, seeTag, hbusy, hstage]

/-- Settles O33: the tag met is the one expected. -/
theorem tagMetMovesTheParser : Obligations.TagMetMovesTheParser := by
  intro s l p hbusy x hx hstage
  have htag : ∀ x ∈ [(Instr.tagSSAF, Tag.ssaf), (Instr.tagChan, Tag.chan), (Instr.tagZre, Tag.zre),
      (Instr.tagRice, Tag.rice), (Instr.tagData, Tag.data)], tagOf x.1 = some x.2 := by decide
  rw [exec_tag_expected hbusy (htag x hx) hstage, meetTag, if_pos rfl, decodeMove]

/-- A platform that marks no byte of the command's ranges marks none of either (R97). -/
theorem hits_of_quietOn {l : Latched} {bad : List Span} (h : l.quietOn bad) :
    hits bad [l.inSpan] = false ∧ hits bad [l.outSpan] = false := by
  rw [← Bool.or_eq_false_iff, ← hits_cons]
  exact h

/-- On a platform that marks no byte of its ranges, a DECODE under way ends with the error raised (R333). -/
theorem decodeMove_error_of_quietOn {l : Latched} {s : State} (hquiet : l.quietOn s.platform.busFaults) (p : Parse)
    (e : Err) : decodeMove l p (.error e) s =
      raise e { s with mem := s.mem.havoc l.outSpan (s.draws + 1), draws := s.draws + 2 } := by
  obtain ⟨hin, hout⟩ := hits_of_quietOn hquiet
  exact settle_quiet hin hout

/-- The registers after an error that is no OVERFLOW (R333, R47). -/
theorem recordErr_endedWith (r : Regs) {e : Err} (h : e.code ≠ .overflow) :
    (r.recordErr e).endedWith (errWord e) (BitVec.ofNat 32 e.info) 0#32 :=
  ⟨rfl, rfl, rfl, rfl, if_neg h, ⟨rfl, rfl, rfl, rfl, rfl⟩⟩

/-- ERR_CODE of FORMAT at an expected tag (R40, R278). -/
theorem errWord_errFormat (want : Tag) (p : Parse) :
    errWord (errFormat want p) = BitVec.ofNat 16 (tagErrChan want p.chan) ++
      (BitVec.ofNat 8 (formatSub want) ++ 1#8 : BitVec 16) :=
  BitVec.append_assoc

/-- Settles O34: the comparison of the two tags raises FORMAT, and no byte marked means that it stands. -/
theorem otherTagIsAFormatError : Obligations.OtherTagIsAFormatError := by
  intro s l p i seen want hbusy hquiet hseen hstage hother
  have hexec := exec_tag_expected hbusy hseen hstage
  rw [meetTag, if_neg hother, decodeMove_error_of_quietOn hquiet] at hexec
  refine ⟨_, hexec, (exec_engineMove hexec).around, rfl, ?_, fun a ha => read_havoc_of_outside _ _ _ _ ha⟩
  have hended := recordErr_endedWith s.regs (e := errFormat want p) (by simp [errFormat])
  rw [errWord_errFormat] at hended
  have hmagic : BitVec.ofNat 16 noChan ++ (BitVec.ofNat 8 0 ++ 1#8 : BitVec 16) = 0xFFFF0001#32 := by decide
  cases want with
  | ssaf => exact hmagic ▸ hended
  | chan | zre | rice | data => exact hended

/-! #### The turn at a tag (R276) -/

/-- Bytes that decode to a tag's instruction are read as that tag by the tag decoder: no command is a tag (R111). -/
theorem decodeTag_of_decodeWord {w : Word} {i : Instr} (h : decodeWord w = .ok i) (hi : (tagOf i).isSome = true) :
    decodeTag w = .ok i := by
  rw [decodeWord] at h
  split at h
  next i' htag => rwa [htag]
  next => rcases decodeCommand_command h with rfl | rfl | rfl <;> cases hi

/-- Settles O3: the next turn is the parser's at the tag it expects, and the word there is the tag's. -/
theorem stepRunsTheTagWord : Obligations.StepRunsTheTagWord := by
  intro s l p want i rest hinputs hbusy hop hranges hstage hleft hi hbytes
  have htag : decodeTag ((l.source s.mem).word p.pos) = .ok i := decodeTag_of_decodeWord hbytes hi
  have hturn : advanceTurn { s with inputs := rest } = .run i := by
    simp [advanceTurn, hbusy, hop, opDecode, (rangeCheck_none_iff l).mpr hranges, hstage, tagTurn,
      show ¬ l.srcLen.toNat < p.pos + 4 by omega, htag]
  rw [step_pending hinputs, inputStep, hturn, takeTurn]

end Sys2Proof.Machine
end

section
/-! ### Bytes after the container (R277, R282)

Each unit of the parser reads no byte at or past the position it ends at, and no unit goes back. So the whole parse
reads only bytes before its final position. -/

namespace Sys2Proof.Machine

/-- Equal bytes at two places make equal byte strings. -/
theorem readBytes_eq_of_read_eq {m m' : Memory} {a a' n : Nat} (h : ∀ i, i < n → m.read (a + i) = m'.read (a' + i)) :
    m.readBytes a n = m'.readBytes a' n := by
  apply List.ext_getElem
  · rw [readBytes_length, readBytes_length]
  · intro i hi _
    rw [readBytes_length] at hi
    rw [readBytes_getElem, readBytes_getElem, h i hi]

/-- The second input holds the first one's bytes up to a position. -/
structure Source.sameBelow (e e' : Source) (n : Nat) : Prop where
  bytes : ∀ i, i < n → e'.byte i = e.byte i
  whole : n ≤ e'.len

section

variable {e e' : Source} {n : Nat}

theorem Source.sameBelow.mono {m : Nat} (h : e.sameBelow e' n) (hm : m ≤ n) : e.sameBelow e' m :=
  ⟨fun i hi => h.bytes i (hi.trans_le hm), hm.trans h.whole⟩

theorem Source.sameBelow.readBytes {pos w : Nat} (h : e.sameBelow e' n) (hw : pos + w ≤ n) :
    e'.mem.readBytes (e'.base + pos) w = e.mem.readBytes (e.base + pos) w := by
  refine readBytes_eq_of_read_eq fun i hi => ?_
  rw [Nat.add_assoc, Nat.add_assoc]
  exact h.bytes (pos + i) (by omega)

theorem Source.sameBelow.nat {pos w : Nat} (h : e.sameBelow e' n) (hw : pos + w ≤ n) : e'.nat pos w = e.nat pos w :=
  congrArg leNat (h.readBytes hw)

theorem Source.sameBelow.takeNat {w sub c pos v : Nat} (h : e.sameBelow e' (pos + w))
    (hv : takeNat e w sub c pos = .ok v) : takeNat e' w sub c pos = .ok v := by
  obtain ⟨-, rfl⟩ := takeNat_ok hv
  rw [Machine.takeNat, if_neg (Nat.not_lt.mpr h.whole), h.nat le_rfl]

/-! #### Unit by unit -/

theorem expectTag_sameBelow {want : Tag} {p p' : Parse} (hok : expectTag e want p = .ok p')
    (h : e.sameBelow e' p'.pos) : expectTag e' want p = .ok p' := by
  obtain ⟨hlen, rfl⟩ := expectTag_ok hok
  have hlen' : p.pos + 4 ≤ e'.len := h.whole
  rw [expectTag_eq, if_neg (Nat.not_lt.mpr hlen)] at hok
  rwa [expectTag_eq, if_neg (Nat.not_lt.mpr hlen'), h.readBytes le_rfl]

theorem readHeader_sameBelow {cap : Nat} {p p' : Parse} (hok : readHeader e cap p = .ok p')
    (h : e.sameBelow e' p'.pos) : readHeader e' cap p = .ok p' := by
  have hpos : p'.pos = p.pos + 11 ∧ p.pos + 11 ≤ e.len := by
    obtain ⟨rate, d, s, c, hlen, -, -, -, -, -, -, -, rfl⟩ := readHeader_ok hok
    exact ⟨rfl, hlen⟩
  have hlen := hpos.2
  have hlen' : p.pos + 11 ≤ e'.len := hpos.1 ▸ h.whole
  rw [readHeader_eq, if_neg (by omega), if_neg (by omega)] at hok ⊢
  rw [h.nat (by omega), h.nat (by omega), h.nat (by omega), h.nat (by omega), if_neg (by omega : ¬ e'.len < p.pos + 9),
    if_neg (by omega : ¬ e'.len < p.pos + 11)]
  rwa [if_neg (by omega : ¬ e.len < p.pos + 9), if_neg (by omega : ¬ e.len < p.pos + 11)] at hok

theorem readCount_sameBelow {p p' : Parse} (hok : readCount e p = .ok p') (h : e.sameBelow e' p'.pos) :
    readCount e' p = .ok p' := by
  obtain ⟨hlen, rfl⟩ := readCount_ok hok
  rw [readCount, h.takeNat (if_neg (Nat.not_lt.mpr hlen))]

theorem readRuns_sameBelow {c k pos q : Nat} {ds : List Run} (hok : readRuns e c k pos = .ok (ds, q))
    (h : e.sameBelow e' q) : readRuns e' c k pos = .ok (ds, q) := by
  rw [readRuns_eq] at hok ⊢
  split_ifs at hok
  cases hok
  rw [if_pos (.inl h.whole)]
  congr 2
  refine List.map_congr_left fun j hj => ?_
  have hj := List.mem_range.mp hj
  rw [h.nat (by omega), h.nat (by omega)]

theorem readParams_sameBelow {c k pos q : Nat} {ks : List Int} (hok : readParams e c k pos = .ok (ks, q))
    (h : e.sameBelow e' q) : readParams e' c k pos = .ok (ks, q) := by
  rw [readParams_eq] at hok ⊢
  split_ifs at hok
  cases hok
  rw [if_pos (.inl h.whole)]
  congr 2
  refine List.map_congr_left fun j hj => ?_
  have hj := List.mem_range.mp hj
  rw [h.nat (by omega)]

theorem readZre_sameBelow {p p' : Parse} (hok : readZre e p = .ok p') (h : e.sameBelow e' p'.pos) :
    readZre e' p = .ok p' := by
  rw [readZre] at hok
  split at hok
  · cases hok
  next d hcount =>
  split at hok
  · cases hok
  next ds pos hruns =>
  cases hok
  have hpos := (readRuns_ok hruns).2
  rw [readZre, (h.mono (by simp only; omega)).takeNat hcount]
  simp only [readRuns_sameBelow hruns h]

theorem readRice_sameBelow {p p' : Parse} (hok : readRice e p = .ok p') (h : e.sameBelow e' p'.pos) :
    readRice e' p = .ok p' := by
  rw [readRice] at hok
  split at hok
  · cases hok
  next k hcount =>
  split at hok
  · cases hok
  next ks pos hparams =>
  cases hok
  have hpos := (readParams_ok hparams).2
  rw [readRice, (h.mono (by simp only; omega)).takeNat hcount]
  simp only [readParams_sameBelow hparams h]

/-- A bit that one input holds, the other holds where it holds the bit's byte (R251). -/
theorem readBit_sameBelow {c p0 t : Nat} {b : Bool} (hok : readBit e c p0 t = .ok b)
    (h : e.sameBelow e' (p0 + t / 8 + 1)) : readBit e' c p0 t = .ok b := by
  rw [readBit] at hok ⊢
  split_ifs at hok
  rwa [if_neg (Nat.not_le.mpr h.whole), h.bytes _ (Nat.lt_succ_self _)]

/-- The bits the Rice decoder reads lie in the bytes that it passes (R227, R276). -/
theorem riceDec_sameBelow {c p0 m t : Nat} {ks q : List Int} (hok : riceDec e c p0 m ks = .ok (q, t))
    (h : e.sameBelow e' (p0 + ceilDiv t 8)) : riceDec e' c p0 m ks = .ok (q, t) := by
  obtain ⟨bits, hholds, rfl, hagain⟩ := riceDec_dependsOnBitsRead m ks e q t hok
  refine hagain e' fun i hi => readBit_sameBelow (hholds i hi) (h.mono ?_)
  rw [ceilDiv]
  omega

theorem readData_sameBelow {p p' : Parse} (hok : readData e p = .ok p') (h : e.sameBelow e' p'.pos) :
    readData e' p = .ok p' := by
  rw [readData] at hok ⊢
  split at hok
  · cases hok
  next q t hrice =>
  have hpos : p'.pos = p.pos + ceilDiv t 8 := by
    split at hok
    · cases hok
    split at hok
    · cases hok
    · cases hok; rfl
  rw [riceDec_sameBelow hrice (hpos ▸ h)]
  exact hok

/-- A unit that reads well over one input reads the same over every input with the bytes up to where it ended. -/
theorem parseUnit_sameBelow {cap : Nat} {p p' : Parse} (hok : parseUnit e cap p = .ok p')
    (h : e.sameBelow e' p'.pos) : parseUnit e' cap p = .ok p' := by
  unfold parseUnit at hok ⊢
  split at hok
  · exact expectTag_sameBelow hok h
  · exact readHeader_sameBelow hok h
  · exact readCount_sameBelow hok h
  · exact readZre_sameBelow hok h
  · exact readRice_sameBelow hok h
  · exact readData_sameBelow hok h
  · exact hok

/-! #### The whole parse -/

theorem parseUnit_pos_le {cap : Nat} {p p' : Parse} (hok : parseUnit e cap p = .ok p') : p.pos ≤ p'.pos := by
  unfold parseUnit at hok
  split at hok
  · obtain ⟨-, rfl⟩ := expectTag_ok hok
    exact Nat.le_add_right _ _
  · obtain ⟨_, _, _, _, -, -, -, -, -, -, -, -, rfl⟩ := readHeader_ok hok
    exact Nat.le_add_right _ _
  · obtain ⟨-, rfl⟩ := readCount_ok hok
    exact Nat.le_add_right _ _
  · obtain ⟨ds, pos, hpos, rfl⟩ := readZre_ok hok
    simp only
    omega
  · obtain ⟨ks, pos, hpos, rfl⟩ := readRice_ok hok
    simp only
    omega
  · obtain ⟨q, t, r, -, -, -, -, rfl⟩ := readData_ok hok
    exact Nat.le_add_right _ _
  · cases hok
    exact le_rfl

theorem parseUnits_pos_le {cap k : Nat} {p p' : Parse} (hok : parseUnits e cap k p = .ok p') : p.pos ≤ p'.pos := by
  induction k generalizing p with
  | zero => cases hok; exact le_rfl
  | succ k ih =>
    rw [parseUnits] at hok
    split at hok
    · cases hok
    next p1 hunit => exact (parseUnit_pos_le hunit).trans (ih hok)

theorem parseUnits_sameBelow {cap k : Nat} {p p' : Parse} (hok : parseUnits e cap k p = .ok p')
    (h : e.sameBelow e' p'.pos) : parseUnits e' cap k p = .ok p' := by
  induction k generalizing p with
  | zero => exact hok
  | succ k ih =>
    rw [parseUnits] at hok ⊢
    split at hok
    · cases hok
    next p1 hunit =>
      rw [parseUnit_sameBelow hunit (h.mono (parseUnits_pos_le hok))]
      exact ih hok

end

/-- Settles O58: the header's units and then the channels', each before the final position. -/
theorem trailingBytesAreIgnored : Obligations.TrailingBytesAreIgnored := by
  intro e e' cap p hok hbytes hlen
  rw [parseAll, parseHeader] at hok ⊢
  split at hok
  · cases hok
  next p1 hheader =>
    rw [parseUnits_sameBelow hheader (Source.sameBelow.mono ⟨hbytes, hlen⟩ (parseUnits_pos_le hok))]
    exact parseUnits_sameBelow hok ⟨hbytes, hlen⟩

end Sys2Proof.Machine
end

section
/-! ### A channel through the coder and back (R180 to R227)

The zig-zag map and its inverse take the values of a depth's range to values of that range, and take 0 to 0. So the
zero-run decoder gives the residuals with the same runs, and what the predictor makes of them fits the depth again: the
first two values by the range, the others as 16-bit values. -/

namespace Sys2Proof.Machine

/-! #### The zig-zag map and the depth (R150, R221, R222) -/

theorem sampleFits_mono {d d' : Nat} (hd : d ≤ d') {v : Int} (h : sampleFits d v = true) : sampleFits d' v = true := by
  have hpow : (2 : Int) ^ (d - 1) ≤ 2 ^ (d' - 1) := pow_le_pow_right₀ (by decide) (by omega)
  rw [sampleFits_iff] at h ⊢
  omega

theorem sampleFits_16_iff (v : Int) : sampleFits 16 v = true ↔ fits16 v := sampleFits_iff 16 v

/-- The map keeps within `d` bits the values of the signed `d`-bit range (R221). -/
theorem zigzag_lt_two_pow {d : Nat} (hpos : 0 < d) (hd : d ≤ 32) {v : Int} (h : sampleFits d v = true) :
    zigzag v < 2 ^ d := by
  obtain ⟨hlo, hhi⟩ := (sampleFits_iff d v).mp h
  obtain ⟨hlo32, hhi32⟩ := (sampleFits_iff 32 v).mp (sampleFits_mono hd h)
  have hpow : ((2 ^ d : Nat) : Int) = 2 * 2 ^ (d - 1) := by
    rw [mul_pow_sub_one hpos.ne', Nat.cast_pow, Nat.cast_ofNat]
  have hdouble := ofInt_shiftLeft_one_toNat v
  have hshift := ofInt_sshiftRight_toInt (v := v) (by omega) (by omega)
  rw [zigzag]
  generalize BitVec.ofInt 32 v <<< 1 = a at hdouble ⊢
  generalize (BitVec.ofInt 32 v).sshiftRight Config.zzShift = b at hshift ⊢
  rw [BitVec.toInt_eq_toNat_cond] at hshift
  by_cases hv : 0 ≤ v
  · rw [BitVec.toNat_xor]
    apply Nat.xor_lt_two_pow <;> split_ifs at hshift <;> omega
  · have hnot : a ^^^ b = ~~~a ^^^ ~~~b := by
      rw [← BitVec.not_xor_left, ← BitVec.not_xor_right, BitVec.not_not]
    rw [hnot, BitVec.toNat_xor, BitVec.toNat_not, BitVec.toNat_not]
    apply Nat.xor_lt_two_pow <;> split_ifs at hshift <;> omega

/-- What comes back from the map lies in the depth's range, where the value did (R221, R222). -/
theorem sampleFits_unzigzag_zigzag {d : Nat} (hpos : 0 < d) (hd : d ≤ 32) {v : Int} (h : sampleFits d v = true) :
    sampleFits d (unzigzag (zigzag v)) = true := by
  have hlt := zigzag_lt_two_pow hpos hd h
  have hpow : ((2 ^ d : Nat) : Int) = 2 * 2 ^ (d - 1) := by
    rw [mul_pow_sub_one hpos.ne', Nat.cast_pow, Nat.cast_ofNat]
  rw [sampleFits_iff, unzigzag_eq (zigzag_lt v)]
  split_ifs <;> omega

theorem unzigzag_zigzag_zero : unzigzag (zigzag 0) = 0 := unzigzag_zigzag_of_fits16 (by constructor <;> decide)

/-! #### The zero-run decoder on mapped values (R203) -/

/-- The decoder places values without looking at them, so a map that keeps 0 may come before or after it. -/
theorem zreFill_map {f : Int → Int} (hf : f 0 = 0) (c n j len : Nat) (q : List Int) (ds : List Run) :
    zreFill c n j len (q.map f) ds = (zreFill c n j len q ds).map (List.map f) := by
  induction ds generalizing j len q with
  | nil =>
    simp only [zreFill, List.length_map]
    split_ifs <;> rfl
  | cons d ds ih =>
    simp only [zreFill, List.length_map, ← List.map_drop, ih]
    split_ifs
    · rfl
    · rfl
    · rfl
    · cases zreFill c n (j + 1) (d.start + d.len) (q.drop (d.start - len)) ds with
      | error x => rfl
      | ok out => simp [Except.map, hf]

theorem zreDec_zreEnc_map {f : Int → Int} (hf : f 0 = 0) (r : List Int) (c : Nat) :
    zreDec c r.length ((zreEnc r).1.map f) (zreEnc r).2 = .ok (r.map f) := by
  have hplain := zreDec_zreEnc r c
  rw [zreDec] at hplain ⊢
  rw [zreFill_map hf, hplain, Except.map]

/-! #### The whole channel -/

/-- What a DECODE makes of a channel that an ENCODE coded: the residuals through the zig-zag map and back, and the
predictor's inverse of them. -/
def channelDecoded (x : List Int) : List Int := predDec ((predEnc x).map fun v => unzigzag (zigzag v))

@[simp] theorem channelDecoded_length (x : List Int) : (channelDecoded x).length = x.length := by
  simp [channelDecoded]

theorem fits16_trunc16 (v : Int) : fits16 (trunc16 v) := by
  rw [trunc16_eq_bmod]
  have hlo := Int.le_bmod (x := v) (m := 65536) (by decide)
  have hhi := Int.bmod_lt (x := v) (m := 65536) (by decide)
  constructor <;> omega

/-- The first two samples are their own residuals. -/
theorem channelDecoded_getD_of_lt_two {x : List Int} {i : Nat} (hi : i < x.length) (h2 : i < 2) :
    (channelDecoded x).getD i 0 = unzigzag (zigzag (x.getD i 0)) := by
  have hmap : ((predEnc x).map fun v => unzigzag (zigzag v)).getD i 0 = unzigzag (zigzag ((predEnc x).getD i 0)) := by
    have hget := List.getD_map (n := i) (predEnc x) 0 fun v => unzigzag (zigzag v)
    rwa [unzigzag_zigzag_zero] at hget
  rw [channelDecoded, predDec_getD (by simpa using hi), if_pos h2, hmap, predEnc_getD hi, if_pos h2]

/-- Every later sample is what the predictor truncates to 16 bits (R181). -/
theorem fits16_channelDecoded_getD {x : List Int} {i : Nat} (hi : i < x.length) (h2 : 2 ≤ i) :
    fits16 ((channelDecoded x).getD i 0) := by
  rw [channelDecoded, predDec_getD (by simpa using hi), if_neg (by omega)]
  exact fits16_trunc16 _

/-- A property of every value of a sequence is one of the value at every index. -/
theorem forall_mem_iff_getD {P : Int → Prop} {x : List Int} : (∀ v ∈ x, P v) ↔ ∀ i, i < x.length → P (x.getD i 0) := by
  rw [List.forall_mem_iff_forall_getElem]
  refine forall_congr' fun i => forall_congr' fun hi => ?_
  rw [List.getD_eq_getElem _ _ hi]

/-- Residuals of 16-bit samples are 16-bit values (R180). -/
theorem fits16_predEnc {x : List Int} (h : ∀ v ∈ x, fits16 v) : ∀ v ∈ predEnc x, fits16 v := by
  rw [forall_mem_iff_getD] at h ⊢
  intro i hi
  rw [predEnc_length] at hi
  rw [predEnc_getD hi]
  split_ifs
  · exact h i hi
  · exact fits16_trunc16 _

theorem channelDecoded_of_fits16 {x : List Int} (h : ∀ v ∈ x, fits16 v) : channelDecoded x = x := by
  rw [channelDecoded, map_unzigzag_zigzag (fits16_predEnc h)]
  exact predDec_predEnc fun i _ hi => forall_mem_iff_getD.mp h i hi

/-- The channel comes back exactly where its samples are 16-bit values: the first two samples come back from the
zig-zag map only then, and the others are truncated. -/
theorem channelDecoded_eq_self_iff {x : List Int} (h32 : ∀ v ∈ x, sampleFits 32 v = true) :
    channelDecoded x = x ↔ ∀ v ∈ x, fits16 v := by
  refine ⟨fun heq => forall_mem_iff_getD.mpr fun i hi => ?_, channelDecoded_of_fits16⟩
  have hback : (channelDecoded x).getD i 0 = x.getD i 0 := by rw [heq]
  by_cases h2 : i < 2
  · rw [channelDecoded_getD_of_lt_two hi h2] at hback
    obtain ⟨hlo, hhi⟩ := (sampleFits_iff _ _).mp (forall_mem_iff_getD.mp h32 i hi)
    exact fits16_of_unzigzag_zigzag (by omega) (by omega) hback
  · rw [← hback]
    exact fits16_channelDecoded_getD hi (Nat.le_of_not_lt h2)

/-- The channel decoded fits the depth of the channel encoded (R281). -/
theorem sampleFits_channelDecoded {d : Nat} (hd : d ∈ [8, 16, 24, 32]) {x : List Int}
    (h : ∀ v ∈ x, sampleFits d v = true) : ∀ v ∈ channelDecoded x, sampleFits d v = true := by
  have hrange : ∀ d ∈ [8, 16, 24, 32], 0 < d ∧ d ≤ 32 := by decide
  obtain ⟨hpos, hle⟩ := hrange d hd
  by_cases hwide : 16 ≤ d
  · rw [forall_mem_iff_getD] at h ⊢
    intro i hi
    rw [channelDecoded_length] at hi
    by_cases h2 : i < 2
    · rw [channelDecoded_getD_of_lt_two hi h2]
      exact sampleFits_unzigzag_zigzag hpos hle (h i hi)
    · have hfits := fits16_channelDecoded_getD hi (Nat.le_of_not_lt h2)
      exact sampleFits_mono hwide ((sampleFits_16_iff _).mpr hfits)
  · have hsmall : ∀ v ∈ x, fits16 v := fun v hv =>
      (sampleFits_16_iff v).mp (sampleFits_mono (Nat.le_of_not_le hwide) (h v hv))
    rwa [channelDecoded_of_fits16 hsmall]

end Sys2Proof.Machine
end

section
/-! ### PCM buffers written and read back (R151 to R155, R281)

Samples of one buffer share no byte, so a stored sample is still there when the others have been stored. A sample's
bytes are the digits of its residue modulo 2^depth, so buffers of one shape that read the same hold the same bytes. -/

namespace Sys2Proof.Machine

/-! #### Reading what the stores left (R153, R154) -/

/-- The stores of one channel leave the samples of the others. -/
theorem readSample_storeChannel_of_ne (m : Memory) {y : Layout} {c c' : Nat} (hc : c < y.channels)
    (hc' : c' < y.channels) (hne : c ≠ c') (s s' : Nat) (x : List Int) :
    readSample (storeChannel m y c s x) y s' c' = readSample m y s' c' := by
  induction x generalizing m s with
  | nil => rfl
  | cons v vs ih => rw [storeChannel, ih, readSample_storeSample_of_ne m y s c s' c' v hc hc' (.inr hne)]

/-- The stores of a channel from a sample on leave the samples before it. -/
theorem readSample_storeChannel_of_lt (m : Memory) {y : Layout} {c : Nat} (hc : c < y.channels) {s s' : Nat}
    (hlt : s' < s) (x : List Int) : readSample (storeChannel m y c s x) y s' c = readSample m y s' c := by
  induction x generalizing m s with
  | nil => rfl
  | cons v vs ih =>
    rw [storeChannel, ih _ (hlt.trans (Nat.lt_succ_self s)),
      readSample_storeSample_of_ne m y s c s' c v hc hc (.inl hlt.ne')]

theorem readChannelFrom_storeChannel (m : Memory) {y : Layout} (hd : y.depth ∈ [8, 16, 24, 32]) {c : Nat}
    (hc : c < y.channels) (s : Nat) {x : List Int} (hfit : ∀ v ∈ x, sampleFits y.depth v = true) :
    readChannelFrom (storeChannel m y c s x) y c s x.length = x := by
  induction x generalizing m s with
  | nil => rfl
  | cons v vs ih =>
    rw [List.forall_mem_cons] at hfit
    rw [storeChannel, List.length_cons, readChannelFrom, ih _ (s + 1) hfit.2,
      readSample_storeChannel_of_lt _ hc (Nat.lt_succ_self s), readSample_storeSample_same m hd s c hfit.1]

theorem readChannel_congr {m m' : Memory} {y : Layout} {c n : Nat}
    (h : ∀ s, s < n → readSample m y s c = readSample m' y s c) : readChannel m y n c = readChannel m' y n c := by
  refine ext_getD (by simp) fun s hs => ?_
  rw [readChannel_length] at hs
  rw [readChannel_getD _ _ _ hs, readChannel_getD _ _ _ hs, h s hs]

/-- The stores of the channels from `c` on leave the channels before it. -/
theorem readChannel_storeChannels_of_lt (m : Memory) {y : Layout} {c c' : Nat} (hlt : c' < c) (n : Nat)
    {xs : List (List Int)} (hcs : c + xs.length ≤ y.channels) :
    readChannel (storeChannels m y c xs) y n c' = readChannel m y n c' := by
  induction xs generalizing m c with
  | nil => rfl
  | cons x xs ih =>
    rw [List.length_cons] at hcs
    rw [storeChannels, ih _ (hlt.trans (Nat.lt_succ_self c)) (by omega)]
    exact readChannel_congr fun s _ => readSample_storeChannel_of_ne m (by omega) (by omega) hlt.ne' 0 s x

theorem readChannel_storeChannels (m : Memory) {y : Layout} (hd : y.depth ∈ [8, 16, 24, 32]) {c n : Nat}
    {xs : List (List Int)} (hcs : c + xs.length ≤ y.channels) (hlen : ∀ x ∈ xs, x.length = n)
    (hfit : ∀ x ∈ xs, ∀ v ∈ x, sampleFits y.depth v = true) {j : Nat} (hj : j < xs.length) :
    readChannel (storeChannels m y c xs) y n (c + j) = xs[j] := by
  induction xs generalizing m c j with
  | nil => simp at hj
  | cons x xs ih =>
    rw [List.length_cons] at hcs hj
    rw [List.forall_mem_cons] at hlen hfit
    rw [storeChannels]
    cases j with
    | zero =>
      have hlater :=
        readChannel_storeChannels_of_lt (storeChannel m y c 0 x) (y := y) (Nat.lt_add_one c) n (xs := xs) (by omega)
      have hfirst := readChannelFrom_storeChannel m hd (by omega : c < y.channels) 0 hfit.1
      rw [hlen.1] at hfirst
      exact hlater.trans hfirst
    | succ j =>
      rw [show c + (j + 1) = c + 1 + j by omega]
      exact ih _ (by omega) hlen.2 hfit.2 (by omega)

/-- Channels that fit the depth read back as they were stored (R153, R281). -/
theorem readChannels_storeChannels (m : Memory) {y : Layout} (hd : y.depth ∈ [8, 16, 24, 32]) {n : Nat}
    {xs : List (List Int)} (hcs : xs.length = y.channels) (hlen : ∀ x ∈ xs, x.length = n)
    (hfit : ∀ x ∈ xs, ∀ v ∈ x, sampleFits y.depth v = true) : readChannels (storeChannels m y 0 xs) y n = xs := by
  apply List.ext_getElem
  · rw [readChannels_length, hcs]
  · intro j _ hj
    have hchannel := readChannel_storeChannels m hd (by omega : 0 + xs.length ≤ y.channels) hlen hfit hj
    rw [Nat.zero_add] at hchannel
    simp only [readChannels, List.getElem_map, List.getElem_range, hchannel]

/-- A sample read lies in the depth's signed range (R153). -/
theorem sampleFits_readSample (m : Memory) {y : Layout} (hd : 0 < y.depth) (s c : Nat) :
    sampleFits y.depth (readSample m y s c) = true := by
  have hpow : ((2 ^ y.depth : Nat) : Int) = 2 * 2 ^ (y.depth - 1) := by
    rw [mul_pow_sub_one hd.ne', Nat.cast_pow, Nat.cast_ofNat]
  rw [sampleFits_iff, readSample, sext_eq_bmod hd]
  have hlo := Int.le_bmod (x := (m.readNat (y.addr s c) (bps y.depth) : Int)) (m := 2 ^ y.depth) (by positivity)
  have hhi := Int.bmod_lt (x := (m.readNat (y.addr s c) (bps y.depth) : Int)) (m := 2 ^ y.depth) (by positivity)
  omega

/-! #### The bytes behind the samples (R82, R153) -/

/-- A number determines its bytes (R82). -/
theorem leNat_injective {as bs : List Byte} (hlen : as.length = bs.length) (h : leNat as = leNat bs) : as = bs := by
  induction as generalizing bs with
  | nil => exact (List.length_eq_zero_iff.mp hlen.symm).symm
  | cons a as ih =>
    cases bs with
    | nil => simp at hlen
    | cons b bs =>
      have ha := a.isLt
      have hb := b.isLt
      simp only [leNat] at h
      rw [ih (Nat.succ.inj hlen) (by omega), BitVec.eq_of_toNat_eq (by omega : a.toNat = b.toNat)]

/-- A number of `n` bits is determined by its sign extension. -/
theorem eq_of_sext_eq {n a b : Nat} (hn : 0 < n) (ha : a < 2 ^ n) (hb : b < 2 ^ n)
    (h : sext n (a : Int) = sext n (b : Int)) : a = b := by
  have hmod := congrArg (· % ((2 ^ n : Nat) : Int)) h
  simp only [sext_eq_bmod hn, Int.bmod_emod] at hmod
  have hcast : ((a % 2 ^ n : Nat) : Int) = ((b % 2 ^ n : Nat) : Int) := by
    simpa only [Int.natCast_emod] using hmod
  rwa [Nat.cast_inj, Nat.mod_eq_of_lt ha, Nat.mod_eq_of_lt hb] at hcast

/-- Samples of one depth that read the same have the same bytes. -/
theorem read_eq_of_readSample_eq {m m' : Memory} {y y' : Layout} (hd : y.depth ∈ [8, 16, 24, 32])
    (hd' : y'.depth = y.depth) {s c : Nat} (h : readSample m y s c = readSample m' y' s c) {k : Nat}
    (hk : k < bps y.depth) : m.read (y.addr s c + k) = m'.read (y'.addr s c + k) := by
  have hpos : ∀ d ∈ [8, 16, 24, 32], 0 < d := by decide
  have hlt : ∀ (m : Memory) (a : Nat), m.readNat a (bps y.depth) < 2 ^ y.depth := fun m a => by
    have := leNat_lt (m.readBytes a (bps y.depth))
    rwa [readBytes_length, pow_bps_of_supported hd] at this
  rw [readSample, readSample, hd'] at h
  have hnat := eq_of_sext_eq (hpos _ hd) (hlt m _) (hlt m' _) h
  have hbytes := leNat_injective (by rw [readBytes_length, readBytes_length]) hnat
  have hget := congrArg (fun bs => bs[k]?) hbytes
  simpa [readBytes_length, readBytes_getElem, hk] using hget

/-- Every byte of a buffer of `n` samples a channel is a byte of one of its samples (R151). -/
theorem exists_sample_of_lt {y : Layout} {n i : Nat} (hi : i < n * y.channels * bps y.depth) :
    ∃ s c k, s < n ∧ c < y.channels ∧ k < bps y.depth ∧ i = (s * y.channels + c) * bps y.depth + k := by
  have hbps : 0 < bps y.depth := Nat.pos_of_ne_zero fun h => by simp [h] at hi
  have hchannels : 0 < y.channels := Nat.pos_of_ne_zero fun h => by simp [h] at hi
  have hplace : i / bps y.depth < n * y.channels := Nat.div_lt_of_lt_mul (by rwa [Nat.mul_comm])
  refine ⟨i / bps y.depth / y.channels, i / bps y.depth % y.channels, i % bps y.depth,
    Nat.div_lt_of_lt_mul (by rwa [Nat.mul_comm]), Nat.mod_lt _ hchannels, Nat.mod_lt _ hbps, ?_⟩
  rw [Nat.div_add_mod', Nat.div_add_mod']

/-- Buffers of one shape that read the same hold the same bytes. -/
theorem readBytes_eq_of_readChannels_eq {m m' : Memory} {y y' : Layout} (hd : y.depth ∈ [8, 16, 24, 32])
    (hd' : y'.depth = y.depth) (hc' : y'.channels = y.channels) {n : Nat}
    (h : readChannels m y n = readChannels m' y' n) :
    m.readBytes y.base (n * y.channels * bps y.depth) = m'.readBytes y'.base (n * y.channels * bps y.depth) := by
  refine readBytes_eq_of_read_eq fun i hi => ?_
  obtain ⟨s, c, k, hs, hc, hk, rfl⟩ := exists_sample_of_lt hi
  have hchannel : readChannel m y n c = readChannel m' y' n c := by
    rw [readChannels, readChannels, hc'] at h
    exact List.map_inj_left.mp h c (List.mem_range.mpr hc)
  have hsample : readSample m y s c = readSample m' y' s c := by
    rw [← readChannel_getD m y c hs, hchannel, readChannel_getD m' y' c hs]
  have hbyte := read_eq_of_readSample_eq hd hd' hsample hk
  rw [Layout.addr, Layout.addr, hd', hc'] at hbyte
  rwa [← Nat.add_assoc, ← Nat.add_assoc]

end Sys2Proof.Machine
end

section
/-! ### The parser on a container's bytes (R270 to R281)

Where the input holds a part of a container, the parser's unit for that part reads its fields as the encoder wrote
them. Each unit leaves the rest of the parse to the next, so the parse of a whole container is followed chunk by chunk,
and channel by channel. -/

namespace Sys2Proof.Machine

/-! #### Bytes the input holds -/

/-- From a position on, the input holds these bytes. -/
structure Source.holds (e : Source) (p : Nat) (bs : List Byte) : Prop where
  whole : p + bs.length ≤ e.len
  bytes : e.mem.readBytes (e.base + p) bs.length = bs

theorem readBytes_add (m : Memory) (a n k : Nat) :
    m.readBytes a (n + k) = m.readBytes a n ++ m.readBytes (a + n) k := by
  induction n generalizing a with
  | zero => simp [Memory.readBytes]
  | succ n ih => rw [Nat.succ_add, Memory.readBytes, Memory.readBytes, ih, Nat.add_right_comm, List.cons_append]; rfl

section

variable {e : Source} {pos : Nat}

theorem Source.holds.append {as bs : List Byte} (h : e.holds pos (as ++ bs)) :
    e.holds pos as ∧ e.holds (pos + as.length) bs := by
  have hwhole := h.whole
  have hbytes := h.bytes
  rw [List.length_append] at hwhole hbytes
  rw [readBytes_add, Nat.add_assoc] at hbytes
  obtain ⟨has, hbs⟩ := List.append_inj hbytes (readBytes_length _ _ _)
  exact ⟨⟨by omega, has⟩, ⟨by omega, hbs⟩⟩

theorem Source.holds.byte {bs : List Byte} (h : e.holds pos bs) {i : Nat} (hi : i < bs.length) :
    e.byte (pos + i) = bs[i] := by
  have hget := congrArg (fun l => l[i]?) h.bytes
  simpa [readBytes_length, readBytes_getElem, hi, Source.byte, Nat.add_assoc] using hget

/-! #### The fields -/

/-- A field that was written is the number read (R82, R270). -/
theorem Source.holds.nat {w v : Nat} (h : e.holds pos (leBytes w v)) (hv : v < 256 ^ w) : e.nat pos w = v := by
  have hbytes := h.bytes
  rw [leBytes_length] at hbytes
  rw [Source.nat, Memory.readNat, hbytes, leNat_leBytes, Nat.mod_eq_of_lt hv]

theorem Source.holds.takeNat {w v : Nat} (h : e.holds pos (leBytes w v)) (hv : v < 256 ^ w) (sub c : Nat) :
    takeNat e w sub c pos = .ok v := by
  have hwhole := h.whole
  rw [leBytes_length] at hwhole
  rw [Machine.takeNat, if_neg (by omega), h.nat hv]

theorem Source.holds.expectTag {t : Tag} {p : Parse} (h : e.holds p.pos (tagBytes t)) :
    expectTag e t p = .ok { p with pos := p.pos + 4, stage := .body t } := by
  have hwhole := h.whole
  have hbytes := h.bytes
  rw [tagBytes_length] at hwhole hbytes
  rw [expectTag_eq, if_neg (by omega), if_pos hbytes]

/-- The header's fields as the framer wrote them (R116, R271). -/
theorem Source.holds.readHeader {rate d n c cap : Nat} {p : Parse}
    (h : e.holds p.pos (leBytes 4 rate ++ (leBytes 1 d ++ (leBytes 4 n ++ leBytes 2 c)))) (hrate : rate < 2 ^ 32)
    (hd : d ∈ Config.depths) (hn : n < 2 ^ 32) (hc : c < 2 ^ 16) (hpos : 0 < c) (hfits : n * c * bps d ≤ cap) :
    readHeader e cap p = .ok { p with
      pos := p.pos + 11, stage := .tag .chan, rate := rate, depth := d, samples := n, channels := c, chan := 0 } := by
  have hbyte : ∀ d ∈ Config.depths, d < 256 ^ 1 := by decide
  obtain ⟨hr, h⟩ := h.append
  obtain ⟨hdepth, h⟩ := h.append
  obtain ⟨hs, hch⟩ := h.append
  simp only [leBytes_length] at hdepth hs hch
  simp only [Machine.readHeader, hr.takeNat hrate, hdepth.takeNat (hbyte d hd), hs.takeNat hn, hch.takeNat hc,
    (depthOk_iff d).mpr hd, Bool.not_true, Bool.false_eq_true, if_false, if_neg hpos.ne', if_neg (Nat.not_lt.mpr hfits)]

/-- The descriptors as the framer wrote them (R118, R273). -/
theorem Source.holds.readRuns {ds : List Run} (h : e.holds pos (ds.flatMap runBytes))
    (hds : ∀ d ∈ ds, d.start < 2 ^ 32 ∧ d.len < 2 ^ 32) (c : Nat) :
    readRuns e c ds.length pos = .ok (ds, pos + 8 * ds.length) := by
  induction ds generalizing pos with
  | nil => rfl
  | cons d ds ih =>
    rw [List.forall_mem_cons] at hds
    obtain ⟨⟨hstart, hlen⟩, hds⟩ := hds
    rw [List.flatMap_cons, runBytes] at h
    obtain ⟨hrun, hrest⟩ := h.append
    obtain ⟨hs, hl⟩ := hrun.append
    simp only [List.length_append, leBytes_length] at hl hrest
    simp only [List.length_cons, Machine.readRuns, hs.takeNat hstart, hl.takeNat hlen, ih hrest hds]
    congr 2
    omega

/-- The Rice parameters as the framer wrote them (R119, R274). -/
theorem Source.holds.readParams {ks : List Nat} (h : e.holds pos (ks.flatMap (leBytes 4))) (hks : ∀ k ∈ ks, k ≤ 32)
    (c : Nat) : readParams e c ks.length pos = .ok (ks.map Int.ofNat, pos + 4 * ks.length) := by
  induction ks generalizing pos with
  | nil => rfl
  | cons k ks ih =>
    rw [List.forall_mem_cons] at hks
    have hk := hks.1
    have hword : k < 256 ^ 4 := by omega
    have hsigned : sext 32 (k : Int) = Int.ofNat k := by
      rw [sext_eq_bmod (by decide), Int.bmod_eq_of_le_mul_two (by omega) (by omega), Int.ofNat_eq_natCast]
    rw [List.flatMap_cons] at h
    obtain ⟨hparam, hrest⟩ := h.append
    rw [leBytes_length] at hrest
    simp only [List.length_cons, Machine.readParams, hparam.takeNat hword, ih hrest hks.2, hsigned, List.map_cons]
    congr 2
    omega

/-- A reader over packed bits meets the bits (R250, R251). -/
theorem Source.holds.holdsBits {bits : List Bool} (h : e.holds pos (pack bits)) (c : Nat) :
    holdsBits e c pos 0 bits := by
  intro i hi
  have hlen : i / 8 < (pack bits).length := by
    rw [pack_length]
    omega
  have hwhole := h.whole
  have hbit := pack_bit bits (i / 8) (Nat.mod_lt i (by decide : 0 < 8))
  rw [Nat.div_add_mod, List.getD_eq_getElem _ _ hlen, List.getD_eq_getElem _ _ hi] at hbit
  rw [Nat.zero_add, readBit, if_neg (by omega), h.byte hlen, hbit]

end

/-! #### Chunk by chunk (R276) -/

section

variable {e : Source} {cap : Nat} {p : Parse}

/-- A unit that reads well leaves the rest of the parse to the parser it gives. -/
theorem parseAll_of_unit {p' : Parse} (h : parseUnit e cap p = .ok p') (hstage : p.stage ≠ .done) :
    parseAll e cap p = parseAll e cap p' :=
  (parseAll_of_parseUnit_ok h hstage).1.symm

theorem parseAll_done (hstage : p.stage = .done) : parseAll e cap p = .ok p := by
  simp [parseAll, parseHeader, headerUnits, channelUnits, hstage, parseUnits]

theorem parseAll_tag {t : Tag} {rest : List Byte} (hstage : p.stage = .tag t)
    (h : e.holds p.pos (tagBytes t ++ rest)) :
    parseAll e cap p = parseAll e cap { p with pos := p.pos + 4, stage := .body t } ∧ e.holds (p.pos + 4) rest := by
  obtain ⟨htag, hrest⟩ := h.append
  rw [tagBytes_length] at hrest
  refine ⟨parseAll_of_unit ?_ (by rw [hstage]; exact ParseStage.noConfusion), hrest⟩
  simp only [parseUnit, hstage, htag.expectTag]

theorem parseAll_header {rate d n c : Nat} (h : e.holds 0 (headerBytes rate d n c)) (hrate : rate < 2 ^ 32)
    (hd : d ∈ Config.depths) (hn : n < 2 ^ 32) (hc : c < 2 ^ 16) (hpos : 0 < c) (hfits : n * c * bps d ≤ cap) :
    parseAll e cap Parse.start = parseAll e cap { Parse.start with
      pos := 15, stage := .tag .chan, rate := rate, depth := d, samples := n, channels := c } := by
  obtain ⟨htag, hfields⟩ := parseAll_tag (cap := cap) (p := Parse.start) rfl h
  rw [htag]
  exact parseAll_of_unit (hfields.readHeader hrate hd hn hc hpos hfits) ParseStage.noConfusion

theorem parseAll_chanChunk {n : Nat} (hstage : p.stage = .tag .chan) (h : e.holds p.pos (chanChunk n))
    (hn : n < 2 ^ 32) :
    parseAll e cap p = parseAll e cap { p with
      pos := p.pos + (chanChunk n).length, stage := .tag .zre, count := n } := by
  obtain ⟨htag, hfield⟩ := parseAll_tag (cap := cap) hstage h
  rw [htag]
  refine parseAll_of_unit ?_ ParseStage.noConfusion
  simp only [parseUnit, readCount, hfield.takeNat hn, chanChunk_length]

theorem parseAll_zreChunk {ds : List Run} (hstage : p.stage = .tag .zre) (h : e.holds p.pos (zreChunk ds))
    (hlen : ds.length < 2 ^ 32) (hds : ∀ d ∈ ds, d.start < 2 ^ 32 ∧ d.len < 2 ^ 32) :
    parseAll e cap p = parseAll e cap { p with
      pos := p.pos + (zreChunk ds).length, stage := .tag .rice, runs := ds } := by
  have hend : p.pos + (zreChunk ds).length = p.pos + 4 + 4 + 8 * ds.length := by
    rw [zreChunk_length]
    omega
  obtain ⟨htag, hbody⟩ := parseAll_tag (cap := cap) hstage h
  obtain ⟨hfield, hruns⟩ := hbody.append
  rw [leBytes_length] at hruns
  rw [htag]
  refine parseAll_of_unit ?_ ParseStage.noConfusion
  simp only [parseUnit, readZre, hfield.takeNat hlen, hruns.readRuns hds, hend]

theorem parseAll_riceChunk {ks : List Nat} (hstage : p.stage = .tag .rice) (h : e.holds p.pos (riceChunk ks))
    (hlen : ks.length < 2 ^ 32) (hks : ∀ k ∈ ks, k ≤ 32) :
    parseAll e cap p = parseAll e cap { p with
      pos := p.pos + (riceChunk ks).length, stage := .tag .data, params := ks.map Int.ofNat } := by
  have hend : p.pos + (riceChunk ks).length = p.pos + 4 + 4 + 4 * ks.length := by
    rw [riceChunk_length]
    omega
  obtain ⟨htag, hbody⟩ := parseAll_tag (cap := cap) hstage h
  obtain ⟨hfield, hparams⟩ := hbody.append
  rw [leBytes_length] at hparams
  rw [htag]
  refine parseAll_of_unit ?_ ParseStage.noConfusion
  simp only [parseUnit, readRice, hfield.takeNat hlen, hparams.readParams hks, hend]

/-- The data chunk of a channel's residuals `r`, once its other chunks have been read (R276, R281). -/
theorem parseAll_dataChunk {r : List Int} (hstage : p.stage = .tag .data)
    (h : e.holds p.pos (dataChunk (riceBits (zreEnc r).1))) (hcount : p.count = (zreEnc r).1.length)
    (hruns : p.runs = (zreEnc r).2) (hparams : p.params = (riceParams (zreEnc r).1).map Int.ofNat)
    (hsamples : p.samples = r.length)
    (hfit : ∀ v ∈ predDec (r.map fun v => unzigzag (zigzag v)), sampleFits p.depth v = true) :
    parseAll e cap p = parseAll e cap { p with
      pos := p.pos + (dataChunk (riceBits (zreEnc r).1)).length, stage := nextStage p, chan := p.chan + 1,
      pcm := p.pcm ++ [predDec (r.map fun v => unzigzag (zigzag v))] } := by
  obtain ⟨htag, hbits⟩ := parseAll_tag (cap := cap) hstage h
  have hend : p.pos + (dataChunk (riceBits (zreEnc r).1)).length =
      p.pos + 4 + ceilDiv (riceBits (zreEnc r).1).length 8 := by
    rw [dataChunk_length, ceilDiv]
    omega
  have hresiduals := zreDec_zreEnc_map (f := fun v => unzigzag (zigzag v)) unzigzag_zigzag_zero r p.chan
  have hmisfit := firstMisfit_eq_none 0 (forall_mem_iff_getD.mp hfit)
  rw [htag]
  refine parseAll_of_unit ?_ ParseStage.noConfusion
  simp only [parseUnit, readData, hcount, hruns, hparams, hsamples, riceDec_riceBits (hbits.holdsBits p.chan),
    hresiduals, hmisfit, hend, nextStage]

/-! #### Channel by channel (R270, R276) -/

/-- The parser past the four chunks of a channel's samples. -/
def Parse.pastChannel (p : Parse) (x : List Int) : Parse :=
  { p with
    pos := p.pos + (channelBytes x).length, stage := nextStage p, chan := p.chan + 1,
    count := (zreEnc (predEnc x)).1.length, runs := (zreEnc (predEnc x)).2,
    params := (riceParams (zreEnc (predEnc x)).1).map Int.ofNat, pcm := p.pcm ++ [channelDecoded x] }

/-- What the container holds of a sequence of fewer than 2^32 values are 32-bit numbers (R202). -/
theorem zreEnc_words {r : List Int} (h : r.length < 2 ^ 32) :
    (zreEnc r).1.length < 2 ^ 32 ∧ (zreEnc r).2.length < 2 ^ 32 ∧
      ∀ d ∈ (zreEnc r).2, d.start < 2 ^ 32 ∧ d.len < 2 ^ 32 := by
  obtain ⟨-, -, -, -, hcount, hwords⟩ := zeroRunOutputProperties r
  obtain ⟨hvalues, hruns⟩ := hwords h
  exact ⟨hvalues, by omega, hruns⟩

theorem riceParams_le (q : List Int) : ∀ k ∈ riceParams q, k ≤ 32 :=
  List.forall_mem_map.mpr fun b _ => blockParam_le b

theorem parseAll_channel {x : List Int} (hstage : p.stage = .tag .chan) (h : e.holds p.pos (channelBytes x))
    (hlen : x.length = p.samples) (hword : p.samples < 2 ^ 32)
    (hfit : ∀ v ∈ channelDecoded x, sampleFits p.depth v = true) :
    parseAll e cap p = parseAll e cap (p.pastChannel x) := by
  obtain ⟨hvalues, hcount, hruns⟩ := zreEnc_words (r := predEnc x) (by rw [predEnc_length]; omega)
  have hparams : (riceParams (zreEnc (predEnc x)).1).length < 2 ^ 32 := by
    rw [riceParams_length]
    omega
  obtain ⟨hchan, h⟩ := h.append
  obtain ⟨hzre, h⟩ := h.append
  obtain ⟨hrice, hdata⟩ := h.append
  have hend : p.pos + (channelBytes x).length =
      p.pos + (chanChunk (zreEnc (predEnc x)).1.length).length + (zreChunk (zreEnc (predEnc x)).2).length +
        (riceChunk (riceParams (zreEnc (predEnc x)).1)).length +
        (dataChunk (riceBits (zreEnc (predEnc x)).1)).length := by
    simp only [channelBytes, List.length_append]
    omega
  have hresiduals : p.samples = (predEnc x).length := by rw [predEnc_length, hlen]
  have hpast := (parseAll_chanChunk (cap := cap) hstage hchan hvalues).trans <|
    (parseAll_zreChunk rfl hzre hcount hruns).trans <| (parseAll_riceChunk rfl hrice hparams (riceParams_le _)).trans <|
    parseAll_dataChunk rfl hdata rfl rfl rfl hresiduals hfit
  rw [hpast, Parse.pastChannel, hend]
  rfl

/-- The second parser is the first past the channels given: what of it a DECODE's outcome depends on. -/
structure Parse.pastAll (p p' : Parse) (xs : List (List Int)) : Prop where
  pos : p'.pos = p.pos + (xs.flatMap channelBytes).length
  rate : p'.rate = p.rate
  depth : p'.depth = p.depth
  samples : p'.samples = p.samples
  channels : p'.channels = p.channels
  pcm : p'.pcm = p.pcm ++ xs.map channelDecoded

theorem Parse.pastAll.cons {p' : Parse} {x : List Int} {xs : List (List Int)} (h : (p.pastChannel x).pastAll p' xs) :
    p.pastAll p' (x :: xs) where
  pos := by rw [h.pos, List.flatMap_cons, List.length_append, ← Nat.add_assoc]; rfl
  rate := h.rate
  depth := h.depth
  samples := h.samples
  channels := h.channels
  pcm := by rw [h.pcm, List.map_cons, List.append_cons]; rfl

/-- The parse of all the channels that are left (R276). -/
theorem parseAll_channels {xs : List (List Int)} (hstage : p.stage = if p.chan < p.channels then .tag .chan else .done)
    (hcount : p.chan + xs.length = p.channels) (h : e.holds p.pos (xs.flatMap channelBytes))
    (hlen : ∀ x ∈ xs, x.length = p.samples) (hword : p.samples < 2 ^ 32)
    (hfit : ∀ x ∈ xs, ∀ v ∈ channelDecoded x, sampleFits p.depth v = true) :
    ∃ p', parseAll e cap p = .ok p' ∧ p.pastAll p' xs := by
  induction xs generalizing p with
  | nil =>
    rw [List.length_nil] at hcount
    rw [if_neg (by omega)] at hstage
    exact ⟨p, parseAll_done hstage, rfl, rfl, rfl, rfl, rfl, (List.append_nil _).symm⟩
  | cons x xs ih =>
    rw [List.length_cons] at hcount
    rw [if_pos (by omega)] at hstage
    rw [List.forall_mem_cons] at hlen hfit
    obtain ⟨hfirst, hrest⟩ := h.append
    obtain ⟨p', hparse, hpast⟩ := ih (p := p.pastChannel x) rfl (by simp only [Parse.pastChannel]; omega) hrest hlen.2
      hword hfit.2
    exact ⟨p', by rw [parseAll_channel hstage hfirst hlen.1 hword hfit.1, hparse], hpast.cons⟩

/-- ContainerDecode of a container the framer wrote, from whole channels that fit the depth: the header's values, the
container's length, and each channel decoded (R270, R276). -/
theorem parseAll_container {xs : List (List Int)} {rate d c n : Nat} (h : e.holds 0 (containerBytes xs rate d c n))
    (hrate : rate < 2 ^ 32) (hd : d ∈ Config.depths) (hn : n < 2 ^ 32) (hc : c < 2 ^ 16) (hpos : 0 < c)
    (hcap : n * c * bps d ≤ cap) (hcount : xs.length = c) (hlen : ∀ x ∈ xs, x.length = n)
    (hfit : ∀ x ∈ xs, ∀ v ∈ x, sampleFits d v = true) :
    ∃ p', parseAll e cap Parse.start = .ok p' ∧ p'.pcm = xs.map channelDecoded ∧
      p'.results = ⟨n * c * bps d, (containerBytes xs rate d c n).length, rate, d, c, n⟩ := by
  obtain ⟨hheader, hchannels⟩ := h.append
  rw [headerBytes_length] at hchannels
  rw [parseAll_header hheader hrate hd hn hc hpos hcap]
  obtain ⟨p', hparse, hpast⟩ := parseAll_channels (cap := cap) (xs := xs)
    (p := { Parse.start with
      pos := 15, stage := .tag .chan, rate := rate, depth := d, samples := n, channels := c })
    (if_pos hpos).symm ((Nat.zero_add _).trans hcount) hchannels hlen hn
    fun x hx => sampleFits_channelDecoded hd (hfit x hx)
  refine ⟨p', hparse, hpast.pcm, ?_⟩
  simp only [Parse.results, Parse.outBytes, hpast.pos, hpast.rate, hpast.depth, hpast.samples, hpast.channels,
    containerBytes, List.length_append, headerBytes_length]

end

end Sys2Proof.Machine
end

section
/-! ### DECODE of what ENCODE wrote (R270, R276, R303, R304)

An ENCODE that ends without error leaves its container in the output range. A DECODE that reads those bytes parses them
to the end, stores each channel as the coder gives it back, and reports what the header says. -/

namespace Sys2Proof.Machine

/-! #### What the ENCODE encodes and leaves (R303) -/

theorem sampleFits_ditherChannel {d : Nat} {x : List Int} (h : ∀ v ∈ x, sampleFits d v = true) :
    ∀ v ∈ ditherChannel x, sampleFits d v = true := by
  rw [forall_mem_iff_getD] at h ⊢
  intro i hi
  rw [ditherChannel_length] at hi
  rw [ditherChannel_getD]
  split_ifs
  · exact sampleFits_zero d
  · exact h i hi

theorem sampleFits_encodeInput {l : Latched} (hl : l.encodable) (m : Memory) :
    ∀ x ∈ encodeInput l m, ∀ v ∈ x, sampleFits l.depth.toNat v = true := by
  have hpos : ∀ d ∈ Config.depths, 0 < d := by decide
  intro x hx
  obtain ⟨c, -, rfl⟩ := List.mem_map.mp hx
  rw [forall_mem_iff_getD]
  intro i hi
  rw [readChannel_length] at hi
  rw [readChannel_getD _ _ _ hi]
  exact sampleFits_readSample m (hpos _ hl.depth) i c

/-- The channels encoded are the command's, each of S samples that fit the depth (R171, R303). -/
theorem encodeSamples_spec {l : Latched} (hl : l.encodable) (m : Memory) :
    (encodeSamples l m).length = l.channels.toNat ∧ (∀ x ∈ encodeSamples l m, x.length = l.samples) ∧
      ∀ x ∈ encodeSamples l m, ∀ v ∈ x, sampleFits l.depth.toNat v = true := by
  have hwhole := encodeInput_whole l m
  have hfit := sampleFits_encodeInput hl m
  rw [encodeSamples]
  split_ifs
  · refine ⟨by rw [List.length_map, encodeInput_length], List.forall_mem_map.mpr fun x hx => ?_,
      List.forall_mem_map.mpr fun x hx => sampleFits_ditherChannel (hfit x hx)⟩
    rw [ditherChannel_length, hwhole x hx]
  · exact ⟨encodeInput_length l m, hwhole, hfit⟩

/-- An ENCODE's result is without error only where the container fits, and then it is written (R303). -/
theorem encodeEffect_ok {l : Latched} {m : Memory} {v : Results} (h : (encodeEffect l m).result = .ok v) :
    (encodeContainer l m).length ≤ l.cap.toNat ∧ v = encodeResults l m ∧
      (encodeEffect l m).mem = (encodeDithered l m).writeBytes l.dst.toNat (encodeContainer l m) := by
  unfold encodeEffect at h ⊢
  dsimp only at h ⊢
  split_ifs at h ⊢ with hfits
  cases h
  exact ⟨Nat.le_of_not_lt hfits, rfl, rfl⟩

/-- What an ENCODE that ended without error leaves: its container, and the results the statement names (R303). -/
theorem encode_without_error {s t : State} {l : Latched} {work : Option Parse} (hbusy : s.phase = .busy l work)
    (hl : l.encodable) (hexec : exec .encode s = .next t) (herr : t.regs.err = false) :
    (encodeContainer l s.mem).length ≤ l.cap.toNat ∧
      t.regs.outLen = BitVec.ofNat 32 (encodeContainer l s.mem).length ∧
      t.regs.resSamples = BitVec.ofNat 32 l.samples ∧
      t.mem.readBytes l.dst.toNat (encodeContainer l s.mem).length = encodeContainer l s.mem := by
  have hcheck := (encodeCheck_none_iff l).mpr hl
  rw [exec_encode_busy hbusy, completeEncode, hcheck] at hexec
  cases hexec
  rcases settle_cases l (encodeEffect l s.mem) s with ⟨-, hend⟩ | ⟨v, hresult, hend⟩ | ⟨e, -, hend⟩
  · simp [hend] at herr
  · obtain ⟨hfits, rfl, hmem⟩ := encodeEffect_ok hresult
    simp only [hend, finishWith_regs, Regs.recordResults_outLen, Regs.recordResults_resSamples, finishWith_mem, hmem,
      readBytes_writeBytes]
    exact ⟨hfits, rfl, rfl, trivial⟩
  · simp [hend] at herr

/-! #### What the DECODE does with a parse (R304) -/

/-- A DECODE whose parse succeeds within its output range, no byte of its ranges marked, stores the channels and reports
the parse's results. -/
theorem exec_decode_of_parse {s : State} {l : Latched} {p : Parse} (hbusy : s.phase = .busy l none)
    (hl : l.decodable) (hquiet : l.quietOn s.platform.busFaults)
    (hparse : parseAll (l.source s.mem) l.cap.toNat Parse.start = .ok p) (hcap : p.outBytes ≤ l.cap.toNat) :
    exec .decode s = .next (finishWith p.results
      { s with mem := storeChannels s.mem (p.layout l) 0 p.pcm, draws := s.draws + 2 }) := by
  obtain ⟨hin, hout⟩ := hits_of_quietOn hquiet
  have hwrites : hits s.platform.busFaults [⟨l.dst.toNat, p.outBytes⟩] = false :=
    hits_part hout le_rfl (Nat.add_le_add_left hcap _)
  rw [exec_decode_busy hbusy, completeDecode_of_rangeCheck ((rangeCheck_none_iff l).mpr hl), parserAt, hparse,
    settleDecode, settle_quiet hin hwrites]
  rfl

/-! #### Both commands -/

/-- S of a legal configuration is a 32-bit number (R152). -/
theorem encodable_samples_lt {l : Latched} (hl : l.encodable) : l.samples < 2 ^ 32 := by
  have hbps : ∀ d ∈ Config.depths, 0 < bps d := by decide
  have hshape : 0 < l.channels.toNat * bps l.depth.toNat := Nat.mul_pos hl.channels (hbps _ hl.depth)
  calc l.samples
    _ ≤ l.samples * (l.channels.toNat * bps l.depth.toNat) := Nat.le_mul_of_pos_right _ hshape
    _ = l.srcLen.toNat := by rw [← mul_assoc, encodable_samples hl]
    _ < 2 ^ 32 := l.srcLen.isLt

/-- The parse of the container of a legal configuration, out of any range that is as large as the input (R270, R276). -/
theorem parseAll_encodeContainer {e : Source} {cap : Nat} {l : Latched} (hl : l.encodable) (m : Memory)
    (h : e.holds 0 (encodeContainer l m)) (hcap : l.srcLen.toNat ≤ cap) :
    ∃ p, parseAll e cap Parse.start = .ok p ∧ p.pcm = (encodeSamples l m).map channelDecoded ∧
      p.results = ⟨l.srcLen.toNat, (encodeContainer l m).length, l.rate.toNat, l.depth.toNat, l.channels.toNat,
        l.samples⟩ := by
  obtain ⟨hcount, hwhole, hfit⟩ := encodeSamples_spec hl m
  have hparse := parseAll_container (cap := cap) h l.rate.isLt hl.depth (encodable_samples_lt hl) l.channels.isLt
    hl.channels (by rwa [encodable_samples hl]) hcount hwhole hfit
  rwa [encodable_samples hl] at hparse

/-- The decoded channels read back from the buffer they were stored to (R153, R281). -/
theorem readChannels_store_decoded (m : Memory) {y : Layout} (hd : y.depth ∈ [8, 16, 24, 32]) {n : Nat}
    {xs : List (List Int)} (hcount : xs.length = y.channels) (hwhole : ∀ x ∈ xs, x.length = n)
    (hfit : ∀ x ∈ xs, ∀ v ∈ x, sampleFits y.depth v = true) :
    readChannels (storeChannels m y 0 (xs.map channelDecoded)) y n = xs.map channelDecoded := by
  refine readChannels_storeChannels m hd (by rwa [List.length_map]) (List.forall_mem_map.mpr fun x hx => ?_)
    (List.forall_mem_map.mpr fun x hx => sampleFits_channelDecoded hd (hfit x hx))
  rw [channelDecoded_length, hwhole x hx]

/-- Channels of 16-bit samples come back as they were. -/
theorem map_channelDecoded_of_fits16 {xs : List (List Int)} (h : ∀ x ∈ xs, ∀ v ∈ x, fits16 v) :
    xs.map channelDecoded = xs :=
  (List.map_congr_left fun x hx => channelDecoded_of_fits16 (h x hx)).trans (List.map_id' xs)

/-- A buffer that reads as the decoded channels holds the input's bytes, where the depth is at most 16 and the filter
changed nothing (R153, R304). -/
theorem readBytes_of_decoded_narrow {l : Latched} (hl : l.encodable) {m m' : Memory} {base : Nat}
    (hnarrow : l.depth.toNat ≤ 16) (hplain : encodeSamples l m = encodeInput l m)
    (hread : readChannels m' ⟨base, l.channels.toNat, l.depth.toNat⟩ l.samples =
      (encodeSamples l m).map channelDecoded) :
    m'.readBytes base l.srcLen.toNat = m.readBytes l.src.toNat l.srcLen.toNat := by
  have h16 : ∀ x ∈ encodeInput l m, ∀ v ∈ x, fits16 v := fun x hx v hv =>
    (sampleFits_16_iff v).mp (sampleFits_mono hnarrow (sampleFits_encodeInput hl m x hx v hv))
  rw [hplain, map_channelDecoded_of_fits16 h16] at hread
  have hbytes := readBytes_eq_of_readChannels_eq (y := ⟨base, l.channels.toNat, l.depth.toNat⟩) (y' := l.layout)
    hl.depth rfl rfl hread
  rwa [encodable_samples hl] at hbytes

/-- Settles O60: the DECODE's input holds the container, so its parse gives the channels decoded; they fit the depth,
so they read back; and where all samples are 16-bit they are the input's, and so are their bytes. -/
theorem roundTrip : Obligations.RoundTrip := by
  intro s1 s2 t1 l1 l2 w1 hbusy1 hbusy2 hl1 hencode herr hl2 hquiet hbytes hlen hcap
  obtain ⟨hfits, houtLen, hsamples, hcontainer⟩ := encode_without_error hbusy1 hl1 hencode herr
  obtain ⟨hcount, hwhole, hfit⟩ := encodeSamples_spec hl1 s1.mem
  have hlength : t1.regs.outLen.toNat = (encodeContainer l1 s1.mem).length := by
    rw [houtLen, BitVec.toNat_ofNat, Nat.mod_eq_of_lt (hfits.trans_lt l1.cap.isLt)]
  rw [hlength] at hbytes hlen
  have hholds : (l2.source s2.mem).holds 0 (encodeContainer l1 s1.mem) :=
    ⟨by rwa [Nat.zero_add], (readBytes_eq_of_read_eq hbytes).trans hcontainer⟩
  obtain ⟨p, hparse, hpcm, hresults⟩ := parseAll_encodeContainer hl1 s1.mem hholds hcap
  have hfields := hresults
  simp only [Parse.results, Results.mk.injEq] at hfields
  obtain ⟨hout, -, -, hdepth, hchannels, -⟩ := hfields
  have hlayout : p.layout l2 = ⟨l2.dst.toNat, l1.channels.toNat, l1.depth.toNat⟩ := by
    rw [Parse.layout, hchannels, hdepth]
  have hdecode := exec_decode_of_parse hbusy2 hl2 hquiet hparse (by rwa [hout])
  rw [hresults, hlayout, hpcm] at hdecode
  have hread := readChannels_store_decoded s2.mem (y := ⟨l2.dst.toNat, l1.channels.toNat, l1.depth.toNat⟩) hl1.depth
    hcount hwhole hfit
  have hfield : ∀ {w : Nat} (v : BitVec w), BitVec.ofNat w v.toNat = v := fun v => by
    rw [BitVec.ofNat_toNat, BitVec.setWidth_eq]
  refine ⟨_, hdecode, rfl, ⟨rfl, rfl, rfl, rfl⟩, hfield _, houtLen.symm, hfield _, hfield _, hfield _, hsamples.symm,
    hread, ?_, ?_⟩
  · have hword : ∀ d ∈ Config.depths, d ≤ 32 := by decide
    exact fun x hx => channelDecoded_eq_self_iff fun v hv => sampleFits_mono (hword _ hl1.depth) (hfit x hx v hv)
  · intro hnarrow hplain
    refine readBytes_of_decoded_narrow hl1 ?_ hplain hread
    rcases hnarrow with h | h <;> rw [h] <;> decide

end Sys2Proof.Machine
end

section
/-! ### The flags, the error registers and the phase over one step (R39, R40, R300, R301, R332, R371)

A command ends in one of three ways, and every step is quiet about the flags, or accepts a command, or ends one, or is
a reset. What holds of the flags and the error registers after every step is read off these four. -/

namespace Sys2Proof.Machine

/-! #### How a command ends (R301, R333) -/

/-- The registers after a command that ended: with an error, or without one and with its results or none. -/
inductive Regs.ended (r : Regs) : Regs → Prop
  | failed (e : Err) : r.ended (r.recordErr e)
  | plain : r.ended r.flagOk
  | results (v : Results) : r.ended (r.flagOk.recordResults v)

theorem Regs.ended.done {r t : Regs} (h : r.ended t) : t.done = true := by
  cases h <;> rfl

theorem settle_ended (l : Latched) (f : Effect) (s : State) : s.regs.ended (settle l f s).regs := by
  rcases settle_cases l f s with ⟨-, h⟩ | ⟨v, -, h⟩ | ⟨e, -, h⟩ <;> rw [h]
  · exact .failed _
  · exact .results v
  · exact .failed e

theorem completeEncode_ended (l : Latched) (s : State) :
    (completeEncode l s).phase = .idle ∧ s.regs.ended (completeEncode l s).regs := by
  rcases completeEncode_cases l s with ⟨e, -, h⟩ | ⟨-, h⟩ <;> rw [h]
  · exact ⟨rfl, .failed e⟩
  · exact ⟨settle_phase l _ s, settle_ended l _ s⟩

theorem completeDecode_ended (l : Latched) (work : Option Parse) (s : State) :
    (completeDecode l work s).phase = .idle ∧ s.regs.ended (completeDecode l work s).regs := by
  refine ⟨completeDecode_phase l work s, ?_⟩
  rcases completeDecode_cases l work s with ⟨e, -, h⟩ | ⟨-, h⟩ <;> rw [h]
  · exact .failed e
  · exact settle_ended l _ s

/-- The completing turn ends the running command, whatever its opcode (R301). -/
theorem completeTurn_ends {s : State} {l : Latched} {work : Option Parse} (hbusy : s.phase = .busy l work) :
    ∃ t, takeTurn (completeTurn s) s = .next t ∧ t.inputs = s.inputs ∧ t.phase = .idle ∧ s.regs.ended t.regs := by
  obtain ⟨t, ht⟩ := takeTurn_total (completeTurn s) s
  refine ⟨t, ht, (completeTurn_engineMove ht).around.inputs, ?_⟩
  rcases completeTurn_cases s with ⟨hidle, -⟩ | ⟨l', -, -, ⟨i, hdecode, hturn⟩ | ⟨e, -, hturn⟩⟩
  · cases hidle.symm.trans hbusy
  · rw [hturn, takeTurn] at ht
    rcases decodeCommand_command hdecode with rfl | rfl | rfl
    · cases (whileBusy_busy (fun _ _ => finish s) hbusy).symm.trans ht
      exact ⟨rfl, .plain⟩
    · cases (exec_encode_busy hbusy).symm.trans ht
      exact completeEncode_ended l s
    · cases (exec_decode_busy hbusy).symm.trans ht
      exact completeDecode_ended l work s
  · rw [hturn] at ht
    cases ht
    exact ⟨rfl, .failed _⟩

/-- A turn of an idle engine does nothing (R349). -/
theorem completeTurn_idle {s : State} (hidle : s.phase = .idle) : takeTurn (completeTurn s) s = .next s := by
  simp [completeTurn, hidle, takeTurn]

theorem advanceTurn_idle {s : State} (hidle : s.phase = .idle) : takeTurn (advanceTurn s) s = .next s := by
  simp [advanceTurn, hidle, takeTurn]

/-- A turn of progress leaves the registers and the command that runs, or ends the command (R56). -/
theorem advanceTurn_ends {s : State} {l : Latched} {work : Option Parse} (hbusy : s.phase = .busy l work) :
    (∃ work', takeTurn (advanceTurn s) s = .next { s with phase := .busy l work' }) ∨
    ∃ t, takeTurn (advanceTurn s) s = .next t ∧ t.inputs = s.inputs ∧ t.phase = .idle ∧ s.regs.ended t.regs := by
  by_cases hop : l.op = opDecode
  · rcases advance_decode hbusy hop with ⟨p, hturn, -⟩ | hturn
    · exact .inl ⟨some p, hturn⟩
    · exact .inr ⟨_, hturn, (completeDecode_engineMove l work s).around.inputs, completeDecode_ended l work s⟩
  · have hsame : { s with phase := .busy l work } = s := by rw [← hbusy]
    exact .inl ⟨work, by simp [advanceTurn, hbusy, hop, takeTurn, hsame]⟩

/-! #### One step (R39, R300, R301, R371) -/

/-- The error registers stay, and no flag is raised. -/
structure Regs.quiet (r t : Regs) : Prop where
  errCode : t.errCode = r.errCode
  errInfo : t.errInfo = r.errInfo
  done : t.done = true → r.done = true
  err : t.err = true → r.err = true

theorem Regs.quiet_refl (r : Regs) : r.quiet r := ⟨rfl, rfl, id, id⟩

/-- A write of 1 to a flag clears it; no write raises DONE or ERR (R39). -/
theorem Regs.quiet_clearStatus (r : Regs) (v : Word) : r.quiet (r.clearStatus v) :=
  ⟨rfl, rfl, fun h => (Bool.and_eq_true_iff.mp h).1, fun h => (Bool.and_eq_true_iff.mp h).1⟩

/-- What one step does to the flags, the error registers and the phase. -/
inductive State.flagMove (s t : State) : Prop
  | quiet (regs : s.regs.quiet t.regs) (phase : t.phase.isBusy = s.phase.isBusy)
  | accepted (regs : t.regs = s.regs.clearForAccept)
  | ended (regs : s.regs.ended t.regs) (phase : t.phase = .idle)
  | reset (regs : t.regs = Regs.reset) (phase : t.phase = .idle)

theorem flagMove_of_same {s t : State} (hregs : t.regs = s.regs) (hphase : t.phase.isBusy = s.phase.isBusy) :
    s.flagMove t :=
  .quiet (hregs ▸ s.regs.quiet_refl) hphase

theorem lockedWrite_flagMove {f : Regs → Regs} (s : State) (hf : s.regs.quiet (f s.regs)) :
    s.flagMove (lockedWrite f s) := by
  rcases lockedWrite_cases f s with ⟨-, h⟩ | ⟨-, h⟩ <;> rw [h]
  · exact .quiet ⟨rfl, rfl, id, id⟩ rfl
  · exact .quiet hf rfl

theorem writeReg_flagMove (s : State) (v : Word) (r : Reg) : s.flagMove (writeReg s v r) := by
  cases r with
  | cmd =>
    rcases cmdWrite_cases v s with ⟨-, h⟩ | ⟨-, h⟩ <;> rw [writeReg, h]
    · exact .quiet ⟨rfl, rfl, id, id⟩ rfl
    · exact .accepted rfl
  | status => exact .quiet (s.regs.quiet_clearStatus v) rfl
  | srcAddr | srcLen | dstAddr | dstCap | sampleRate | depth | channels =>
    rw [writeReg]
    refine lockedWrite_flagMove s ?_
    exact ⟨rfl, rfl, id, id⟩
  | _ => exact .quiet ⟨rfl, rfl, id, id⟩ rfl

theorem offsetWrite_flagMove (s : State) (off : Nat) (v : Word) : s.flagMove (offsetWrite s off v) := by
  rcases offsetWrite_cases s off v with h | ⟨-, r, -, h⟩ <;> rw [h]
  · exact flagMove_of_same rfl rfl
  · exact writeReg_flagMove s v r

theorem completeTurn_flagMove {s t : State} (h : takeTurn (completeTurn s) s = .next t) : s.flagMove t := by
  cases hp : s.phase with
  | idle =>
    cases (completeTurn_idle hp).symm.trans h
    exact flagMove_of_same rfl rfl
  | busy l work =>
    obtain ⟨t', ht', -, hidle, hended⟩ := completeTurn_ends hp
    cases ht'.symm.trans h
    exact .ended hended hidle

theorem advanceTurn_flagMove {s t : State} (h : takeTurn (advanceTurn s) s = .next t) : s.flagMove t := by
  cases hp : s.phase with
  | idle =>
    cases (advanceTurn_idle hp).symm.trans h
    exact flagMove_of_same rfl rfl
  | busy l work =>
    rcases advanceTurn_ends hp with ⟨work', hturn⟩ | ⟨t', hturn, -, hidle, hended⟩ <;> cases hturn.symm.trans h
    · exact flagMove_of_same rfl (by rw [hp]; rfl)
    · exact .ended hended hidle

theorem inputStep_flagMove {i : Input} {s t : State} (h : inputStep i s = .next t) : s.flagMove t := by
  cases i with
  | regWrite addr size v =>
    rcases busWrite_next h with ⟨-, rfl⟩ | ⟨-, -, -, rfl⟩
    · exact flagMove_of_same rfl rfl
    · exact offsetWrite_flagMove s _ v
  | regRead addr size => rcases busRead_next h with ⟨-, rfl⟩ | ⟨-, -, -, rfl⟩ <;> exact flagMove_of_same rfl rfl
  | memWrite addr bytes => obtain ⟨-, -, rfl⟩ := hostMemWrite_next h; exact flagMove_of_same rfl rfl
  | memRead addr len => obtain ⟨-, rfl⟩ := hostMemRead_next h; exact flagMove_of_same rfl rfl
  | resetOn => cases h; exact .reset rfl rfl
  | resetOff => cases h; exact flagMove_of_same rfl rfl
  | advance => exact advanceTurn_flagMove h
  | complete => exact completeTurn_flagMove h

/-- What a step can do to the flags and the error registers. -/
theorem step_flagMove {s t : State} (h : step s = .next t) : s.flagMove t := by
  rcases step_cases h with ⟨-, hturn⟩ | ⟨i, rest, -, hinput⟩
  · exact completeTurn_flagMove hturn
  · cases inputStep_flagMove hinput with
    | quiet hregs hphase => exact .quiet hregs hphase
    | accepted hregs => exact .accepted hregs
    | ended hregs hphase => exact .ended hregs hphase
    | reset hregs hphase => exact .reset hregs hphase

/-! #### The error codes (R40, R332) -/

/-- The low byte of ERR_CODE is the error's code (R40). -/
theorem errWord_code (e : Err) : ((errWord e).setWidth 8).toNat = e.code.toNat := by
  have hbyte : (errWord e).setWidth 8 = BitVec.ofNat 8 e.code.toNat := by
    rw [BitVec.setWidth_eq_extractLsb' (by decide)]
    exact BitVec.extractLsb'_append_eq_right
  rw [hbyte]
  cases e.code <;> rfl

/-- Every error has a code of the table, and none of them is 0 (R332). -/
theorem ErrCode.toNat_bounds (c : ErrCode) : 0 < c.toNat ∧ c.toNat ≤ 9 := by
  cases c <;> decide

/-- Where the error registers are 0 and ERR is clear, nothing is reported. -/
theorem errInv_of_zero {t : State} (hcode : t.regs.errCode = 0#32) (hinfo : t.regs.errInfo = 0#32)
    (herr : t.regs.err = false) : t.errInv := by
  rw [State.errInv, hcode, hinfo, herr]
  decide

theorem errInv_of_ended {s t : State} (h : s.regs.ended t.regs) : t.errInv := by
  rw [State.errInv]
  generalize t.regs = r at h ⊢
  cases h with
  | failed e =>
    obtain ⟨hpos, hle⟩ := e.code.toNat_bounds
    rw [Regs.recordErr_errCode, errWord_code]
    exact ⟨hle, fun h => absurd h hpos.ne', fun _ => hpos.ne'⟩
  | plain | results =>
    have hnone : ((0#32 : Word).setWidth 8).toNat ≤ 9 := by decide
    exact ⟨hnone, fun _ => ⟨rfl, rfl⟩, fun hset => Bool.noConfusion hset⟩

theorem errInv_of_quiet {s t : State} (hs : s.errInv) (h : s.regs.quiet t.regs) : t.errInv := by
  obtain ⟨hle, hzero, herr⟩ := hs
  rw [State.errInv, h.errCode, h.errInfo]
  exact ⟨hle, hzero, fun hset => herr (h.err hset)⟩

/-- Settles O42: a step keeps the error registers, clears them, or records an error of the table. -/
theorem errorCodesStayLegal : Obligations.ErrorCodesStayLegal := by
  intro s t hs h
  cases step_flagMove h with
  | quiet hregs => exact errInv_of_quiet hs hregs
  | accepted hregs => exact errInv_of_zero (by rw [hregs]; rfl) (by rw [hregs]; rfl) (by rw [hregs]; rfl)
  | ended hregs => exact errInv_of_ended hregs
  | reset hregs => exact errInv_of_zero (by rw [hregs]; rfl) (by rw [hregs]; rfl) (by rw [hregs]; rfl)

/-! #### The flags of a running command (R300, R375) -/

theorem busyInv_of_idle {t : State} (h : t.phase = .idle) : t.busyInv := by
  intro hbusy
  rw [h] at hbusy
  cases hbusy

/-- Settles O41: while a command runs a step raises no flag, and the acceptance that starts it clears them. -/
theorem busyRegistersStayClear : Obligations.BusyRegistersStayClear := by
  intro s t hs h
  cases step_flagMove h with
  | quiet hregs hphase =>
    intro hbusy
    obtain ⟨hdone, herr, hcode, hinfo⟩ := hs (hphase ▸ hbusy)
    refine ⟨?_, ?_, hregs.errCode.trans hcode, hregs.errInfo.trans hinfo⟩
    · exact Bool.eq_false_iff.mpr fun hset => Bool.eq_false_iff.mp hdone (hregs.done hset)
    · exact Bool.eq_false_iff.mpr fun hset => Bool.eq_false_iff.mp herr (hregs.err hset)
  | accepted hregs =>
    intro _
    rw [hregs]
    exact ⟨rfl, rfl, rfl, rfl⟩
  | ended _ hphase | reset _ hphase => exact busyInv_of_idle hphase

end Sys2Proof.Machine
end

section
/-! ### Every accepted command completes (R301, R349, R379)

Each turn of progress leaves the command running or ends it; an engine that is idle stays as it is; and the turn in
which nothing is pending completes what still runs. -/

namespace Sys2Proof.Machine

/-- One step of a run, then the rest. -/
theorem run_of_step {s s' : State} (h : step s = .next s') (k : Nat) :
    Host.Core.run Sys2Proof.core (k + 1) s = Host.Core.run Sys2Proof.core k s' := by
  have hstep : Sys2Proof.core.step s = .next s' := h
  simp only [Host.Core.run, hstep]

theorem run_one {s t : State} (h : step s = .next t) : Host.Core.run Sys2Proof.core 1 s = .next t :=
  run_of_step h 0

/-- The turns that are pending for an idle engine are taken and do nothing. -/
theorem run_idle {s : State} (hidle : s.phase = .idle) {k : Nat} (hinputs : s.inputs = List.replicate k .advance) :
    Host.Core.run Sys2Proof.core (k + 1) s = .next { s with inputs := [] } := by
  induction k generalizing s with
  | zero =>
    have hnone : { s with inputs := [] } = s := by rw [← (show s.inputs = [] from hinputs)]
    rw [hnone]
    exact run_one ((step_nothing_pending hinputs).trans (completeTurn_idle hidle))
  | succ k ih =>
    have hstep : step s = .next { s with inputs := List.replicate k .advance } :=
      (step_pending hinputs).trans (advanceTurn_idle (by exact hidle))
    rw [run_of_step hstep, ih (by exact hidle) rfl]

/-- Settles O38, by induction on the pending turns. -/
theorem everyAcceptedCommandCompletes : Obligations.EveryAcceptedCommandCompletes := by
  intro s l work k hbusy hinputs
  induction k generalizing s work with
  | zero =>
    obtain ⟨t, hturn, hsame, hidle, hended⟩ := completeTurn_ends hbusy
    exact ⟨t, run_one ((step_nothing_pending hinputs).trans hturn), hidle, hended.done, hsame.trans hinputs⟩
  | succ k ih =>
    have hstep := step_pending (s := s) hinputs
    rcases advanceTurn_ends (s := { s with inputs := List.replicate k .advance }) hbusy with
      ⟨work', hturn⟩ | ⟨t, hturn, hsame, hidle, hended⟩
    · rw [run_of_step (hstep.trans hturn)]
      exact ih _ work' rfl rfl
    · rw [run_of_step (hstep.trans hturn), run_idle hidle hsame]
      exact ⟨_, rfl, hidle, hended.done, rfl⟩

end Sys2Proof.Machine
end

section
/-! ### Reset (R34, R370 to R372)

Asserting reset gives the reset registers and an idle engine at once, and while it is asserted nothing gives the core
anything else: the bus writes nothing, and an idle engine's turns do nothing. -/

namespace Sys2Proof.Machine

/-! #### The reset values (R34, R371) -/

/-- What the host reads of the core in its reset state: ID, PARAM, CTRL's DITHER_EN, and 0 everywhere else. -/
theorem offsetRead_of_reset {t : State} (hregs : t.regs = Regs.reset) (hidle : t.phase = .idle)
    (hout : t.inReset = false) (off : Nat) :
    offsetRead t off =
      if off = 0x00 then 0x46415353#32 else if off = 0x04 then 0x10040A0C#32
      else if off = 0x08 then 0x00000002#32 else 0#32 := by
  cases hreg : regAt off with
  | none =>
    have hne : ∀ r : Reg, off ≠ r.offset := by
      rintro r rfl
      cases hreg.symm.trans (regAt_offset r)
    have hid : off ≠ 0x00 := hne .id
    have hparam : off ≠ 0x04 := hne .param
    have hctrl : off ≠ 0x08 := hne .ctrl
    simp [offsetRead, hout, hreg, hid, hparam, hctrl]
  | some r =>
    obtain rfl := eq_offset_of_regAt hreg
    rw [offsetRead_offset hout]
    cases r <;> simp only [readReg, hregs, hidle] <;> rfl

/-! #### What an abandoned command leaves (R372) -/

theorem resetMemory_idle {s : State} (h : s.phase = .idle) : resetMemory s = s.mem := by
  simp [resetMemory, h]

theorem resetMemory_busy {s : State} {l : Latched} {work : Option Parse} (h : s.phase = .busy l work) :
    resetMemory s = s.mem.havocAll s.draws l.looseSpans := by
  simp [resetMemory, h]

/-- A byte in none of the ranges that became unspecified is as before. -/
theorem read_havocAll_of_outside (m : Memory) (d : Nat) {sps : List Span} {a : Nat}
    (h : ¬ sps.any (fun sp => sp.has a) = true) : (m.havocAll d sps).read a = m.read a := by
  induction sps generalizing m d with
  | nil => rfl
  | cons sp rest ih =>
    rw [List.any_cons, Bool.or_eq_true, not_or] at h
    obtain ⟨hfirst, hrest⟩ := h
    exact (ih _ _ hrest).trans (read_havoc_of_outside m sp d a (by simpa using hfirst))

/-- A byte of the address space in one of them holds the value of one of their draws. -/
theorem read_havocAll_of_inside (m : Memory) (d : Nat) {sps : List Span} {a : Nat} (ha : a < Config.addrTop)
    (h : sps.any (fun sp => sp.has a) = true) :
    ∃ e, d ≤ e ∧ e < d + sps.length ∧ (m.havocAll d sps).read a = Config.freeByte e a := by
  induction sps generalizing m d with
  | nil => cases h
  | cons sp rest ih =>
    rw [List.length_cons, Memory.havocAll]
    by_cases hlater : rest.any (fun sp => sp.has a) = true
    · obtain ⟨e, hlo, hhi, hread⟩ := ih (m.havoc sp d) (d + 1) hlater
      exact ⟨e, by omega, by omega, hread⟩
    · rw [List.any_cons, Bool.or_eq_true, or_iff_left hlater, Span.has_iff] at h
      refine ⟨d, le_rfl, by omega, ?_⟩
      rw [read_havocAll_of_outside _ _ hlater, read_havoc, if_pos (by omega)]

/-- Settles O22: the ranges that become unspecified are the abandoned command's, each by a draw of this reset. -/
theorem resetAbandonsTheCommand : Obligations.ResetAbandonsTheCommand := by
  intro s l work rest hbusy hop hinputs
  refine ⟨_, step_pending hinputs, rfl, rfl, fun a ha => ?_⟩
  have hloose : l.looseSpans.any (fun sp => sp.has a) = true ↔
      l.outSpan.has a ∨ (l.op = 0x01#8 ∧ l.dither ∧ l.inSpan.has a) := by
    rw [looseSpans_any_has_iff, opEncode, opDecode, and_iff_right hop]
  have hmem : (assertReset { s with inputs := rest }).mem = s.mem.havocAll s.draws l.looseSpans :=
    resetMemory_busy hbusy
  rw [hmem]
  split_ifs with h
  · obtain ⟨d, hlo, hhi, hread⟩ := read_havocAll_of_inside s.mem s.draws ha (hloose.mpr h)
    exact ⟨d, hlo, hhi.trans_le (Nat.add_le_add_left (looseSpans_length_le l) _), hread⟩
  · exact read_havocAll_of_outside s.mem s.draws (mt hloose.mp h)

/-- A NOP or an illegal opcode has no range, so abandoning it changes no memory (log entry 13). -/
theorem looseSpans_of_other {l : Latched} (hencode : l.op ≠ opEncode) (hdecode : l.op ≠ opDecode) :
    l.looseSpans = [] := by
  rw [Latched.looseSpans, if_neg hencode, if_neg hdecode]

/-- Settles O20: two steps, the first of which gives the reset registers and an idle engine. -/
theorem resetStateOfTheMachine : Obligations.ResetStateOfTheMachine := by
  refine ⟨fun s rest hinputs => ?_, rfl, rfl, rfl, fun _ => rfl, offsetRead_of_reset rfl rfl rfl⟩
  have hon : step s = .next (assertReset { s with inputs := .resetOff :: rest }) := step_pending hinputs
  have hoff : step (assertReset { s with inputs := .resetOff :: rest }) =
      .next (releaseReset { assertReset { s with inputs := .resetOff :: rest } with inputs := rest }) := rfl
  refine ⟨_, (run_of_step hon 1).trans (run_one hoff), rfl, rfl, rfl, fun hidle => ?_,
    fun l work hbusy hencode hdecode => ?_, offsetRead_of_reset rfl rfl rfl⟩
  · exact resetMemory_idle (s := { s with inputs := .resetOff :: rest }) hidle
  · refine (resetMemory_busy (s := { s with inputs := .resetOff :: rest }) hbusy).trans ?_
    rw [looseSpans_of_other hencode hdecode]
    rfl

/-! #### Reset held (R370) -/

theorem offsetWrite_inReset_true {s : State} (h : s.inReset = true) (off : Nat) (v : Word) : offsetWrite s off v = s := by
  simp [offsetWrite, h]

theorem offsetRead_inReset_true {s : State} (h : s.inReset = true) (off : Nat) : offsetRead s off = 0#32 := by
  simp [offsetRead, h]

/-- Settles O21: the bus reaches no register while reset is asserted, and releasing it changes none. -/
theorem resetHoldsTheCore : Obligations.ResetHoldsTheCore := by
  intro s off v rest hoff halign
  refine ⟨fun hreset => ⟨fun h => ?_, fun h => ?_⟩, fun h => ?_, fun hinv hreset h => ?_⟩
  · rw [step_regWrite h hoff halign, offsetWrite_inReset_true (by exact hreset)]
  · rw [step_regRead h hoff halign, offsetRead_inReset_true hreset]
  · exact ⟨_, step_pending h, rfl, fun _ => ⟨rfl, rfl⟩⟩
  · obtain ⟨hregs, hphase⟩ := hinv hreset
    exact ⟨_, step_pending h, rfl, hregs, hphase⟩

/-- A turn that does nothing while idle, and leaves the reset input, keeps the reset state. -/
theorem resetInv_of_turn {turn : State → Turn} {s t : State} (hs : s.resetInv)
    (hidle : s.phase = .idle → takeTurn (turn s) s = .next s) (hmove : s.engineMove t)
    (h : takeTurn (turn s) s = .next t) : t.resetInv := by
  intro hreset
  have hwas : s.inReset = true := hmove.around.inReset ▸ hreset
  cases (hidle (hs hwas).2).symm.trans h
  exact hs hwas

theorem inputStep_resetInv {i : Input} {s t : State} (hs : s.resetInv) (h : inputStep i s = .next t) : t.resetInv := by
  cases i with
  | regWrite addr size v =>
    rcases busWrite_next h with ⟨-, rfl⟩ | ⟨-, -, -, rfl⟩
    · exact hs
    · intro hreset
      rw [offsetWrite_inReset] at hreset
      rw [offsetWrite_inReset_true hreset]
      exact hs hreset
  | regRead addr size => rcases busRead_next h with ⟨-, rfl⟩ | ⟨-, -, -, rfl⟩ <;> exact hs
  | memWrite addr bytes => obtain ⟨-, -, rfl⟩ := hostMemWrite_next h; exact hs
  | memRead addr len => obtain ⟨-, rfl⟩ := hostMemRead_next h; exact hs
  | resetOn => cases h; exact fun _ => ⟨rfl, rfl⟩
  | resetOff => cases h; exact fun hreset => Bool.noConfusion hreset
  | advance => exact resetInv_of_turn hs advanceTurn_idle (advanceTurn_engineMove h) h
  | complete => exact resetInv_of_turn hs completeTurn_idle (completeTurn_engineMove h) h

/-- Settles O44: the step with nothing pending is the completing turn, which is also an input. -/
theorem resetKeepsTheResetState : Obligations.ResetKeepsTheResetState := by
  intro s t hs h
  rcases step_cases h with ⟨-, hturn⟩ | ⟨i, rest, -, hinput⟩
  · exact inputStep_resetInv (i := .complete) hs hturn
  · exact inputStep_resetInv (s := { s with inputs := rest }) hs hinput

/-- Settles O45: at reset the engine is idle, the error registers are 0, and no byte is listed. -/
theorem invariantsHoldAtReset : Obligations.InvariantsHoldAtReset :=
  ⟨latchInv_of_idle rfl, busyInv_of_idle rfl, errInv_of_zero rfl rfl rfl,
    memInv_of_idle rfl ⟨powerOn_wf, fun _ hf => (List.not_mem_nil hf).elim⟩, fun hreset => Bool.noConfusion hreset⟩

end Sys2Proof.Machine
end

section
/-! ### Acceptance, and the ends without memory (R300, R302, R305, R335, R339)

An error raised before a command has touched memory leaves `State.failed`, whatever the error; so each of the checks
needs only its error, and the word that error makes of ERR_CODE. -/

namespace Sys2Proof.Machine

/-! #### Acceptance (R300) -/

/-- Settles O15: a word write at CMD's offset is `cmdWrite`. -/
theorem acceptanceLatchesTheOperands : Obligations.AcceptanceLatchesTheOperands := by
  intro s w rest hreset hinputs
  have hlatch : ∀ r : Regs, latch r w = ⟨w.extractLsb' 0 8, r.srcAddr, r.srcLen, r.dstAddr, r.dstCap, r.sampleRate,
      r.depth, r.channels, r.ditherEn⟩ := fun r => by
    rw [latch, BitVec.setWidth_eq_extractLsb' (by decide)]
  have hwrite : offsetWrite { s with inputs := rest } 0x0C w = cmdWrite w { s with inputs := rest } :=
    offsetWrite_offset (s := { s with inputs := rest }) hreset w .cmd
  rw [step_regWrite hinputs (by decide) (by decide), hwrite]
  refine ⟨fun hidle => ?_, fun hbusy => ?_⟩
  · rw [← hlatch]
    simp only [cmdWrite, hidle]
    rfl
  · rcases cmdWrite_cases w { s with inputs := rest } with ⟨-, h⟩ | ⟨hidle, -⟩
    · rw [h]
      rfl
    · exact absurd hbusy (by simp [show s.phase = .idle from hidle, Phase.isBusy])

/-! #### NOP and the illegal opcodes (R302, R305) -/

/-- Settles O23: NOP is the completion that leaves the result registers. -/
theorem nopCompletes : Obligations.NopCompletes :=
  ⟨fun s _ _ hbusy => whileBusy_busy (fun _ _ => finish s) hbusy, rfl⟩

/-- An error that is no OVERFLOW, raised with memory as it was, leaves the failed state (R333 (a)). -/
theorem raise_eq_failed {e : Err} (h : e.code ≠ .overflow) (s : State) :
    raise e s = s.failed (errWord e) (BitVec.ofNat 32 e.info) := by
  simp only [raise, Regs.recordErr, Regs.flagErr, errOutLen, if_neg h, State.failed]

/-- ERR_CODE of an error outside any channel (R40). -/
theorem errWord_noChan (code : ErrCode) (sub info need : Nat) :
    errWord ⟨code, sub, info, noChan, need⟩ = 0xFFFF#16 ++ BitVec.ofNat 8 sub ++ BitVec.ofNat 8 code.toNat := rfl

theorem errWord_errIllegal (op : Byte) : errWord (errIllegal op) = 0xFFFF0008#32 :=
  (errWord_noChan _ _ _ _).trans (by decide)

theorem errWord_errDepth (d : Nat) : errWord (errDepth d) = 0xFFFF0003#32 :=
  (errWord_noChan _ _ _ _).trans (by decide)

/-- Opcodes 3 to 255 are no command's (R112). -/
theorem decodeCommand_illegal {op : Byte} (h : 3 ≤ op.toNat) :
    decodeCommand (op.setWidth 32) = .error (.illegalOpcode op) := by
  have hne : ∀ k : Byte, k.toNat < 3 → op ≠ k := by
    rintro k hk rfl
    omega
  rw [decodeCommand_eq, lowByte_setWidth, if_neg (hne _ (by decide)), if_neg (hne _ (by decide)),
    if_neg (hne _ (by decide))]

/-- The engine that completes now takes its completing turn, with the rest left pending. -/
theorem step_of_completesNow {s : State} {rest : List Input} (h : s.completesNow rest) :
    step s = takeTurn (completeTurn { s with inputs := rest }) { s with inputs := rest } := by
  rcases h with ⟨hnone, rfl⟩ | hpending
  · have hsame : { s with inputs := [] } = s := by rw [← hnone]
    rw [hsame]
    exact step_nothing_pending hnone
  · exact step_pending hpending

/-- Settles O2: an opcode that no row of the table holds ends with its error. -/
theorem illegalOpcodeCompletes : Obligations.IllegalOpcodeCompletes := by
  intro s l work rest hbusy hop hnow
  have hturn : completeTurn { s with inputs := rest } = .reach (illegalCommand l { s with inputs := rest }) := by
    simp [completeTurn, hbusy, decodeCommand_illegal hop]
  have hinfo : BitVec.ofNat 32 (errIllegal l.op).info = l.op.setWidth 32 := BitVec.ofNat_toNat 32 l.op
  rw [step_of_completesNow hnow, hturn, takeTurn, illegalCommand, raise_eq_failed (by simp [errIllegal]),
    errWord_errIllegal, hinfo]

/-! #### The configuration checks (R335, R338, R339) -/

theorem rangeCheck_of_wraps {l : Latched}
    (h : 2 ^ 32 < l.src.toNat + l.srcLen.toNat ∨ 2 ^ 32 < l.dst.toNat + l.cap.toNat) :
    rangeCheck l = some (errConfig 1) := by
  have hwraps : (l.inSpan.wraps || l.outSpan.wraps) = true := by
    rwa [Bool.or_eq_true, Span.wraps_iff, Span.wraps_iff]
  rw [rangeCheck, if_pos hwraps]

theorem rangeCheck_of_overlaps {l : Latched}
    (h : l.src.toNat + l.srcLen.toNat ≤ 2 ^ 32 ∧ l.dst.toNat + l.cap.toNat ≤ 2 ^ 32 ∧
      0 < l.srcLen.toNat ∧ 0 < l.cap.toNat ∧ l.src.toNat < l.dst.toNat + l.cap.toNat ∧
      l.dst.toNat < l.src.toNat + l.srcLen.toNat) : rangeCheck l = some (errConfig 2) := by
  obtain ⟨hsource, htarget, hoverlap⟩ := h
  have hwraps : ¬ (l.inSpan.wraps || l.outSpan.wraps) = true := by
    rw [Bool.or_eq_true, Span.wraps_iff, Span.wraps_iff, not_or, not_lt, not_lt]
    exact ⟨hsource, htarget⟩
  rw [rangeCheck, if_neg hwraps, if_pos ((Span.overlaps_iff _ _).mpr hoverlap)]

/-- A DECODE whose range checks fail ends with their error and touches no memory (R304, R333 (a)). -/
theorem exec_decode_of_check {s : State} {l : Latched} {work : Option Parse} {e : Err}
    (hbusy : s.phase = .busy l work) (hcheck : rangeCheck l = some e) : exec .decode s = .next (raise e s) := by
  rw [exec_decode_busy hbusy, completeDecode, hcheck]

/-- Settles O28: the two range checks in order. -/
theorem decodeReportsBadRanges : Obligations.DecodeReportsBadRanges := by
  intro s l work hbusy
  refine ⟨fun h => ?_, fun h => ?_⟩
  · rw [exec_decode_of_check hbusy (rangeCheck_of_wraps h), raise_eq_failed (by simp [errConfig])]
    rfl
  · rw [exec_decode_of_check hbusy (rangeCheck_of_overlaps h), raise_eq_failed (by simp [errConfig])]
    rfl

/-- An ENCODE whose configuration checks fail ends with the first one's error and touches no memory (R303,
R333 (a)). -/
theorem exec_encode_of_check {s : State} {l : Latched} {work : Option Parse} {e : Err}
    (hbusy : s.phase = .busy l work) (hcheck : encodeCheck l = some e) (hcode : e.code ≠ .overflow) :
    exec .encode s = .next (s.failed (errWord e) (BitVec.ofNat 32 e.info)) := by
  rw [exec_encode_busy hbusy, completeEncode, hcheck]
  exact congrArg _ (raise_eq_failed hcode s)

section

variable {l : Latched}

theorem encodeCheck_of_depth (hdepth : l.depth.toNat ∉ Config.depths) :
    encodeCheck l = some (errDepth l.depth.toNat) := by
  rw [← depthOk_iff] at hdepth
  simp [encodeCheck, hdepth]

theorem encodeCheck_of_channels (hdepth : l.depth.toNat ∈ Config.depths) (hchannels : l.channels = 0#16) :
    encodeCheck l = some errNoChannels := by
  rw [← depthOk_iff] at hdepth
  simp [encodeCheck, hdepth, hchannels]

theorem encodeCheck_of_shape (hdepth : l.depth.toNat ∈ Config.depths) (hchannels : l.channels ≠ 0#16) :
    encodeCheck l =
      if l.srcLen.toNat % (l.channels.toNat * (l.depth.toNat / 8)) ≠ 0 then some (errConfig 0) else rangeCheck l := by
  have hpos : l.channels.toNat ≠ 0 := fun h => hchannels (BitVec.eq_of_toNat_eq h)
  rw [← depthOk_iff] at hdepth
  simp only [encodeCheck, hdepth, hpos, bps, Bool.not_true, Bool.false_eq_true, if_false]
  rfl

end

/-- Settles O24: the checks in order, each with its error. -/
theorem encodeReportsTheFirstFailingCheck : Obligations.EncodeReportsTheFirstFailingCheck := by
  intro s l work hbusy
  have hinfo : BitVec.ofNat 32 l.depth.toNat = l.depth.setWidth 32 := BitVec.ofNat_toNat 32 l.depth
  refine ⟨fun hdepth => ?_, fun hdepth hchannels => ?_, fun hdepth hchannels => ⟨fun hpart => ?_, fun hwhole =>
    ⟨fun hwraps => ?_, fun hoverlap => ?_⟩⟩⟩
  · have hend := exec_encode_of_check hbusy (encodeCheck_of_depth hdepth) (by simp [errDepth])
    rwa [errWord_errDepth, errDepth, hinfo] at hend
  · exact exec_encode_of_check hbusy (encodeCheck_of_channels hdepth hchannels) (by simp [errNoChannels])
  all_goals have hshape := encodeCheck_of_shape hdepth hchannels
  · rw [if_pos hpart] at hshape
    exact exec_encode_of_check hbusy hshape (by simp [errConfig])
  · rw [if_neg (not_not.mpr hwhole), rangeCheck_of_wraps hwraps] at hshape
    exact exec_encode_of_check hbusy hshape (by simp [errConfig])
  · rw [if_neg (not_not.mpr hwhole), rangeCheck_of_overlaps hoverlap] at hshape
    exact exec_encode_of_check hbusy hshape (by simp [errConfig])

end Sys2Proof.Machine
end

section
/-! ### ENCODE of a legal configuration (R47, R86, R303, R333)

What an ENCODE accesses lies in its two ranges: the samples it writes back in the input range, the container in the
output range. So where the platform marks no byte of them its own outcome stands. The container stands apart from the
samples, which read as the filter left them. -/

namespace Sys2Proof.Machine

/-! #### What a command accesses (R86, R97) -/

/-- Every byte of the first range is one of the second. -/
def Span.within (x y : Span) : Prop := y.lo ≤ x.lo ∧ x.lo + x.len ≤ y.lo + y.len

/-- What a command accesses lies in its two ranges (R86). -/
def Effect.confined (f : Effect) (l : Latched) : Prop :=
  ∀ u ∈ f.reads ++ f.writes, ∃ w ∈ [l.inSpan, l.outSpan], u.within w

/-- A platform that marks a byte the command accesses marks one of its ranges (R97). -/
theorem hits_of_confined {f : Effect} {l : Latched} {bad : List Span} (hf : f.confined l)
    (h : (hits bad f.reads || hits bad f.writes) = true) : hits bad [l.inSpan, l.outSpan] = true := by
  rw [← hits_append] at h
  obtain ⟨u, hu, hmark⟩ := List.any_eq_true.mp h
  obtain ⟨w, hw, hlo, hhi⟩ := hf u hu
  have hsingle : ∀ x : Span, hits bad [x] = bad.any fun b => b.overlaps x := fun x => Bool.or_false _
  refine List.any_eq_true.mpr ⟨w, hw, ?_⟩
  rw [← hsingle] at hmark ⊢
  by_contra hquiet
  rw [hits_part (Bool.not_eq_true _ ▸ hquiet) hlo hhi] at hmark
  cases hmark

theorem hits_eq_false_of_confined {f : Effect} {l : Latched} {bad : List Span} (hf : f.confined l)
    (hquiet : l.quietOn bad) : hits bad f.reads = false ∧ hits bad f.writes = false := by
  rw [← Bool.or_eq_false_iff, ← Bool.not_eq_true]
  intro h
  cases (hits_of_confined hf h).symm.trans hquiet

theorem settle_ok_of_quietOn {f : Effect} {l : Latched} {s : State} {v : Results} (hf : f.confined l)
    (hquiet : l.quietOn s.platform.busFaults) (hresult : f.result = .ok v) :
    settle l f s = finishWith v { s with mem := f.mem, draws := s.draws + 2 } := by
  obtain ⟨hreads, hwrites⟩ := hits_eq_false_of_confined hf hquiet
  rw [settle_quiet hreads hwrites, hresult]

theorem settle_error_of_quietOn {f : Effect} {l : Latched} {s : State} {e : Err} (hf : f.confined l)
    (hquiet : l.quietOn s.platform.busFaults) (hresult : f.result = .error e) :
    settle l f s = raise e { s with mem := f.mem.havoc l.outSpan (s.draws + 1), draws := s.draws + 2 } := by
  obtain ⟨hreads, hwrites⟩ := hits_eq_false_of_confined hf hquiet
  rw [settle_quiet hreads hwrites, hresult]

/-- The range of a changed sample is that sample's place (R172). -/
theorem mem_changedSpans {y : Layout} {c s : Nat} {x z : List Int} {sp : Span} (h : sp ∈ changedSpans y c s x z) :
    ∃ i < x.length, sp = ⟨y.addr (s + i) c, bps y.depth⟩ := by
  induction x generalizing s z with
  | nil => simp [changedSpans] at h
  | cons a as ih =>
    cases z with
    | nil => simp [changedSpans] at h
    | cons b bs =>
      have later : sp ∈ changedSpans y c (s + 1) as bs →
          ∃ i < (a :: as).length, sp = ⟨y.addr (s + i) c, bps y.depth⟩ := fun hlater => by
        obtain ⟨i, hi, hsp⟩ := ih hlater
        exact ⟨i + 1, by simpa using hi, by rw [hsp, Nat.add_right_comm, Nat.add_assoc]⟩
      rw [changedSpans] at h
      split_ifs at h
      · exact later h
      · rcases List.mem_cons.mp h with rfl | h
        · exact ⟨0, by simp, rfl⟩
        · exact later h

theorem mem_changedSpansAll {y : Layout} {c : Nat} {xs zs : List (List Int)} {sp : Span}
    (h : sp ∈ changedSpansAll y c xs zs) :
    ∃ j < xs.length, ∃ i < (xs.getD j []).length, sp = ⟨y.addr i (c + j), bps y.depth⟩ := by
  induction xs generalizing c zs with
  | nil => simp [changedSpansAll] at h
  | cons x xs ih =>
    cases zs with
    | nil => simp [changedSpansAll] at h
    | cons z zs =>
      rcases List.mem_append.mp h with h | h
      · obtain ⟨i, hi, hsp⟩ := mem_changedSpans h
        exact ⟨0, by simp, i, hi, by simpa using hsp⟩
      · obtain ⟨j, hj, i, hi, hsp⟩ := ih h
        exact ⟨j + 1, by simpa using hj, i, hi, by rw [hsp, Nat.add_assoc, Nat.add_comm 1 j]⟩

/-- A legal ENCODE reads its input range and writes there and to its output range (R86). -/
theorem encodeEffect_confined {l : Latched} (hl : l.encodable) (m : Memory) : (encodeEffect l m).confined l := by
  have hchanged : ∀ u ∈ changedSpansAll l.layout 0 (encodeInput l m) (encodeSamples l m), u.within l.inSpan := by
    intro u hu
    obtain ⟨j, hj, i, hi, rfl⟩ := mem_changedSpansAll hu
    rw [encodeInput_length] at hj
    rw [encodeInput_getD m hj, readChannel_length] at hi
    rw [Nat.zero_add]
    exact encodable_addr_mem_inSpan hl hi hj
  have huses : ∀ w : Span, w.within l.outSpan →
      ∀ u ∈ [l.inSpan] ++ (changedSpansAll l.layout 0 (encodeInput l m) (encodeSamples l m) ++ [w]),
        ∃ w ∈ [l.inSpan, l.outSpan], u.within w := by
    intro w hw u hu
    simp only [List.mem_append, List.mem_singleton] at hu
    rcases hu with rfl | hu | rfl
    · exact ⟨_, List.mem_cons_self, le_rfl, le_rfl⟩
    · exact ⟨_, List.mem_cons_self, hchanged u hu⟩
    · exact ⟨l.outSpan, by simp, hw⟩
  unfold Effect.confined encodeEffect
  dsimp only
  split_ifs with hfits
  · exact huses _ ⟨le_rfl, le_rfl⟩
  · exact huses _ ⟨le_rfl, Nat.add_le_add_left (Nat.le_of_not_lt hfits) _⟩

/-! #### The two outcomes (R303) -/

section

variable {s : State} {l : Latched} {work : Option Parse} (hbusy : s.phase = .busy l work) (hl : l.encodable)
  (hquiet : l.quietOn s.platform.busFaults)
include hbusy hl hquiet

theorem exec_encode_fits (hfits : (encodeContainer l s.mem).length ≤ l.cap.toNat) :
    exec .encode s = .next (finishWith (encodeResults l s.mem) { s with
      mem := (encodeDithered l s.mem).writeBytes l.dst.toNat (encodeContainer l s.mem), draws := s.draws + 2 }) := by
  have hresult : (encodeEffect l s.mem).result = .ok (encodeResults l s.mem) := by
    simp only [encodeEffect, if_neg (Nat.not_lt.mpr hfits)]
  obtain ⟨-, -, hmem⟩ := encodeEffect_ok hresult
  rw [exec_encode_busy hbusy, completeEncode, (encodeCheck_none_iff l).mpr hl, ← hmem]
  exact congrArg _ (settle_ok_of_quietOn (encodeEffect_confined hl s.mem) hquiet hresult)

theorem exec_encode_overflow (hover : l.cap.toNat < (encodeContainer l s.mem).length) :
    exec .encode s = .next (raise (errOverflow (encodeContainer l s.mem).length) { s with
      mem := (encodeDithered l s.mem).havoc l.outSpan (s.draws + 1), draws := s.draws + 2 }) := by
  have hresult : (encodeEffect l s.mem).result = .error (errOverflow (encodeContainer l s.mem).length) := by
    simp only [encodeEffect, if_pos hover]
  have hmem : (encodeEffect l s.mem).mem = encodeDithered l s.mem := by
    simp only [encodeEffect, if_pos hover]
  rw [exec_encode_busy hbusy, completeEncode, (encodeCheck_none_iff l).mpr hl, ← hmem]
  exact congrArg _ (settle_error_of_quietOn (encodeEffect_confined hl s.mem) hquiet hresult)

end

/-! #### The samples that stay (R171, R172) -/

theorem ditherStore_self (m : Memory) (y : Layout) (c s : Nat) (x : List Int) : ditherStore m y c s x x = m := by
  induction x generalizing s with
  | nil => rfl
  | cons a as ih => rw [ditherStore_cons, storeChanged_self, ih]

theorem ditherStoreAll_self (m : Memory) (y : Layout) (c : Nat) (xs : List (List Int)) :
    ditherStoreAll m y c xs xs = m := by
  induction xs generalizing c with
  | nil => rfl
  | cons x xs ih => rw [ditherStoreAll, ditherStore_self, ih]

theorem encodeSamples_plain {l : Latched} (hdither : l.dither = false) (m : Memory) :
    encodeSamples l m = encodeInput l m := by
  simp [encodeSamples, hdither]

/-- An ENCODE that does not dither writes no sample back (R172). -/
theorem encodeDithered_plain {l : Latched} (hdither : l.dither = false) (m : Memory) : encodeDithered l m = m := by
  rw [encodeDithered, encodeSamples_plain hdither, ditherStoreAll_self]

/-- Only an ENCODE that dithers changes bytes by its write-back, and only of its input range (R86). -/
theorem read_encodeDithered_kept {l : Latched} (hl : l.encodable) (m : Memory) {a : Nat}
    (ha : l.dither = false ∨ l.inSpan.has a = false) : (encodeDithered l m).read a = m.read a := by
  rcases ha with hdither | ha
  · rw [encodeDithered_plain hdither]
  · exact read_encodeDithered_of_outside hl m ha

/-- After the write-back the input range holds the samples the command encodes (R171, R172). -/
theorem readChannels_encodeDithered {l : Latched} (hl : l.encodable) (m : Memory) :
    readChannels (encodeDithered l m) l.layout l.samples = encodeSamples l m := by
  cases hdither : l.dither with
  | false => rw [encodeDithered_plain hdither, encodeSamples_plain hdither, encodeInput]
  | true =>
    obtain ⟨hread, -, -⟩ := ditherWritesBackOnlyChangedSamples l m hl hdither
    rw [hread, encodeSamples, if_pos hdither, encodeInput]

/-- A memory with the bytes of the input range reads as the same samples. -/
theorem readChannels_congr_inSpan {l : Latched} (hl : l.encodable) {m m' : Memory}
    (h : ∀ a, l.inSpan.has a = true → m.read a = m'.read a) :
    readChannels m l.layout l.samples = readChannels m' l.layout l.samples := by
  refine List.map_congr_left fun c hc => readChannel_congr fun s hs => readSample_congr fun k hk => h _ ?_
  obtain ⟨hlo, hhi⟩ := encodable_addr_mem_inSpan hl hs (List.mem_range.mp hc)
  rw [Span.has_iff]
  omega

/-- The samples encoded are those read, each channel dithered where the command dithers (R171, R303). -/
theorem encodeSamples_eq_map (l : Latched) (m : Memory) :
    encodeSamples l m = (encodeInput l m).map fun x => if l.dither then ditherChannel x else x := by
  cases hdither : l.dither with
  | false => simp [encodeSamples_plain hdither]
  | true => simp [encodeSamples, hdither]

/-! #### The outcomes as the statements name them (R47 to R49, R333) -/

/-- A result that fits its register is reported as it is. -/
theorem toNat_ofNat_of_fits {w n : Nat} (h : n < 2 ^ w) : (BitVec.ofNat w n).toNat = n := by
  rw [BitVec.toNat_ofNat, Nat.mod_eq_of_lt h]

/-- An operand that is reported as a result is the operand. -/
theorem ofNat_toNat_same {w : Nat} (v : BitVec w) : BitVec.ofNat w v.toNat = v := by
  rw [BitVec.ofNat_toNat, BitVec.setWidth_eq]

/-- Settles O25: the container is written apart from the samples, and its length is that of the output's bytes. -/
theorem encodeWritesTheContainer : Obligations.EncodeWritesTheContainer := by
  intro s l work hbusy hl hquiet hfits
  have hexec := exec_encode_fits hbusy hl hquiet hfits
  have hapart : ∀ a, l.inSpan.has a = true → a < l.dst.toNat ∨ l.dst.toNat + (encodeContainer l s.mem).length ≤ a := by
    intro a ha
    have hout : ¬(l.dst.toNat ≤ a ∧ a < l.dst.toNat + l.cap.toNat) :=
      mt (Span.has_iff l.outSpan a).mpr (by simp [Span.apart hl.apart a ha])
    omega
  refine ⟨_, hexec, (exec_engineMove hexec).around, rfl, ⟨rfl, rfl, rfl, rfl⟩,
    toNat_ofNat_of_fits (hfits.trans_lt l.cap.isLt), ofNat_toNat_same _, ofNat_toNat_same _, ofNat_toNat_same _,
    ofNat_toNat_same _, toNat_ofNat_of_fits (encodable_samples_lt hl), readBytes_writeBytes _ _ _, ?_, rfl,
    encodeSamples_eq_map l s.mem, fun a hout hkept => ?_⟩
  · rw [← readChannels_encodeDithered hl s.mem]
    exact readChannels_congr_inSpan hl fun a ha => read_writeBytes_of_outside _ _ _ a (hapart a ha)
  · exact (read_writeBytes_of_outside _ _ _ a (by omega)).trans (read_encodeDithered_kept hl s.mem hkept)

/-- The registers after an error (R333). -/
theorem recordErr_endedWith_outLen (r : Regs) (e : Err) :
    (r.recordErr e).endedWith (errWord e) (BitVec.ofNat 32 e.info) (errOutLen e) :=
  ⟨rfl, rfl, rfl, rfl, rfl, ⟨rfl, rfl, rfl, rfl, rfl⟩⟩

theorem errWord_errOverflow (need : Nat) : errWord (errOverflow need) = 0xFFFF0006#32 :=
  (errWord_noChan _ _ _ _).trans (by decide)

/-- Settles O26: the output range is left unspecified, apart from the samples. -/
theorem encodeOverflowReportsTheSize : Obligations.EncodeOverflowReportsTheSize := by
  intro s l work hbusy hl hquiet hover
  have hexec := exec_encode_overflow hbusy hl hquiet hover
  have hended := recordErr_endedWith_outLen s.regs (errOverflow (encodeContainer l s.mem).length)
  rw [errWord_errOverflow] at hended
  refine ⟨_, hexec, (exec_engineMove hexec).around, rfl, hended, ?_, fun a hout hkept => ?_⟩
  · rw [← readChannels_encodeDithered hl s.mem]
    exact readChannels_congr_inSpan hl fun a ha => read_havoc_of_outside _ _ _ a (Span.apart hl.apart a ha)
  · exact (read_havoc_of_outside _ _ _ a hout).trans (read_encodeDithered_kept hl s.mem hkept)

end Sys2Proof.Machine
end

section
/-! ### The parser's units as equations, and where a parse ends (R276, R277, R281)

Each unit is its checks in order and then the parser past its fields. A parse that raises no error takes every unit of
the header and of each channel, so it ends past the last channel, inside the input and within the output range. -/

namespace Sys2Proof.Machine

section

variable {e : Source} {cap : Nat}

/-! #### The fields of a chunk (R117 to R119) -/

theorem readCount_eq (e : Source) (p : Parse) : readCount e p =
    if e.len < p.pos + 4 then .error (errTruncated 1 p.pos p.chan)
    else .ok { p with pos := p.pos + 4, stage := .tag .zre, count := e.nat p.pos 4 } := by
  rw [readCount, takeNat]
  split_ifs <;> rfl

theorem readZre_eq (e : Source) (p : Parse) : readZre e p =
    if e.len < p.pos + 4 then .error (errTruncated 1 p.pos p.chan)
    else if e.len < p.pos + 4 + 8 * e.nat p.pos 4 then
      .error (errTruncated 1 (p.pos + 4 + 4 * ((e.len - (p.pos + 4)) / 4)) p.chan)
    else .ok { p with
      pos := p.pos + 4 + 8 * e.nat p.pos 4, stage := .tag .rice,
      runs := (List.range (e.nat p.pos 4)).map fun j =>
        ⟨e.nat (p.pos + 4 + 8 * j) 4, e.nat (p.pos + 8 + 8 * j) 4⟩ } := by
  by_cases hcount : e.len < p.pos + 4
  · simp only [readZre, takeNat, if_pos hcount]
  by_cases hruns : e.len < p.pos + 4 + 8 * e.nat p.pos 4
  · simp only [readZre, takeNat, readRuns_eq, if_neg hcount, if_pos hruns,
      if_neg (show ¬(p.pos + 4 + 8 * e.nat p.pos 4 ≤ e.len ∨ e.nat p.pos 4 = 0) by omega), errTruncated]
  · simp only [readZre, takeNat, readRuns_eq, if_neg hcount, if_neg hruns, if_pos (Or.inl (Nat.le_of_not_lt hruns))]

theorem readRice_eq (e : Source) (p : Parse) : readRice e p =
    if e.len < p.pos + 4 then .error (errTruncated 1 p.pos p.chan)
    else if e.len < p.pos + 4 + 4 * e.nat p.pos 4 then
      .error (errTruncated 1 (p.pos + 4 + 4 * ((e.len - (p.pos + 4)) / 4)) p.chan)
    else .ok { p with
      pos := p.pos + 4 + 4 * e.nat p.pos 4, stage := .tag .data,
      params := (List.range (e.nat p.pos 4)).map fun j =>
        (BitVec.ofNat 32 (e.nat (p.pos + 4 + 4 * j) 4)).toInt } := by
  by_cases hcount : e.len < p.pos + 4
  · simp only [readRice, takeNat, if_pos hcount]
  by_cases hparams : e.len < p.pos + 4 + 4 * e.nat p.pos 4
  · simp only [readRice, takeNat, readParams_eq, if_neg hcount, if_pos hparams,
      if_neg (show ¬(p.pos + 4 + 4 * e.nat p.pos 4 ≤ e.len ∨ e.nat p.pos 4 = 0) by omega), errTruncated]
  · simp only [readRice, takeNat, readParams_eq, if_neg hcount, if_neg hparams,
      if_pos (Or.inl (Nat.le_of_not_lt hparams))]

/-- The bytes the Rice decoder passes are bytes of the input (R251). -/
theorem riceDec_end_le {c p0 n t : Nat} {ks q : List Int} (h : riceDec e c p0 n ks = .ok (q, t)) (hp : p0 ≤ e.len) :
    p0 + ceilDiv t 8 ≤ e.len := by
  obtain ⟨bits, hholds, ht, -⟩ := riceDec_dependsOnBitsRead n ks e q t h
  rw [Nat.zero_add] at ht
  cases hbits : bits.length with
  | zero => rw [ht, hbits, ceilDiv]; omega
  | succ k =>
    have hlast := hholds k (by omega)
    rw [Nat.zero_add, readBit] at hlast
    split_ifs at hlast with hin
    rw [ht, hbits, ceilDiv]
    omega

/-! #### What every unit keeps (R276) -/

/-- What the units keep of one parser, all of them in order keep. -/
theorem parseUnits_keeps {P : Parse → Prop} (hunit : ∀ p p', P p → parseUnit e cap p = .ok p' → P p') {k : Nat}
    {p p' : Parse} (h : parseUnits e cap k p = .ok p') (hp : P p) : P p' := by
  induction k generalizing p with
  | zero => cases h; exact hp
  | succ k ih =>
    rw [parseUnits] at h
    split at h
    · cases h
    next p1 hp1 => exact ih h (hunit p p1 hp hp1)

/-- What a parser holds was read from the input: its position lies in it, the header's fields have their widths, the
channels reconstructed fit the depth, and no channel is left once it is done. -/
structure Parse.readFrom (p : Parse) (e : Source) : Prop where
  pos : p.pos ≤ e.len
  rate : p.rate < 2 ^ 32
  samples : p.samples < 2 ^ 32
  channels : p.channels < 2 ^ 16
  fit : ∀ x ∈ p.pcm, ∀ v ∈ x, sampleFits p.depth v = true
  last : p.stage = .done → p.channels ≤ p.chan

theorem start_readFrom (e : Source) : Parse.start.readFrom e where
  pos := Nat.zero_le _
  rate := by decide
  samples := by decide
  channels := by decide
  fit := by simp [Parse.start]
  last := by simp [Parse.start]

/-- A unit that moves on in its input and reads no header field or channel keeps what was read. -/
theorem Parse.readFrom.move {p p' : Parse} (h : p.readFrom e) (hpos : p'.pos ≤ e.len) (hstage : p'.stage ≠ .done)
    (hrate : p'.rate = p.rate) (hdepth : p'.depth = p.depth) (hsamples : p'.samples = p.samples)
    (hchannels : p'.channels = p.channels) (hpcm : p'.pcm = p.pcm) : p'.readFrom e where
  pos := hpos
  rate := hrate ▸ h.rate
  samples := hsamples ▸ h.samples
  channels := hchannels ▸ h.channels
  fit := by rw [hpcm, hdepth]; exact h.fit
  last := fun hdone => absurd hdone hstage

/-- The header's fields are as wide as the bytes they are read from (R116). -/
theorem readHeader_readFrom {p p' : Parse} (h : readHeader e cap p = .ok p') (hpcm : p.pcm = []) :
    p'.readFrom e := by
  obtain ⟨rate, d, n, c, hlen, rfl, -, rfl, rfl, -, -, -, rfl⟩ := readHeader_ok h
  exact ⟨hlen, source_nat_lt e _ 4, source_nat_lt e _ 4, source_nat_lt e _ 2, by simp [hpcm], by simp⟩

/-- A channel that decodes fits the depth, and the parser is done only past the last one (R281). -/
theorem readData_readFrom {p p' : Parse} (h : readData e p = .ok p') (hp : p.readFrom e) : p'.readFrom e := by
  obtain ⟨q, t, r, hrice, -, -, hfit, rfl⟩ := readData_ok h
  refine ⟨riceDec_end_le hrice hp.pos, hp.rate, hp.samples, hp.channels, ?_, fun hdone => ?_⟩
  · exact List.forall_mem_append.mpr ⟨hp.fit, List.forall_mem_singleton.mpr hfit⟩
  · simp only [nextStage] at hdone
    split_ifs at hdone with hnext
    exact Nat.le_of_not_lt hnext

theorem parseUnit_readFrom {p p' : Parse} (hplace : p.inHeader ∨ p.sound cap) (hp : p.readFrom e)
    (h : parseUnit e cap p = .ok p') : p'.readFrom e := by
  unfold parseUnit at h
  split at h
  · obtain ⟨hlen, rfl⟩ := expectTag_ok h
    exact hp.move hlen ParseStage.noConfusion rfl rfl rfl rfl rfl
  · next hs =>
    rcases hplace with ⟨-, hpcm, -⟩ | hsound
    · exact readHeader_readFrom h hpcm
    · exact absurd hs hsound.past.2
  · obtain ⟨hlen, rfl⟩ := readCount_ok h
    exact hp.move hlen ParseStage.noConfusion rfl rfl rfl rfl rfl
  · rw [readZre_eq] at h
    split_ifs at h with _ hlen
    cases h
    exact hp.move (Nat.le_of_not_lt hlen) ParseStage.noConfusion rfl rfl rfl rfl rfl
  · rw [readRice_eq] at h
    split_ifs at h with _ hlen
    cases h
    exact hp.move (Nat.le_of_not_lt hlen) ParseStage.noConfusion rfl rfl rfl rfl rfl
  · exact readData_readFrom h hp
  · cases h
    exact hp

theorem parseUnits_readFrom {k : Nat} {p p' : Parse} (h : parseUnits e cap k p = .ok p')
    (hplace : p.inHeader ∨ p.sound cap) (hp : p.readFrom e) : p'.readFrom e :=
  (parseUnits_keeps (P := fun p => (p.inHeader ∨ p.sound cap) ∧ p.readFrom e)
    (fun _ _ ⟨hplace, hp⟩ hunit => ⟨parseUnit_sound hunit hplace, parseUnit_readFrom hplace hp hunit⟩) h
    ⟨hplace, hp⟩).2

/-! #### Where a parse ends (R276) -/

/-- Past the header, a unit leaves one unit fewer, and never goes back to the header. -/
theorem parseUnit_channelUnits {p p' : Parse} (h : parseUnit e cap p = .ok p') (hp : p.sound cap)
    (hdone : p.stage ≠ .done) :
    (p'.stage ≠ .tag .ssaf ∧ p'.stage ≠ .body .ssaf) ∧ channelUnits p = channelUnits p' + 1 := by
  have hleft := hp.left hdone
  unfold parseUnit at h
  split at h
  · next want hs =>
    obtain ⟨-, rfl⟩ := expectTag_ok h
    cases want with
    | ssaf => exact absurd hs hp.past.1
    | chan | zre | rice | data => simp only [channelUnits, hs]; exact ⟨⟨by simp, by simp⟩, by omega⟩
  · next hs => exact absurd hs hp.past.2
  · next hs =>
    obtain ⟨-, rfl⟩ := readCount_ok h
    simp only [channelUnits, hs]
    exact ⟨⟨by simp, by simp⟩, by omega⟩
  · next hs =>
    obtain ⟨ds, pos, -, rfl⟩ := readZre_ok h
    simp only [channelUnits, hs]
    exact ⟨⟨by simp, by simp⟩, by omega⟩
  · next hs =>
    obtain ⟨ks, pos, -, rfl⟩ := readRice_ok h
    simp only [channelUnits, hs]
    exact ⟨⟨by simp, by simp⟩, by omega⟩
  · next hs =>
    obtain ⟨q, t, r, -, -, -, -, rfl⟩ := readData_ok h
    by_cases hnext : p.chan + 1 < p.channels
    · simp only [channelUnits, hs, nextStage, if_pos hnext]
      exact ⟨⟨by simp, by simp⟩, by omega⟩
    · simp only [channelUnits, hs, nextStage, if_neg hnext]
      exact ⟨⟨by simp, by simp⟩, by omega⟩
  · next hs => exact absurd hs hdone

/-- All the units of the channels that are left end past the last channel. -/
theorem parseUnits_channelUnits_done {k : Nat} {p p' : Parse} (h : parseUnits e cap k p = .ok p') (hp : p.sound cap)
    (hk : channelUnits p ≤ k) : p'.stage = .done := by
  induction k generalizing p with
  | zero =>
    obtain rfl : p = p' := Except.ok.inj h
    have hunits : channelUnits p = 0 := Nat.le_zero.mp hk
    have hpast := hp.past
    cases hs : p.stage with
    | done => rfl
    | tag t | body t => cases t <;> simp [channelUnits, hs] at hunits hpast
  | succ k ih =>
    by_cases hdone : p.stage = .done
    · have hstay : ∀ k, parseUnits e cap k p = .ok p := fun k => by
        induction k with
        | zero => rfl
        | succ k ih => simp only [parseUnits, parseUnit, hdone, ih]
      cases (hstay _).symm.trans h
      exact hdone
    · rw [parseUnits] at h
      split at h
      · cases h
      next p1 hunit =>
        obtain ⟨⟨htag, hbody⟩, hunits⟩ := parseUnit_channelUnits hunit hp hdone
        rcases parseUnit_sound hunit (.inr hp) with ⟨hstage, -, -⟩ | hp1
        · exact absurd hstage (not_or.mpr ⟨htag, hbody⟩)
        · exact ih h hp1 (by omega)

/-- A header that reads well leaves a parser that fits the output range (R276). -/
theorem parseHeader_start_sound {p : Parse} (h : parseHeader e cap Parse.start = .ok p) : p.sound cap := by
  have hplace := parseUnits_sound h (.inl start_inHeader)
  have hstage : p.stage = .tag .chan := by
    change parseUnits e cap 2 Parse.start = .ok p at h
    rw [parseUnits] at h
    split at h
    · cases h
    next p1 htag =>
      obtain ⟨-, rfl⟩ := expectTag_ok (want := .ssaf) htag
      rw [parseUnits] at h
      split at h
      · cases h
      next p2 hheader =>
        cases h
        obtain ⟨_, _, _, _, -, -, -, -, -, -, -, -, rfl⟩ := readHeader_ok hheader
        rfl
  rcases hplace with ⟨hheader, -, -⟩ | hsound
  · simp [hstage] at hheader
  · exact hsound

/-- ContainerDecode that raises no error ends inside its input, with every channel of the header reconstructed, all of
S samples that fit the depth, within the output range (R276, R281). -/
theorem parseAll_start_ok {p : Parse} (h : parseAll e cap Parse.start = .ok p) :
    p.readFrom e ∧ p.sound cap ∧ p.pcm.length = p.channels := by
  rw [parseAll] at h
  split at h
  · cases h
  next p1 hheader =>
    have hsound1 := parseHeader_start_sound hheader
    have hread := parseUnits_readFrom h (.inr hsound1)
      (parseUnits_readFrom hheader (.inl start_inHeader) (start_readFrom e))
    have hdone := parseUnits_channelUnits_done h hsound1 le_rfl
    rcases parseUnits_sound h (.inr hsound1) with ⟨hheader, -, -⟩ | hsound
    · simp [hdone] at hheader
    · exact ⟨hread, hsound, hsound.count.trans (le_antisymm hsound.chan (hread.last hdone))⟩

end

end Sys2Proof.Machine
end

section
/-! ### DECODE's success, and bus errors (R97, R304, R340)

A DECODE stores the channels of a finished parse inside its output range. So what an ENCODE or a DECODE accesses always
lies in its two ranges, and a bus error is the only way the platform changes an outcome. -/

namespace Sys2Proof.Machine

/-! #### The samples stored (R281, R304) -/

/-- A byte outside the samples of a finished parse is as before (R86). -/
theorem read_storeChannels_of_parse {l : Latched} {p : Parse} (hp : p.sound l.cap.toNat)
    (hcount : p.pcm.length = p.channels) (m : Memory) {a : Nat}
    (ha : ¬(l.dst.toNat ≤ a ∧ a < l.dst.toNat + p.outBytes)) :
    (storeChannels m (p.layout l) 0 p.pcm).read a = m.read a := by
  refine read_storeChannels_of_outside m _ 0 _ a fun j hj i hi => ?_
  rw [hp.whole _ (List.getElem_mem hj)] at hi
  have hlo : l.dst.toNat ≤ (p.layout l).addr i (0 + j) := Nat.le_add_right _ _
  have hhi : (p.layout l).addr i (0 + j) + bps (p.layout l).depth ≤ l.dst.toNat + p.outBytes :=
    addr_le_end hi (by change 0 + j < p.channels; omega) le_rfl
  omega

/-- Settles O29: a parse that raises no error fits the output range, and its samples the depth. -/
theorem decodeStoresTheSamples : Obligations.DecodeStoresTheSamples := by
  intro s l p hbusy hl hquiet hparse
  obtain ⟨hread, hsound, hcount⟩ := parseAll_start_ok hparse
  have hbyte : ∀ d ∈ Config.depths, d < 2 ^ 8 := by decide
  have hpos : p.pos ≤ l.srcLen.toNat := hread.pos
  have hexec := exec_decode_of_parse hbusy hl hquiet hparse hsound.fits
  exact ⟨_, hexec, (exec_engineMove hexec).around, rfl, ⟨rfl, rfl, rfl, rfl⟩,
    toNat_ofNat_of_fits (hsound.fits.trans_lt l.cap.isLt), toNat_ofNat_of_fits (hpos.trans_lt l.srcLen.isLt), hpos,
    toNat_ofNat_of_fits hread.rate, toNat_ofNat_of_fits (hbyte _ hsound.depth), toNat_ofNat_of_fits hread.channels,
    toNat_ofNat_of_fits hread.samples,
    readChannels_storeChannels s.mem (y := p.layout l) hsound.depth hcount hsound.whole hread.fit,
    fun a ha => read_storeChannels_of_parse hsound hcount s.mem ha⟩

/-! #### Bus errors (R97, R340) -/

/-- The same machine on a platform that marks no byte. -/
def State.unmarked (s : State) : State := { s with platform := { s.platform with busFaults := [] } }

theorem quietOn_unmarked (s : State) (l : Latched) : l.quietOn s.unmarked.platform.busFaults := rfl

/-- A DECODE reads its input range and writes to its output range (R86). -/
theorem decodeEffect_confined {l : Latched} (m : Memory) (known : Nat) {r : Except Err Parse}
    (hr : ∀ p, r = .ok p → p.outBytes ≤ l.cap.toNat) : (decodeEffect l m known r).confined l := by
  have huses : ∀ w : Span, w.within l.outSpan → ∀ u ∈ [l.inSpan] ++ [w], ∃ w ∈ [l.inSpan, l.outSpan], u.within w := by
    intro w hw u hu
    simp only [List.mem_append, List.mem_singleton] at hu
    rcases hu with rfl | rfl
    · exact ⟨_, List.mem_cons_self, le_rfl, le_rfl⟩
    · exact ⟨l.outSpan, by simp, hw⟩
  cases r with
  | ok p => exact huses _ ⟨le_rfl, Nat.add_le_add_left (hr p rfl) _⟩
  | error e => exact huses _ ⟨le_rfl, le_rfl⟩

/-- The outcome of a command that BUS ended: what it reports, which byte allowed it, and what it may change. -/
structure State.endedByBus (s t : State) (l : Latched) (channels : Nat) : Prop where
  report : ∃ (chan : Half) (sub : Byte) (info : Word), t.regs.endedWith (chan ++ sub ++ 0x09#8) info 0#32 ∧
    (sub = 0#8 ∨ sub = 1#8) ∧ (channels < 2 ^ 16 → chan = 0xFFFF#16 ∨ chan.toNat < channels)
  marked : hits s.platform.busFaults [l.inSpan, l.outSpan] = true
  frame : ∀ a, l.inSpan.has a = false → l.outSpan.has a = false → t.mem.read a = s.mem.read a

theorem busErr_chan (bad : List Span) (f : Effect) (d : Nat) (h : f.channels < 2 ^ 16) :
    BitVec.ofNat 16 (busErr bad f d).chan = 0xFFFF#16 ∨ (BitVec.ofNat 16 (busErr bad f d).chan).toNat < f.channels := by
  simp only [busErr]
  split_ifs with hknown
  · exact .inr (by rwa [BitVec.toNat_ofNat, Nat.mod_eq_of_lt (hknown.trans h)])
  · exact .inl rfl

theorem busErr_sub (bad : List Span) (f : Effect) (d : Nat) :
    BitVec.ofNat 8 (busErr bad f d).sub = 0#8 ∨ BitVec.ofNat 8 (busErr bad f d).sub = 1#8 := by
  simp only [busErr]
  split_ifs
  · exact .inr rfl
  · exact .inl rfl

/-- A command whose accesses lie in its ranges ends as on the unmarked platform, or by BUS (R340). -/
theorem settle_unmarked_or_bus {l : Latched} {f : Effect} (hf : f.confined l) (s : State) :
    ((settle l f s).regs = (settle l f s.unmarked).regs ∧ (settle l f s).mem = (settle l f s.unmarked).mem) ∨
      s.endedByBus (settle l f s) l f.channels := by
  rcases settle_cases l f s with ⟨hmark, hend⟩ | ⟨v, hresult, hend⟩ | ⟨e, hresult, hend⟩ <;> rw [hend]
  · refine .inr ⟨⟨_, _, _, recordErr_endedWith s.regs (by simp [busErr]), busErr_sub _ f _, busErr_chan _ f _⟩,
      hits_of_confined hf hmark, fun a hin hout => ?_⟩
    exact (read_havoc_of_outside _ _ _ a hout).trans (read_havoc_of_outside _ _ _ a hin)
  · rw [settle_ok_of_quietOn hf (quietOn_unmarked s l) hresult]
    exact .inl ⟨rfl, rfl⟩
  · rw [settle_error_of_quietOn hf (quietOn_unmarked s l) hresult]
    exact .inl ⟨rfl, rfl⟩

theorem encodeEffect_channels (l : Latched) (m : Memory) : (encodeEffect l m).channels = l.channels.toNat := by
  simp only [encodeEffect]
  split_ifs <;> rfl

theorem completeEncode_unmarked_or_bus (l : Latched) (s : State) :
    ((completeEncode l s).regs = (completeEncode l s.unmarked).regs ∧
      (completeEncode l s).mem = (completeEncode l s.unmarked).mem) ∨
      s.endedByBus (completeEncode l s) l l.channels.toNat := by
  cases hcheck : encodeCheck l with
  | some e => simp only [completeEncode, hcheck]; exact .inl ⟨rfl, rfl⟩
  | none =>
    have hend : ∀ t : State, t.mem = s.mem → completeEncode l t = settle l (encodeEffect l s.mem) t := fun t hmem => by
      simp only [completeEncode, hcheck, hmem]
    rw [hend s rfl, hend s.unmarked rfl, ← encodeEffect_channels l s.mem]
    exact settle_unmarked_or_bus (encodeEffect_confined ((encodeCheck_none_iff l).mp hcheck) s.mem) s

theorem completeDecode_unmarked_or_bus (l : Latched) (s : State) :
    ((completeDecode l none s).regs = (completeDecode l none s.unmarked).regs ∧
      (completeDecode l none s).mem = (completeDecode l none s.unmarked).mem) ∨
      ∃ channels, s.endedByBus (completeDecode l none s) l channels := by
  cases hcheck : rangeCheck l with
  | some e => simp only [completeDecode, hcheck]; exact .inl ⟨rfl, rfl⟩
  | none =>
    rw [completeDecode_of_rangeCheck hcheck, completeDecode_of_rangeCheck hcheck]
    have hfits : ∀ p, parseAll (l.source s.mem) l.cap.toNat Parse.start = .ok p → p.outBytes ≤ l.cap.toNat :=
      fun p hparse => by
        obtain ⟨-, hsound, -⟩ := parseAll_start_ok hparse
        exact hsound.fits
    have hconfined :=
      decodeEffect_confined s.mem (channelsKnown (l.source s.mem) l.cap.toNat Parse.start) hfits
    exact (settle_unmarked_or_bus hconfined s).imp_right fun hbus => ⟨_, hbus⟩

/-- Settles O32: each command's completion, on the platform and on the unmarked one. -/
theorem busErrorOrTheSameOutcome : Obligations.BusErrorOrTheSameOutcome := by
  intro s l i hbusy hi
  have hbusy0 : s.unmarked.phase = .busy l none := hbusy
  rcases hi with rfl | rfl
  · refine ⟨_, _, exec_encode_busy hbusy, exec_encode_busy hbusy0, ?_⟩
    refine (completeEncode_unmarked_or_bus l s).imp_right fun hbus => ?_
    obtain ⟨chan, sub, info, hended, hsub, hchan⟩ := hbus.report
    exact ⟨chan, sub, info, hended, hsub, fun _ => hchan l.channels.isLt, hbus.marked, hbus.frame⟩
  · refine ⟨_, _, exec_decode_busy hbusy, exec_decode_busy hbusy0, ?_⟩
    refine (completeDecode_unmarked_or_bus l s).imp_right fun ⟨_, hbus⟩ => ?_
    obtain ⟨chan, sub, info, hended, hsub, -⟩ := hbus.report
    exact ⟨chan, sub, info, hended, hsub, fun h => Instr.noConfusion h, hbus.marked, hbus.frame⟩

end Sys2Proof.Machine
end

section
/-! ### DECODE's errors (R276, R277, R281, R304, R333, R336)

The error a DECODE reports is its parse's, and the parse's is the first unit's that raises one: what the units before it
read plays no part but for the parser they leave. -/

namespace Sys2Proof.Machine

/-! #### The command (R304, R333) -/

section

variable {s : State} {l : Latched} {work : Option Parse} {x : Err} (hbusy : s.phase = .busy l work)
  (hl : l.decodable) (hquiet : l.quietOn s.platform.busFaults)
  (hparse : parseAll (l.source s.mem) l.cap.toNat (parserAt work) = .error x)
include hbusy hl hquiet hparse

/-- A DECODE whose parse raises an error, no byte of its ranges marked, raises it and leaves its output range
unspecified (R333 (b)). -/
theorem exec_decode_of_error : exec .decode s =
    .next (raise x { s with mem := s.mem.havoc l.outSpan (s.draws + 1), draws := s.draws + 2 }) := by
  rw [exec_decode_busy hbusy, completeDecode_of_rangeCheck ((rangeCheck_none_iff l).mpr hl), hparse, settleDecode,
    settle_error_of_quietOn (decodeEffect_confined (r := .error x) _ _ fun _ hok => by cases hok) hquiet rfl]
  rfl

theorem decodeEnds_of_error : s.decodeEnds (errWord x) (BitVec.ofNat 32 x.info) (errOutLen x) :=
  ⟨_, exec_decode_of_error hbusy hl hquiet hparse, rfl, recordErr_endedWith_outLen s.regs x⟩

end

/-! #### The units in order (R276, R336) -/

section

variable {e : Source} {cap : Nat} {p : Parse}

theorem parseUnit_done (hstage : p.stage = .done) : parseUnit e cap p = .ok p := by
  simp only [parseUnit, hstage]

/-- Units that read well leave the rest of the parse to the parser they give. -/
theorem parseAll_of_parseUnits {k : Nat} {p' : Parse} (h : parseUnits e cap k p = .ok p') :
    parseAll e cap p = parseAll e cap p' := by
  refine parseUnits_keeps (P := fun q => parseAll e cap p = parseAll e cap q) (fun q q' hq hunit => ?_) h rfl
  by_cases hdone : q.stage = .done
  · cases (parseUnit_done hdone).symm.trans hunit
    exact hq
  · exact hq.trans (parseAll_of_unit hunit hdone)

theorem parseUnit_tag {t : Tag} (hstage : p.stage = .tag t) : parseUnit e cap p = expectTag e t p := by
  simp only [parseUnit, hstage]

theorem parseUnit_header (hstage : p.stage = .body .ssaf) : parseUnit e cap p = readHeader e cap p := by
  simp only [parseUnit, hstage]

theorem parseUnit_data (hstage : p.stage = .body .data) : parseUnit e cap p = readData e p := by
  simp only [parseUnit, hstage]

theorem not_depthOk_iff (d : Nat) : (!depthOk d) = true ↔ d ∉ Config.depths := by
  rw [Bool.not_eq_true', ← Bool.not_eq_true, depthOk_iff]

/-! #### The data chunk (R281, R336) -/

section

variable {q r : List Int} {t : Nat} (hrice : riceDec e p.chan p.pos p.count p.params = .ok (q, t))
  (hzre : zreDec p.chan p.samples q p.runs = .ok r)

theorem readData_rice_error {x : Err} (h : riceDec e p.chan p.pos p.count p.params = .error x) :
    readData e p = .error x := by
  simp only [readData, h]

include hrice

theorem readData_zre_error {x : Err} (h : zreDec p.chan p.samples q p.runs = .error x) : readData e p = .error x := by
  simp only [readData, hrice, h]

include hzre

theorem readData_misfit {i : Nat} (hi : i < p.samples) (hbad : sampleFits p.depth ((predDec r).getD i 0) = false)
    (hgood : ∀ j, j < i → sampleFits p.depth ((predDec r).getD j 0) = true) :
    readData e p = .error (errRange i p.chan) := by
  have hfirst := firstMisfit_eq_some 0 (by rwa [predDec_length, zreDec_length hzre]) hbad hgood
  simp only [readData, hrice, hzre, hfirst, Nat.zero_add]

theorem readData_fits (hgood : ∀ i, i < p.samples → sampleFits p.depth ((predDec r).getD i 0) = true) :
    readData e p = .ok { p with
      pos := p.pos + ceilDiv t 8, stage := nextStage p, chan := p.chan + 1, pcm := p.pcm ++ [predDec r] } := by
  have hnone := firstMisfit_eq_none 0 (by rwa [predDec_length, zreDec_length hzre])
  simp only [readData, hrice, hzre, hnone]

end

end

/-- Settles O30: the command's end, the order of the units, and each unit's equation. -/
theorem decodeFailsOutright : Obligations.DecodeFailsOutright := by
  refine ⟨?_, ?_, ?_, ?_, ?_⟩
  · intro s l work x hbusy hl hquiet hparse
    have hexec := exec_decode_of_error hbusy hl hquiet hparse
    exact ⟨_, hexec, (exec_engineMove hexec).around, rfl, recordErr_endedWith_outLen s.regs x,
      fun a ha => read_havoc_of_outside _ _ _ a (Span.apart hl.apart a ha),
      fun a ha => read_havoc_of_outside _ _ _ a ha⟩
  · intro e cap k p hunits
    rw [parseAll_of_parseUnits hunits]
    exact ⟨fun x => parseAll_of_parseUnit_error, parseAll_done⟩
  · intro e cap p
    refine ⟨fun want hstage => parseUnit_tag hstage, ?_, parseUnit_done⟩
    rintro d n c rfl rfl rfl hstage
    rw [parseUnit_header hstage, readHeader_eq]
    simp only [not_depthOk_iff]
    rfl
  · rintro e cap n p rfl
    refine ⟨fun hstage => ?_, fun hstage => ?_, fun hstage => ?_⟩ <;> simp only [parseUnit, hstage]
    · exact readCount_eq e p
    · exact readZre_eq e p
    · exact readRice_eq e p
  · intro e cap p hstage
    rw [parseUnit_data hstage]
    refine ⟨fun x => readData_rice_error, fun q t hrice => ⟨fun x => readData_zre_error hrice, fun r hzre =>
      ⟨fun i => readData_misfit hrice hzre, fun hgood => ?_⟩⟩⟩
    exact readData_fits hrice hzre hgood

/-! #### The header (R276, R336) -/

/-- The magic's error is the parse's (R278). -/
theorem parseAll_of_magic_error {e : Source} {cap : Nat} {x : Err} (h : expectTag e .ssaf Parse.start = .error x) :
    parseAll e cap Parse.start = .error x :=
  parseAll_of_parseUnit_error ((parseUnit_tag rfl).trans h)

/-- The parser past the magic. -/
def Parse.pastMagic : Parse := { Parse.start with pos := 4, stage := .body .ssaf }

/-- Past the magic the header's error is the parse's (R276). -/
theorem parseAll_of_header_error {e : Source} {cap : Nat} {x : Err} (hlen : 4 ≤ e.len)
    (hmagic : e.mem.readBytes e.base 4 = tagBytes .ssaf) (h : readHeader e cap Parse.pastMagic = .error x) :
    parseAll e cap Parse.start = .error x := by
  have hunit : parseUnit e cap Parse.start = .ok Parse.pastMagic :=
    (parseUnit_tag rfl).trans ((expectTag_eq e .ssaf Parse.start).trans
      ((if_neg (Nat.not_lt.mpr hlen)).trans (if_pos hmagic)))
  rw [parseAll_of_unit hunit ParseStage.noConfusion]
  exact parseAll_of_parseUnit_error ((parseUnit_header rfl).trans h)

/-- The header's checks past a depth code the core supports (R276, R336). -/
theorem readHeader_of_supported {e : Source} {cap : Nat} (hlen : 9 ≤ e.len) (hdepth : e.nat 8 1 ∈ Config.depths) :
    readHeader e cap Parse.pastMagic =
      if e.len < 13 then .error (errTruncated 0 9 noChan)
      else if e.len < 15 then .error (errTruncated 0 13 noChan)
      else if e.nat 13 2 = 0 then .error errNoChannels
      else if cap < e.nat 9 4 * e.nat 13 2 * (e.nat 8 1 / 8) then
        .error (errOverflow (e.nat 9 4 * e.nat 13 2 * (e.nat 8 1 / 8)))
      else .ok { Parse.start with
        pos := 15, stage := .tag .chan, rate := e.nat 4 4, depth := e.nat 8 1, samples := e.nat 9 4,
        channels := e.nat 13 2 } := by
  have hpos : Parse.pastMagic.pos = 4 := rfl
  have hsupported : ¬(!depthOk (e.nat 8 1)) = true := mt (not_depthOk_iff _).mp (not_not.mpr hdepth)
  rw [readHeader_eq, hpos, if_neg (by omega), if_neg (by omega), if_neg hsupported]
  rfl

/-- Settles O31: ExpectTag of the magic, then the header's checks in order. -/
theorem decodeChecksTheMagic : Obligations.DecodeChecksTheMagic := by
  rintro s l len field hbusy hl hquiet rfl hfield
  obtain rfl : field = (l.source s.mem).nat := hfield
  have magic : ∀ {x : Err}, expectTag (l.source s.mem) .ssaf Parse.start = .error x →
      s.decodeEnds (errWord x) (BitVec.ofNat 32 x.info) (errOutLen x) :=
    fun h => decodeEnds_of_error hbusy hl hquiet (parseAll_of_magic_error h)
  have hlen : (l.source s.mem).len = l.srcLen.toNat := rfl
  refine ⟨fun hshort => ?_, fun hmagic hother => ?_, fun hmagic hbytes => ?_⟩
  · exact magic ((expectTag_eq _ _ _).trans (if_pos hshort))
  · exact magic ((expectTag_eq _ _ _).trans ((if_neg (Nat.not_lt.mpr hmagic)).trans (if_neg hother)))
  have header : ∀ {x : Err}, readHeader (l.source s.mem) l.cap.toNat Parse.pastMagic = .error x →
      s.decodeEnds (errWord x) (BitVec.ofNat 32 x.info) (errOutLen x) :=
    fun h => decodeEnds_of_error hbusy hl hquiet (parseAll_of_header_error hmagic hbytes h)
  have hpos : Parse.pastMagic.pos = 4 := rfl
  refine ⟨fun hrate => ?_, fun hcode => ?_, fun hwhole hdepth => ?_, fun hwhole hdepth => ?_⟩
  · exact header (x := errTruncated 0 4 noChan) (by rw [readHeader_eq, hpos, hlen, if_pos (by omega)])
  · exact header (x := errTruncated 0 8 noChan)
      (by rw [readHeader_eq, hpos, hlen, if_neg (by omega), if_pos (by omega)])
  · have hend := header (x := errDepth ((l.source s.mem).nat 8 1)) (by
      rw [readHeader_eq, hpos, hlen, if_neg (by omega), if_neg (by omega), if_pos ((not_depthOk_iff _).mpr hdepth)])
    rwa [errWord_errDepth] at hend
  have fields := readHeader_of_supported (e := l.source s.mem) (cap := l.cap.toNat) hwhole hdepth
  refine ⟨fun hsamples => ?_, fun hsamples hchannels => ?_, fun hfields hnone => ?_, fun hfields hsome hover => ?_⟩
  · exact header (x := errTruncated 0 9 noChan) (by rw [fields, hlen, if_pos hsamples])
  · exact header (x := errTruncated 0 13 noChan) (by rw [fields, hlen, if_neg (by omega), if_pos hchannels])
  · exact header (x := errNoChannels) (by rw [fields, hlen, if_neg (by omega), if_neg (by omega), if_pos hnone])
  · have hend := header (x := errOverflow ((l.source s.mem).nat 9 4 * (l.source s.mem).nat 13 2 *
        ((l.source s.mem).nat 8 1 / 8)))
      (by rw [fields, hlen, if_neg (by omega), if_neg (by omega), if_neg hsome, if_pos hover])
    rwa [errWord_errOverflow] at hend

end Sys2Proof.Machine
end
